-- ==== Sys2Proof/Word.lean ====
section
/-! DEFINITION. The word types of the hardware: 64-bit words (MXLEN = SXLEN = UXLEN = 64, R7), bytes, register
numbers and CSR addresses. -/

namespace Sys2Proof

/-- A 64-bit register value or address (R7, R21). -/
abbrev Word := BitVec 64

/-- The smallest addressable unit of memory (R80). -/
abbrev Byte := BitVec 8

/-- The number of a general or floating-point register (R21, R22). -/
abbrev Reg := BitVec 5

/-- The 12-bit number of a CSR, `csr[11:0]` (R25, R120). -/
abbrev CsrAddr := BitVec 12

end Sys2Proof
end

