-- ==== Sys2Proof/Config.lean ====
section
/-! DEFINITION. The parameters of R7 and R8: what one implementation fixes, with the defaults of the spec's decisions,
and the free values that no parameter can fix. Log entries 2, 3, 6, 9, 16 and 33. -/

namespace Sys2Proof

/-- The three privilege modes (R11, R24). The reserved number 2 has no constructor, so `priv` and `MPP` never hold
it. -/
inductive Priv where
  | user
  | supervisor
  | machine
  deriving DecidableEq, Repr, Inhabited

/-- `P_CAUSE_ENCODING` (R402, D4). -/
inductive CauseEncoding where
  | binary
  | onehot
  deriving DecidableEq, Repr, Inhabited

/-- `P_COUNTINHIBIT_SET_MEANS` (R443, D5): what a set bit of `mcountinhibit` does. -/
inductive CountPolarity where
  | run
  | inhibit
  deriving DecidableEq, Repr, Inhabited

/-- `P_MTIP_AT_EQUAL` (R445, D6). -/
inductive MtipAtEqual where
  | hold
  | clear
  | set
  deriving DecidableEq, Repr, Inhabited

/-- `P_SATP_WRITE_ILLEGAL_MODE` (R300, D16): R8 gives it one value. -/
inductive SatpIllegalMode where
  | ignoreWholeWrite
  deriving DecidableEq, Repr, Inhabited

/-- `P_SECONDARY_HARTS_START` (R449, D35). -/
inductive SecondaryStart where
  | run
  | held
  deriving DecidableEq, Repr, Inhabited

/-- `Translate` (R8, D26): the walk that R97 summarises, or a wholly free answer at every access. Log 9. -/
inductive TranslateModel where
  | sv39
  | free
  deriving DecidableEq, Repr, Inhabited

/-- `P_WARL_MPP` (R206, D12) where it is open: the legal mode that `MPP` takes when the reserved number 2 is written, by
the mode it held. On legal values it is the identity. Log 33. -/
structure WarlMpp where
  onUser : Priv
  onSupervisor : Priv
  onMachine : Priv
  deriving DecidableEq, Repr, Inhabited

/-- `P_WARL_TVEC_MODE` (R225, R283, D13) where it is open: whether the mode becomes Vectored when 2 or 3 is written, by
the mode it held. On 0 and 1 it is the identity. Log 33. -/
structure WarlTvec where
  direct2 : Bool
  direct3 : Bool
  vectored2 : Bool
  vectored3 : Bool
  deriving DecidableEq, Repr, Inhabited

/-- The parameters of R8, each under its own name. `State` carries one such record, which no step changes. -/
structure Config where
  /-- `P_HARTID` (R203, D1). -/
  hartid : Fin 4
  /-- `P_MCONFIGPTR` (R204, D2). -/
  mconfigptr : Word
  /-- `P_MHPMEVENT[i]`, `i` = 3..31, at index `i - 3` (R247, D3). -/
  mhpmevent : Vector Word 29
  causeEncoding : CauseEncoding
  countPolarity : CountPolarity
  mtipAtEqual : MtipAtEqual
  /-- `P_MEDELEG_WMASK` (R222, D7); bit 11 is unwritable whatever it holds. -/
  medelegMask : Word
  /-- `P_MIDELEG_WMASK` (R223, D8). -/
  midelegMask : Word
  /-- `P_VS_WRITABLE` (R218, D9). -/
  vsWritable : Bool
  /-- `P_SIP_SIE_GATED_BY_MIDELEG` (R282, D10). -/
  sieSipGated : Bool
  /-- `P_FS_OFF_TRAPS_FCSR` (R323, D11). -/
  fsOffTraps : Bool
  /-- `P_FCSR_WRITE_DIRTIES_FS` (R323, D11). -/
  fcsrDirtiesFs : Bool
  warlMpp : WarlMpp
  warlTvec : WarlTvec
  satpIllegalMode : SatpIllegalMode
  /-- `P_SATP_PPN_MASK` (R300, D17). -/
  satpPpnMask : BitVec 44
  /-- `P_TVEC_BASE_MASK` (R225, D18). -/
  tvecBaseMask : BitVec 62
  /-- `P_RESET_VECTOR` (R481, D20). -/
  resetVector : Word
  /-- `P_MTIME_ADDR` (R86, D22). -/
  mtimeAddr : Word
  /-- `P_MTIMECMP_ADDR(hart)` (R86, D22). -/
  mtimecmpAddr : Vector Word 4
  /-- `P_MTIMECMP_PER_HART` (R45, D23). -/
  mtimecmpPerHart : Bool
  secondaryStart : SecondaryStart
  translateModel : TranslateModel
  deriving DecidableEq, Repr

/-- The defaults of R8. DESIGN CHOICE, unsafe where R8 gives none (log 3): hart 0, the reset vector `0x8000_0000`, the
addresses of `mtime` and `mtimecmp`, harts that run from reset, the walk of R97. -/
def Config.standard : Config where
  hartid := 0
  mconfigptr := 0
  mhpmevent := Vector.replicate 29 0
  causeEncoding := .binary
  countPolarity := .run
  mtipAtEqual := .hold
  medelegMask := 0xFFFFFFFFFFFFF7FF
  midelegMask := 0x222
  vsWritable := false
  sieSipGated := false
  fsOffTraps := true
  fcsrDirtiesFs := true
  warlMpp := ⟨.user, .supervisor, .machine⟩
  warlTvec := ⟨false, false, true, true⟩
  satpIllegalMode := .ignoreWholeWrite
  satpPpnMask := BitVec.allOnes 44
  tvecBaseMask := BitVec.allOnes 62
  resetVector := 0x80000000
  mtimeAddr := 0x10000000
  mtimecmpAddr := #v[0x10000008, 0x10000010, 0x10000018, 0x10000020]
  mtimecmpPerHart := true
  secondaryStart := .run
  translateModel := .sv39

/-- FREE VALUE (U7, R27): what a read of `mcause` (`false`) or `scause` (`true`) returns after software wrote a value
the hardware cannot produce, at draw number `tick`. Log 6. -/
opaque Config.freeCause : Nat → Bool → Word

/-- FREE VALUE (R122, R404): the trap value of an encoding longer than 32 bits, at draw number `tick`; R404 gives trap
values for 16-bit and 32-bit instructions only. Log 16. -/
opaque Config.freeLongTval : Nat → Word

end Sys2Proof
end

