-- ==== Sys2Proof/Machine/Hart.lean ====
section
/-! DEFINITION. The architectural state of one hart: its registers, its CSR storage (10_state.md, the elements `S.*`)
and its hidden state (R62), as plain data. Legal values of the WARL fields are kept by their types. -/

namespace Sys2Proof.Machine

/-- The status storage shared by `mstatus` and `sstatus` (R33). -/
structure Status where
  sie : Bool
  mie : Bool
  spie : Bool
  mpie : Bool
  /-- `S.SPP`: true is S, false is U. -/
  spp : Bool
  mpp : Priv
  /-- `S.FS`: 0 Off, 1 Initial, 2 Clean, 3 Dirty (R217). -/
  fs : BitVec 2
  /-- `S.VS`: 0 unless `P_VS_WRITABLE` (R218). -/
  vs : BitVec 2
  mprv : Bool
  sum : Bool
  mxr : Bool
  tvm : Bool
  tw : Bool
  tsr : Bool
  deriving DecidableEq, Repr, Inhabited

/-- The six interrupt-enable bits shared by `mie` and `sie` (R36). -/
structure IrqEnable where
  ssie : Bool
  msie : Bool
  stie : Bool
  mtie : Bool
  seie : Bool
  meie : Bool
  deriving DecidableEq, Repr, Inhabited

/-- The stored interrupt-pending bits (R37); the input lines are in `State`. -/
structure IrqPending where
  ssip : Bool
  stip : Bool
  /-- The software-written bit of `mip.SEIP` alone, without the PLIC's signal (R234). -/
  seip : Bool
  mtip : Bool
  deriving DecidableEq, Repr, Inhabited

/-- A trap-vector register (R38): bits 63:2 of the base, and mode 1 (Vectored) or 0 (Direct). -/
structure Tvec where
  base : BitVec 62
  vectored : Bool
  deriving DecidableEq, Repr, Inhabited

/-- A cause register (R40) with the WLRL mark of R27: `unspecified` says that software last wrote a value the hardware
cannot produce, so that what a read returns is a free value (U7). -/
structure CauseReg where
  value : Word
  unspecified : Bool
  deriving DecidableEq, Repr, Inhabited

/-- The trap-handling storage of one level (R40): `xscratch`, bits 63:1 of `xepc`, `xcause`, `xtval`. -/
structure TrapRegs where
  scratch : Word
  epc : BitVec 63
  cause : CauseReg
  tval : Word
  deriving DecidableEq, Repr, Inhabited

/-- `S.satp_mode`: 0 (Bare) or 8 (Sv39) and nothing else (R43). -/
inductive SatpMode where
  | bare
  | sv39
  deriving DecidableEq, Repr, Inhabited

/-- Translation storage (R43). -/
structure Satp where
  mode : SatpMode
  asid : BitVec 16
  ppn : BitVec 44
  deriving DecidableEq, Repr, Inhabited

/-- One cached leaf of the page table (R62, R100): the virtual page it was found for, the address space it was found
in, its level (0 for 4 KiB, 1 for 2 MiB, 2 for 1 GiB) and the entry's 64 bits as they were then. Log 11. -/
structure TlbEntry where
  asid : BitVec 16
  vpn : BitVec 27
  level : Nat
  pte : Word
  deriving DecidableEq, Repr, Inhabited

/-- Everything one hart holds. -/
structure Hart where
  /-- The address of the instruction being executed (R23). -/
  pc : Word
  priv : Priv
  /-- `x1` to `x31` at indexes 0 to 30; `x0` has no storage (R21, log 30). -/
  x : Vector Word 31
  f : Vector Word 32
  status : Status
  medeleg : Word
  mideleg : Word
  mie : IrqEnable
  pend : IrqPending
  mtvec : Tvec
  stvec : Tvec
  mcounteren : BitVec 32
  scounteren : BitVec 32
  mcountinhibit : BitVec 32
  mTrap : TrapRegs
  sTrap : TrapRegs
  mFIOM : Bool
  sFIOM : Bool
  mcycle : Word
  minstret : Word
  /-- `S.mhpmcounter[i]`, `i` = 3..31, at index `i - 3` (R42). -/
  mhpmcounter : Vector Word 29
  satp : Satp
  fflags : BitVec 5
  frm : BitVec 3
  /-- `wfi_waiting`: the hart is stalled in WFI (R62, R355). -/
  wfiWaiting : Bool
  /-- The load reservation, which only `BaseStep` reads and writes (R62, log 31). -/
  reservation : Option Word
  /-- The address-translation caches (R62). -/
  tlb : List TlbEntry
  /-- What the bytes stored to since the last FENCE.I held before, newest first; none where the byte had no value (R105,
  U13, log 13). -/
  staleCode : List (Nat × Option Byte)
  /-- A secondary hart that hart 0 has not released yet (R449, log 22). -/
  held : Bool
  deriving DecidableEq, Repr

/-- A hart with every element 0, false or empty, in U-mode: the draw that `State.reset` uses for what R65 leaves
unspecified (DESIGN CHOICE, unsafe, log 4). -/
def Hart.zero : Hart where
  pc := 0
  priv := .user
  x := Vector.replicate 31 0
  f := Vector.replicate 32 0
  status := ⟨false, false, false, false, false, .user, 0, 0, false, false, false, false, false, false⟩
  medeleg := 0
  mideleg := 0
  mie := ⟨false, false, false, false, false, false⟩
  pend := ⟨false, false, false, false⟩
  mtvec := ⟨0, false⟩
  stvec := ⟨0, false⟩
  mcounteren := 0
  scounteren := 0
  mcountinhibit := 0
  mTrap := ⟨0, 0, ⟨0, false⟩, 0⟩
  sTrap := ⟨0, 0, ⟨0, false⟩, 0⟩
  mFIOM := false
  sFIOM := false
  mcycle := 0
  minstret := 0
  mhpmcounter := Vector.replicate 29 0
  satp := ⟨.bare, 0, 0⟩
  fflags := 0
  frm := 0
  wfiWaiting := false
  reservation := none
  tlb := []
  staleCode := []
  held := false

end Sys2Proof.Machine
end

