-- ==== Sys2Proof/Machine/CsrMap.lean ====
section
/-! DEFINITION. The 125 supported CSR addresses (R29). Vetoed (R30) and unlisted (R31) addresses name no CSR. -/

namespace Sys2Proof.Machine

/-- The supported CSRs; `mhpmevent`, `mhpmcounter` and `hpmcounter` number 3..31 at index 0..28. -/
inductive Csr where
  | mvendorid | marchid | mimpid | mhartid | mconfigptr
  | mstatus | misa | medeleg | mideleg | mie | mtvec | mcounteren | menvcfg | mcountinhibit
  | mhpmevent (i : Fin 29)
  | mscratch | mepc | mcause | mtval | mip
  | mcycle | minstret
  | mhpmcounter (i : Fin 29)
  | sstatus | sie | stvec | scounteren | senvcfg
  | sscratch | sepc | scause | stval | sip
  | satp
  | fflags | frm | fcsr
  | cycle | time | instret
  | hpmcounter (i : Fin 29)
  deriving DecidableEq, Repr

/-- The address of a CSR (R29). -/
def csrAddr : Csr → CsrAddr
  | .mvendorid => 0xF11
  | .marchid => 0xF12
  | .mimpid => 0xF13
  | .mhartid => 0xF14
  | .mconfigptr => 0xF15
  | .mstatus => 0x300
  | .misa => 0x301
  | .medeleg => 0x302
  | .mideleg => 0x303
  | .mie => 0x304
  | .mtvec => 0x305
  | .mcounteren => 0x306
  | .menvcfg => 0x30A
  | .mcountinhibit => 0x320
  | .mhpmevent i => BitVec.ofNat 12 (0x323 + i.val)
  | .mscratch => 0x340
  | .mepc => 0x341
  | .mcause => 0x342
  | .mtval => 0x343
  | .mip => 0x344
  | .mcycle => 0xB00
  | .minstret => 0xB02
  | .mhpmcounter i => BitVec.ofNat 12 (0xB03 + i.val)
  | .sstatus => 0x100
  | .sie => 0x104
  | .stvec => 0x105
  | .scounteren => 0x106
  | .senvcfg => 0x10A
  | .sscratch => 0x140
  | .sepc => 0x141
  | .scause => 0x142
  | .stval => 0x143
  | .sip => 0x144
  | .satp => 0x180
  | .fflags => 0x001
  | .frm => 0x002
  | .fcsr => 0x003
  | .cycle => 0xC00
  | .time => 0xC01
  | .instret => 0xC02
  | .hpmcounter i => BitVec.ofNat 12 (0xC03 + i.val)

/-- The supported CSRs that stand alone. -/
def singleCsrs : List Csr :=
  [.mvendorid, .marchid, .mimpid, .mhartid, .mconfigptr, .mstatus, .misa, .medeleg, .mideleg, .mie, .mtvec,
    .mcounteren, .menvcfg, .mcountinhibit, .mscratch, .mepc, .mcause, .mtval, .mip, .mcycle, .minstret, .sstatus, .sie,
    .stvec, .scounteren, .senvcfg, .sscratch, .sepc, .scause, .stval, .sip, .satp, .fflags, .frm, .fcsr, .cycle, .time,
    .instret]

/-- The supported CSRs of index `i` of the three numbered groups. -/
def numberedCsrs (i : Fin 29) : List Csr := [Csr.mhpmevent i, Csr.mhpmcounter i, Csr.hpmcounter i]

/-- Every supported CSR. -/
def allCsrs : List Csr := singleCsrs ++ (List.finRange 29).flatMap numberedCsrs

/-- The CSR at an address, if the address is supported: `csr_exists` (R161). -/
def csrOfAddr (a : CsrAddr) : Option Csr := allCsrs.find? fun c => csrAddr c == a

/-- The addresses that the document lists and vetoes (R30), as inclusive ranges. They are unsupported like any unlisted
address, so nothing else depends on this list. -/
def vetoedRanges : List (Nat × Nat) :=
  [(0x34A, 0x34B), (0x747, 0x747), (0x3A0, 0x3EF), (0x30C, 0x30F), (0x31C, 0x31F), (0x740, 0x742), (0x744, 0x744),
    (0x7A0, 0x7A3), (0x7A8, 0x7A8), (0x7B0, 0x7B3), (0x120, 0x120), (0xDA0, 0xDA0), (0x5A8, 0x5A8), (0x10C, 0x10F)]

/-- Whether an address is listed and vetoed (R30). -/
def csrVetoed (a : CsrAddr) : Bool := vetoedRanges.any fun r => decide (r.1 ≤ a.toNat) && decide (a.toNat ≤ r.2)

/-- The lowest privilege that may access an address, `csr[9:8]` (R120). -/
def csrLevel (a : CsrAddr) : BitVec 2 := a.extractLsb' 8 2

/-- A read-only address, `csr[11:10] = 11` (R120, R163). -/
def csrReadOnly (a : CsrAddr) : Bool := a.extractLsb' 10 2 == 3#2

end Sys2Proof.Machine
end

