-- ==== Sys2Proof/Machine/Bits.lean ====
section
/-! DEFINITION. Bit-field and byte-order helpers (R9, R81, R82). -/

namespace Sys2Proof.Machine

/-- The word with bit `i` equal to `b` and every other bit 0. -/
def bitAt (b : Bool) (i : Nat) : Word := if b then 1#64 <<< i else 0#64

/-- The word with the field `v` from bit `i` up and every other bit 0. -/
def fieldAt {w : Nat} (v : BitVec w) (i : Nat) : Word := v.setWidth 64 <<< i

/-- The value of bytes in little-endian order, the first the least significant (R81). -/
def leValue : List Byte → Word
  | [] => 0
  | b :: bs => b.setWidth 64 ||| (leValue bs <<< 8)

/-- The `n` low bytes of a value in little-endian order. -/
def leBytes : Nat → Word → List Byte
  | 0, _ => []
  | n + 1, v => v.setWidth 8 :: leBytes n (v >>> 8)

/-- Bits 63:1 of an address, as an `xepc` register stores it (R228, R288). -/
def pcHigh (a : Word) : BitVec 63 := a.extractLsb' 1 63

/-- The address whose bits 63:1 are given, bit 0 being 0. -/
def pcOfHigh (h : BitVec 63) : Word := h ++ 0#1

/-- The number of a privilege mode (R11). -/
def privCode : Priv → BitVec 2
  | .user => 0
  | .supervisor => 1
  | .machine => 3

end Sys2Proof.Machine
end

