-- ==== Sys2Proof/Machine/Cause.lean ====
section
/-! DEFINITION. The causes of traps (R400, R401). The causes the hardware never raises have no constructor. -/

namespace Sys2Proof.Machine

/-- The synchronous exceptions this hardware can raise (R400). -/
inductive Exc where
  | instrAccessFault
  | illegalInstr
  | breakpoint
  | loadMisaligned
  | loadAccessFault
  | storeMisaligned
  | storeAccessFault
  | ecallU
  | ecallS
  | ecallM
  | instrPageFault
  | loadPageFault
  | storePageFault
  | hardwareError
  deriving DecidableEq, Repr, Inhabited

/-- The interrupts this hardware can raise (R401). -/
inductive Irq where
  | ssi
  | msi
  | sti
  | mti
  | sei
  | mei
  deriving DecidableEq, Repr, Inhabited

/-- What a trap is taken for. -/
inductive Cause where
  | exc (e : Exc)
  | irq (i : Irq)
  deriving DecidableEq, Repr, Inhabited

/-- The exception code (R400). -/
def excCode : Exc → Nat
  | .instrAccessFault => 1
  | .illegalInstr => 2
  | .breakpoint => 3
  | .loadMisaligned => 4
  | .loadAccessFault => 5
  | .storeMisaligned => 6
  | .storeAccessFault => 7
  | .ecallU => 8
  | .ecallS => 9
  | .ecallM => 11
  | .instrPageFault => 12
  | .loadPageFault => 13
  | .storePageFault => 15
  | .hardwareError => 19

/-- The interrupt code (R401). -/
def irqCode : Irq → Nat
  | .ssi => 1
  | .msi => 3
  | .sti => 5
  | .mti => 7
  | .sei => 9
  | .mei => 11

/-- The code of a cause. -/
def causeCode : Cause → Nat
  | .exc e => excCode e
  | .irq i => irqCode i

/-- Whether a cause is an interrupt. -/
def causeIsIrq : Cause → Bool
  | .exc _ => false
  | .irq _ => true

/-- Every exception (R400). -/
def allExcs : List Exc :=
  [.instrAccessFault, .illegalInstr, .breakpoint, .loadMisaligned, .loadAccessFault, .storeMisaligned,
    .storeAccessFault, .ecallU, .ecallS, .ecallM, .instrPageFault, .loadPageFault, .storePageFault, .hardwareError]

/-- Every interrupt, in the order of priority (R412). -/
def irqPriority : List Irq := [.mei, .msi, .mti, .sei, .ssi, .sti]

/-- Every cause that `mcause` can be given by the hardware. -/
def mCauses : List Cause := allExcs.map .exc ++ irqPriority.map .irq

/-- Every cause that `scause` can be given by the hardware: not ECALL from M-mode, not an M-level interrupt (R289). -/
def sCauses : List Cause :=
  (allExcs.filter (· ≠ .ecallM)).map .exc ++ [.irq .sei, .irq .ssi, .irq .sti]

/-- `cause_value` (R402): the interrupt bit above the code, in binary or one-hot. -/
def causeValue (enc : CauseEncoding) (c : Cause) : Word :=
  bitAt (causeIsIrq c) 63 |||
    match enc with
    | .binary => BitVec.ofNat 64 (causeCode c)
    | .onehot => 1#64 <<< causeCode c

/-- Whether a value is that of one of the given causes. -/
def isCauseValue (enc : CauseEncoding) (legal : List Cause) (v : Word) : Bool :=
  legal.any fun k => causeValue enc k == v

/-- A draw of `scause` at reset as a legal value of the field (R27, R65, R289, R481): the drawn value if the hardware
can give it to the register, else that of an instruction access fault (DESIGN CHOICE for an all-zero draw, log 4). -/
def drawnScause (enc : CauseEncoding) (v : Word) : Word :=
  if isCauseValue enc sCauses v then v else causeValue enc (.exc .instrAccessFault)

/-- The ECALL exception of a mode (R350). -/
def ecallOf : Priv → Exc
  | .user => .ecallU
  | .supervisor => .ecallS
  | .machine => .ecallM

end Sys2Proof.Machine
end

