-- ==== Sys2Proof/Machine/Input.lean ====
section
/-! DEFINITION. What the outside does in one step (R20, R62, R414): the acts of the agents around the hart, the passing
of time, the choices that the spec leaves to the environment, and the events that the parameter `BaseStep` hands to this
hardware (R359). Log entries 5, 9, 11, 12, 13, 15, 20, 21 and 28. -/

namespace Sys2Proof.Machine

/-- One change made by an agent outside the hart (R20, R414). -/
inductive AgentAction where
  /-- The PLIC drives `in.MEIP` (R233). -/
  | setMEIP (level : Bool)
  /-- The PLIC drives its S external signal `in.SEIP_plic` (R234). -/
  | setSEIP (level : Bool)
  /-- The IPI registers drive `in.MSIP` (R233). -/
  | setMSIP (level : Bool)
  /-- The IPI registers set or clear `S.SSIP` (R235, C11). -/
  | setSSIP (level : Bool)
  /-- Another hart stores to `mtime`; a half store is the mixed value (R85, R87). -/
  | writeMtime (v : Word)
  /-- Another hart stores to the `mtimecmp` of hart `h`; a half store is the mixed value (R85, R88). -/
  | writeMtimecmp (h : Fin 4) (v : Word)
  /-- Another hart or a device stores one byte to memory. -/
  | storeByte (a : Word) (b : Byte)
  /-- The hart walks the page table for `va` ahead of need and caches the leaf it finds (R62, R100), in M-mode too
  (log 38). -/
  | cacheTranslation (va : Word)
  /-- Hart 0 releases this held hart (R449). -/
  | release
  deriving DecidableEq, Repr, Inhabited

/-- Where the PMA check fails: on an access of the page-table walk, or on the access itself (R95, R99, R405). -/
inductive PmaFault where
  | onWalk
  | onAccess
  deriving DecidableEq, Repr, Inhabited

/-- What the environment chooses for one translation: the number, among the matching cached leaves, of the one that is
used (none or too large: the page table is walked, R100, log 11), and whether the PMA check fails (R99, log 12). -/
structure Choice where
  cached : Option Nat
  fault : Option PmaFault
  deriving DecidableEq, Repr, Inhabited

/-- The page table is walked and the PMA check passes. -/
def Choice.plain : Choice := ⟨none, none⟩

/-- The exceptions that an instruction of `BaseStep` may raise (R359, R400); those of a fetch, of EBREAK and of ECALL
are raised by this hardware's own rules. -/
inductive BaseCause where
  | illegalInstr
  | loadMisaligned
  | loadAccessFault
  | storeMisaligned
  | storeAccessFault
  | loadPageFault
  | storePageFault
  deriving DecidableEq, Repr, Inhabited

/-- What a memory access of `BaseStep` is (R83, R95). -/
inductive AccessOp where
  | load
  | loadReserved
  | store
  | storeConditional
  | amo
  deriving DecidableEq, Repr, Inhabited

/-- The size of a data access. -/
inductive Width where
  | byte
  | half
  | word
  | double
  deriving DecidableEq, Repr, Inhabited

/-- One data access of a `BaseStep` instruction: which, how wide, at which virtual address; the value stored (for a
store, SC or AMO); the register a loaded value goes to and whether it is sign-extended; the trap value if the access
spans two pages and the second faults (R404, log 23); and, for a misaligned access, the bytes that other agents store to
memory before each of its bytes (U12, log 20). Nothing else of the agents comes inside an instruction (R414). -/
structure Access where
  op : AccessOp
  width : Width
  vaddr : Word
  value : Word
  dst : Option (Reg × Bool)
  spanTval : Word
  between : List (List (Word × Byte))
  deriving DecidableEq, Repr, Inhabited

/-- The rest of what a retiring `BaseStep` instruction does (the contract of R359): the next pc where it is not
`pc + ilen`, the general and floating-point registers it writes, the exception flags it accrues, whether it marks `FS`
Dirty when one of the last two is not empty, and what becomes of the load reservation. -/
structure BaseRetire where
  nextPc : Option Word
  xWrites : List (Reg × Word)
  fWrites : List (Reg × Word)
  flags : BitVec 5
  dirtiesFs : Bool
  reservation : Option (Option Word)
  deriving DecidableEq, Repr, Inhabited

/-- What an instruction outside the opcode table does this time: the event that `BaseStep` hands over (R6 a, R359). -/
inductive BaseEvent where
  /-- It raises an exception; `addr` is the trap value of an address exception. -/
  | raise (c : BaseCause) (addr : Word)
  /-- It retires without a data access. -/
  | retire (r : BaseRetire)
  /-- It makes one data access and retires, unless the access faults. -/
  | access (a : Access) (r : BaseRetire)
  deriving DecidableEq, Repr, Inhabited

/-- What the outside does in one step (R414). -/
structure Input where
  /-- The agents' changes, in their order. -/
  actions : List AgentAction
  /-- `d` of R444: how far `mtime` advances. -/
  mtimeDelta : Nat
  /-- `k` of R440: the clock cycles of this step. -/
  cycles : Nat
  /-- `e` of R442 for each `mhpmcounter[i]`, at index `i - 3`. -/
  events : Vector Nat 29
  /-- A waiting hart resumes in this step although nothing enabled is pending (R355). -/
  wake : Bool
  /-- A hardware error (cause 19) is raised on the fetch (R400, U8). -/
  hardwareError : Bool
  /-- The choice for the translation of each parcel fetched, the first parcel's first; `plain` where the list ends. -/
  fetchChoices : List Choice
  /-- The choice for the translation of a data access: the first entry for an aligned access, one entry a byte for a
  misaligned one, which may be performed as several (R83); `plain` where the list ends. -/
  dataChoices : List Choice
  /-- For each byte of the instruction, which value is fetched: 0 the byte in memory, `n` the `n`-th newest value it
  had since the last FENCE.I (U13). -/
  codePick : List Nat
  /-- What the instruction does if it belongs to `BaseStep`. -/
  base : BaseEvent
  /-- The hart is reset, with this draw for every element R481 leaves unspecified. -/
  reset : Option Hart
  deriving DecidableEq, Repr, Inhabited

/-- A step in which nothing happens outside the hart: no agent acts, no time passes, the newest bytes are fetched. -/
def Input.quiet : Input where
  actions := []
  mtimeDelta := 0
  cycles := 0
  events := Vector.replicate 29 0
  wake := false
  hardwareError := false
  fetchChoices := []
  dataChoices := []
  codePick := []
  base := .raise .illegalInstr 0
  reset := none

/-- What an access is for, as far as translation and permission go (R93, R95): an AMO counts as a store. -/
inductive AccessKind where
  | fetch
  | load
  | store
  deriving DecidableEq, Repr, Inhabited

/-- The answer of `Translate` (D26). -/
inductive Translation where
  | ok (pa : Word)
  | pageFault
  | accessFault
  deriving DecidableEq, Repr, Inhabited

end Sys2Proof.Machine

namespace Sys2Proof

/-- FREE INPUT: what the outside does in draw number `tick` when the list of placed inputs is empty. Nothing constrains
it, so a claim about such a step holds whatever the outside does. Log 5. -/
opaque Config.freeInput : Nat → Machine.Input

/-- FREE VALUE: the answer of `Translate` under `TranslateModel.free`, of the arguments D26 gives it (virtual address,
access kind, effective privilege, SUM, MXR, `satp`) and of the draw number, so that two accesses need not agree (R100).
Log 9. -/
opaque Config.freeTranslate : Nat → Word → Machine.AccessKind → Priv → Bool → Bool → Word → Machine.Translation

end Sys2Proof
end

