-- ==== Sys2Proof/Machine/State.lean ====
section
/-! DEFINITION. The state of the machine: one hart, the platform registers it shares, memory, the parameters, and the
model's own fields; why a step can stop; and the state after reset. -/

namespace Sys2Proof.Machine

/-- Memory: the bytes that something has written, by rising physical address (R80, log 7). -/
abbrev Memory := List Host.Cell

/-- What an unlisted address reads as: no value (log 7). Reading it stops with `Fault.unwrittenMemory`. -/
def Memory.unlisted : Option Byte := none

/-- The canonical form of a memory from an address on: addresses strictly rising and below 2^64. -/
def Memory.wfFrom : Nat → Memory → Bool
  | _, [] => true
  | lo, (a, _) :: rest => decide (lo ≤ a) && decide (a < 2 ^ 64) && Memory.wfFrom (a + 1) rest

/-- The canonical form of a memory. No listed byte reads as an unlisted one does, since that has no value. -/
def Memory.wf (m : Memory) : Bool := Memory.wfFrom 0 m

/-- The ordering request that a FENCE hands to the memory system (R104, R127): FENCE.TSO or not, and the predecessor
and successor sets (I, O, R, W at bits 3 to 0) after the widening by FIOM. Log 14. -/
structure FenceOrder where
  tso : Bool
  pred : BitVec 4
  succ : BitVec 4
  deriving DecidableEq, Repr, Inhabited

/-- The machine. -/
structure State extends Hart where
  /-- The parameters of R8; no step changes them. -/
  cfg : Config
  /-- `in.MEIP` (R62). -/
  inMEIP : Bool
  /-- `in.SEIP_plic` (R62). -/
  inSEIP : Bool
  /-- `in.MSIP` (R62). -/
  inMSIP : Bool
  /-- The platform's `mtime` (R45, R87). -/
  mtime : Word
  /-- The platform's `mtimecmp` registers, one a hart (R45, R88, log 25). -/
  mtimecmp : Vector Word 4
  mem : Memory
  /-- The MODEL's own: the last ordering request (R104, log 14). -/
  fenceOut : Option FenceOrder
  /-- The MODEL's own: what the outside does in the coming steps, one entry a step (R414, log 5). -/
  inputs : List Input
  /-- The MODEL's own: the number of the next draw of a free value (log 6). -/
  tick : Nat
  deriving DecidableEq, Repr

/-- The faults: where the model stops and the hardware may go on. -/
inductive Fault where
  /-- A fetch, a page-table walk or a data access of `BaseStep` reads a byte of memory that nothing has written.
  Raised by fetch and by `BaseStep` accesses, never by the meaning of a table instruction. Safe (log 7). -/
  | unwrittenMemory
  deriving DecidableEq, Repr

/-- The refusals: what the model makes no claim about. -/
inductive Refusal where
  /-- An instruction that has no meaning yet, by its mnemonic. Raised by `exec` alone; safe. -/
  | notModelled (mnemonic : String)
  /-- An access to `mtime` or `mtimecmp` that is neither an aligned 8-byte access nor an aligned 4-byte access to a
  half ("every other size or alignment is refused by the model", R85, U20), or an instruction fetch from them. Raised
  by fetch and by `BaseStep` accesses; safe (log 19). -/
  | mmcsrAccess
  deriving DecidableEq, Repr

/-- The outcomes of a step. -/
abbrev Result := Host.Outcome State Fault Refusal

/-- The reset of a hart (R481): what the rule fixes is fixed, every hardwired or masked bit is as the parameters say,
and every other element is the draw's (R65, U16). The translation cache is empty (R483). -/
def Hart.afterReset (c : Config) (draw : Hart) : Hart :=
  { draw with
    pc := c.resetVector
    priv := .machine
    status := { draw.status with
      mie := false
      mprv := false
      vs := if c.vsWritable then draw.status.vs else 0 }
    medeleg := draw.medeleg &&& c.medelegMask &&& ~~~(0x800 : Word)
    mideleg := draw.mideleg &&& c.midelegMask
    mtvec := { draw.mtvec with base := draw.mtvec.base &&& c.tvecBaseMask }
    stvec := { draw.stvec with base := draw.stvec.base &&& c.tvecBaseMask }
    mcountinhibit := draw.mcountinhibit &&& 0xFFFFFFFD
    mTrap := { draw.mTrap with cause := ⟨0, false⟩ }
    sTrap := { draw.sTrap with cause := ⟨drawnScause c.causeEncoding draw.sTrap.cause.value, false⟩ }
    satp := { draw.satp with ppn := draw.satp.ppn &&& c.satpPpnMask }
    wfiWaiting := false
    tlb := []
    held := decide (c.secondaryStart = .held) && decide (c.hartid ≠ 0) }

/-- The machine right after reset. The parameters are `Config.standard` (log 2, log 3); what R65 leaves unspecified is
0, false or empty, and `scause` a legal value (DESIGN CHOICE, unsafe, log 4); memory lists nothing; no input is placed
(log 5). -/
def State.reset : State :=
  { Hart.afterReset Config.standard Hart.zero with
    cfg := Config.standard
    inMEIP := false
    inSEIP := false
    inMSIP := false
    mtime := 0
    mtimecmp := Vector.replicate 4 0
    mem := []
    fenceOut := none
    inputs := []
    tick := 0 }

end Sys2Proof.Machine
end

