-- ==== Sys2Proof/Machine/Ops.lean ====
section
/-! DEFINITION. The named operations over registers and memory, taking a trap and returning from one, and retiring. -/

namespace Sys2Proof.Machine

/-! ### Registers -/

/-- Read a general register; `x0` reads 0 (R21). -/
def readX (r : Reg) (s : State) : Word :=
  if h : r.toNat = 0 then 0 else s.x[r.toNat - 1]'(by have := r.isLt; omega)

/-- Write a general register; a write to `x0` is discarded (R21). -/
def writeX (r : Reg) (v : Word) (s : State) : State :=
  { s with x := if h : r.toNat = 0 then s.x else s.x.set (r.toNat - 1) v (by have := r.isLt; omega) }

/-- Read a floating-point register (R22). -/
def readF (r : Reg) (s : State) : Word := s.f[r.toNat]'r.isLt

/-- Write a floating-point register (R22). -/
def writeF (r : Reg) (v : Word) (s : State) : State := { s with f := s.f.set r.toNat v r.isLt }

/-- The address of the next instruction (R23): 64-bit addition, which wraps (D27). -/
def advancePc (len : Nat) (s : State) : State := { s with pc := s.pc + BitVec.ofNat 64 len }

/-! ### Memory -/

/-- The byte at an address. -/
def memRead : Memory → Nat → Option Byte
  | [], _ => Memory.unlisted
  | (k, v) :: rest, a => if a = k then some v else memRead rest a

/-- Store a byte, keeping the canonical form. -/
def memWrite : Memory → Nat → Byte → Memory
  | [], a, b => [(a, b)]
  | (k, v) :: rest, a, b =>
    if a < k then (a, b) :: (k, v) :: rest
    else if a = k then (a, b) :: rest
    else (k, v) :: memWrite rest a b

/-- The bytes at the given addresses, or none if one of them has no value. -/
def memReadAll (m : Memory) : List Word → Option (List Byte)
  | [] => some []
  | a :: rest =>
    match memRead m a.toNat, memReadAll m rest with
    | some b, some bs => some (b :: bs)
    | _, _ => none

/-- The `n` addresses from `a` up, modulo 2^64. -/
def addrRange (a : Word) (n : Nat) : List Word := (List.range n).map fun i => a + BitVec.ofNat 64 i

/-- Store a byte to memory; its old value may still be fetched until the next FENCE.I (R105, U13). -/
def storeByte (a : Word) (b : Byte) (s : State) : State :=
  { s with
    mem := memWrite s.mem a.toNat b
    staleCode := (a.toNat, memRead s.mem a.toNat) :: s.staleCode }

/-! ### Counting and retiring -/

/-- `counting_enabled` (R443) for counter bit `b`. -/
def countingEnabled (b : Nat) (s : State) : Bool :=
  match s.cfg.countPolarity with
  | .run => s.mcountinhibit.getLsbD b
  | .inhibit => !s.mcountinhibit.getLsbD b

/-- An instruction retires: `minstret` counts it when counting is enabled (R441). `suppress` is set by a CSR instruction
that wrote `minstret` (R177, R243). Log 18. -/
def retire (suppress : Bool) (s : State) : State :=
  { s with minstret := if !suppress && countingEnabled 2 s then s.minstret + 1 else s.minstret }

/-- An instruction of `len` bytes completes: the pc advances and it retires. -/
def complete (len : Nat) (s : State) : Result := .next (retire false (advancePc len s))

/-! ### Taking a trap (R430) -/

/-- The register saved in `xepc` and the handler: `tvec_target` (R431). -/
def tvecTarget (t : Tvec) (c : Cause) : Word :=
  if t.vectored && causeIsIrq c then (t.base ++ 0#2) + BitVec.ofNat 64 (4 * causeCode c)
  else t.base ++ 0#2

/-- Whether a trap goes to S-mode (R420, R421, R430): it comes from below M and is delegated. -/
def trapsToS (c : Cause) (s : State) : Bool :=
  s.priv != .machine &&
    (match c with
    | .irq i => s.mideleg.getLsbD (irqCode i)
    | .exc e => s.medeleg.getLsbD (excCode e))

/-- The S half of trap entry (R430). -/
def enterS (c : Cause) (tval : Word) (s : State) : State :=
  { s with
    sTrap := { s.sTrap with
      epc := pcHigh s.pc
      cause := ⟨causeValue s.cfg.causeEncoding c, false⟩
      tval := tval }
    status := { s.status with
      spie := s.status.sie
      sie := false
      spp := s.priv == .supervisor }
    priv := .supervisor
    pc := tvecTarget s.stvec c
    wfiWaiting := false }

/-- The M half of trap entry (R430). -/
def enterM (c : Cause) (tval : Word) (s : State) : State :=
  { s with
    mTrap := { s.mTrap with
      epc := pcHigh s.pc
      cause := ⟨causeValue s.cfg.causeEncoding c, false⟩
      tval := tval }
    status := { s.status with
      mpie := s.status.mie
      mie := false
      mpp := s.priv }
    priv := .machine
    pc := tvecTarget s.mtvec c
    wfiWaiting := false }

/-- `take_trap` (R430), the same for exceptions and interrupts: every assignment reads the values from before. -/
def takeTrap (c : Cause) (tval : Word) (s : State) : State :=
  if trapsToS c s then enterS c tval s else enterM c tval s

/-- `raise E(tval)` (R10): the instruction has no other effect and does not retire. -/
def raise (e : Exc) (tval : Word) (s : State) : Result := .next (takeTrap (.exc e) tval s)

/-- The illegal-instruction exception with the instruction bits as trap value (R129, R404). -/
def raiseIllegal (bits : Word) (s : State) : Result := raise .illegalInstr bits s

/-! ### Returning from a trap (R353, R354) -/

/-- The effect of a legal MRET but for retiring (R353). -/
def returnM (s : State) : State :=
  { s with
    status := { s.status with
      mie := s.status.mpie
      mpie := true
      mpp := .user
      mprv := if s.status.mpp = .machine then s.status.mprv else false }
    priv := s.status.mpp
    pc := pcOfHigh s.mTrap.epc }

/-- The effect of a legal SRET but for retiring (R354). -/
def returnS (s : State) : State :=
  { s with
    status := { s.status with
      sie := s.status.spie
      spie := true
      spp := false
      mprv := false }
    priv := if s.status.spp then .supervisor else .user
    pc := pcOfHigh s.sTrap.epc }

end Sys2Proof.Machine
end

