-- ==== Sys2Proof/Machine/Flags.lean ====
section
/-! DEFINITION. The machine's flags: the accrued floating-point exception flags and the rounding mode (R320 to R324),
and the context status that follows them (R217, R220). -/

namespace Sys2Proof.Machine

/-- `mstatus.SD` (R220): some extension context is Dirty; `XS` is the constant 0. -/
def statusSD (st : Status) : Bool := st.fs == 3#2 || st.vs == 3#2

/-- A write of `fflags`, `frm` or `fcsr` marks `FS` Dirty where the parameter says so (R323). -/
def dirtyFcsr (s : State) : State :=
  { s with status := { s.status with fs := if s.cfg.fcsrDirtiesFs then 3 else s.status.fs } }

/-- The read view of `fcsr` (R322). -/
def fcsrView (s : State) : Word := fieldAt s.frm 5 ||| fieldAt s.fflags 0

/-- The write effect of `fflags` (R320, R323). -/
def writeFflags (v : Word) (s : State) : State := dirtyFcsr { s with fflags := v.extractLsb' 0 5 }

/-- The write effect of `frm` (R321, R323): reserved values are stored as written (D32). -/
def writeFrm (v : Word) (s : State) : State := dirtyFcsr { s with frm := v.extractLsb' 0 3 }

/-- The write effect of `fcsr` (R322, R323). -/
def writeFcsr (v : Word) (s : State) : State :=
  dirtyFcsr { s with frm := v.extractLsb' 5 3, fflags := v.extractLsb' 0 5 }

/-- A floating-point instruction ORs the flags it raises into `fflags` (R320). -/
def accrueFlags (raised : BitVec 5) (s : State) : State := { s with fflags := s.fflags ||| raised }

/-- The rounding modes (R324). -/
inductive Rounding where
  | nearestEven
  | towardZero
  | down
  | up
  | nearestMax
  deriving DecidableEq, Repr

/-- The rounding-mode table (R324); 5, 6 and 7 are reserved where `frm` holds them. -/
def roundingOf (rm : BitVec 3) : Option Rounding :=
  if rm = 0 then some .nearestEven
  else if rm = 1 then some .towardZero
  else if rm = 2 then some .down
  else if rm = 3 then some .up
  else if rm = 4 then some .nearestMax
  else none

/-- The rounding mode of a floating-point instruction whose `rm` field is given: 7 (DYN) takes `frm` (R324). -/
def instrRounding (rm : BitVec 3) (s : State) : Option Rounding :=
  if rm = 7 then roundingOf s.frm else roundingOf rm

end Sys2Proof.Machine
end

