-- ==== Sys2Proof/Machine/CsrRead.lean ====
section
/-! DEFINITION. The read view of every supported CSR (41_machine_csrs.md, 42_supervisor_csrs.md, 43_user_csrs.md). -/

namespace Sys2Proof.Machine

/-- `mstatus` (R205): the constant part is `SXL = UXL = 2`. -/
def mstatusView (s : State) : Word :=
  0x0000000A00000000 |||
    bitAt (statusSD s.status) 63 |||
    bitAt s.status.tsr 22 ||| bitAt s.status.tw 21 ||| bitAt s.status.tvm 20 |||
    bitAt s.status.mxr 19 ||| bitAt s.status.sum 18 ||| bitAt s.status.mprv 17 |||
    fieldAt s.status.fs 13 ||| fieldAt (privCode s.status.mpp) 11 ||| fieldAt s.status.vs 9 |||
    bitAt s.status.spp 8 ||| bitAt s.status.mpie 7 ||| bitAt s.status.spie 5 |||
    bitAt s.status.mie 3 ||| bitAt s.status.sie 1

/-- What `sstatus` shows of `mstatus` (R280). -/
def sstatusMask : Word := 0x80000003000DE762

/-- `misa` (R221). -/
def misaValue : Word := 0x800000000014112D

/-- The six implemented bits of `mie` in place (R36, R224). -/
def mieView (s : State) : Word :=
  bitAt s.mie.ssie 1 ||| bitAt s.mie.msie 3 ||| bitAt s.mie.stie 5 |||
    bitAt s.mie.mtie 7 ||| bitAt s.mie.seie 9 ||| bitAt s.mie.meie 11

/-- `mip_eff` with bit 9 given (R37, R231). -/
def mipWith (bit9 : Bool) (s : State) : Word :=
  bitAt s.pend.ssip 1 ||| bitAt s.inMSIP 3 ||| bitAt s.pend.stip 5 |||
    bitAt s.pend.mtip 7 ||| bitAt bit9 9 ||| bitAt s.inMEIP 11

/-- `mip_eff` (R37): bit 9 is the software bit or the PLIC's signal. -/
def mipView (s : State) : Word := mipWith (s.pend.seip || s.inSEIP) s

/-- The S-level interrupt bits 1, 5 and 9, less those hidden by `P_SIP_SIE_GATED_BY_MIDELEG` (R282, R291). -/
def sieSipMask (s : State) : Word := if s.cfg.sieSipGated then 0x222 &&& s.mideleg else 0x222

/-- A trap-vector register (R225, R283). -/
def tvecView (t : Tvec) : Word := t.base ++ 0#1 ++ BitVec.ofBool t.vectored

/-- The number of a translation mode (R301). -/
def satpModeCode : SatpMode → BitVec 4
  | .bare => 0
  | .sv39 => 8

/-- `satp` (R300). -/
def satpView (t : Satp) : Word := satpModeCode t.mode ++ t.asid ++ t.ppn

/-- A cause register: the stored value, or a free value after an illegal software write (R27, U7). -/
def causeView (r : CauseReg) (free : Word) : Word := if r.unspecified then free else r.value

/-- `csr_read`: the read view of a CSR. -/
def csrRead (c : Csr) (s : State) : Word :=
  match c with
  | .mvendorid => 0
  | .marchid => 0
  | .mimpid => 0
  | .mhartid => BitVec.ofNat 64 s.cfg.hartid.val
  | .mconfigptr => s.cfg.mconfigptr
  | .mstatus => mstatusView s
  | .misa => misaValue
  | .medeleg => s.medeleg
  | .mideleg => s.mideleg
  | .mie => mieView s
  | .mtvec => tvecView s.mtvec
  | .mcounteren => s.mcounteren.setWidth 64
  | .menvcfg => bitAt s.mFIOM 0
  | .mcountinhibit => s.mcountinhibit.setWidth 64
  | .mhpmevent i => s.cfg.mhpmevent[i]
  | .mscratch => s.mTrap.scratch
  | .mepc => pcOfHigh s.mTrap.epc
  | .mcause => causeView s.mTrap.cause (Config.freeCause s.tick false)
  | .mtval => s.mTrap.tval
  | .mip => mipView s
  | .mcycle => s.mcycle
  | .minstret => s.minstret
  | .mhpmcounter i => s.mhpmcounter[i]
  | .sstatus => mstatusView s &&& sstatusMask
  | .sie => mieView s &&& sieSipMask s
  | .stvec => tvecView s.stvec
  | .scounteren => s.scounteren.setWidth 64
  | .senvcfg => bitAt s.sFIOM 0
  | .sscratch => s.sTrap.scratch
  | .sepc => pcOfHigh s.sTrap.epc
  | .scause => causeView s.sTrap.cause (Config.freeCause s.tick true)
  | .stval => s.sTrap.tval
  | .sip => mipView s &&& sieSipMask s
  | .satp => satpView s.satp
  | .fflags => s.fflags.setWidth 64
  | .frm => s.frm.setWidth 64
  | .fcsr => fcsrView s
  | .cycle => s.mcycle
  | .time => s.mtime
  | .instret => s.minstret
  | .hpmcounter i => s.mhpmcounter[i]

/-- `csr_rmw_base` (R173): what a set or clear instruction modifies. Only `mip` and `sip` differ from the read view:
their bit 9 is the software bit alone. -/
def csrRmwBase (c : Csr) (s : State) : Word :=
  match c with
  | .mip => mipWith s.pend.seip s
  | .sip => mipWith s.pend.seip s &&& sieSipMask s
  | c => csrRead c s

end Sys2Proof.Machine
end

