-- ==== Sys2Proof/Machine/Interrupts.lean ====
section
/-! DEFINITION. Interrupt selection (R410 to R412) and the wake-up condition of WFI (R355). -/

namespace Sys2Proof.Machine

/-- The pending and enabled interrupts destined for M-mode: `m_pend` (R411). -/
def mPending (s : State) : Word := mipView s &&& mieView s &&& ~~~s.mideleg

/-- The pending and enabled interrupts destined for S-mode: `s_pend` (R411). -/
def sPending (s : State) : Word := mipView s &&& mieView s &&& s.mideleg

/-- `m_en` (R411): interrupts into M-mode are enabled. -/
def mEnabled (s : State) : Bool :=
  match s.priv with
  | .machine => s.status.mie
  | .supervisor => true
  | .user => true

/-- `s_en` (R411): interrupts into S-mode are enabled. -/
def sEnabled (s : State) : Bool :=
  match s.priv with
  | .machine => false
  | .supervisor => s.status.sie
  | .user => true

/-- `highest_priority` (R412). -/
def highestPriority (v : Word) : Option Irq := irqPriority.find? fun i => v.getLsbD (irqCode i)

/-- `select_interrupt` (R411): the target mode and the interrupt, the M group first. -/
def selectInterrupt (s : State) : Option (Priv × Irq) :=
  match (if mEnabled s then highestPriority (mPending s) else none) with
  | some i => some (.machine, i)
  | none =>
    match (if sEnabled s then highestPriority (sPending s) else none) with
    | some i => some (.supervisor, i)
    | none => none

/-- A waiting hart resumes at the latest when an enabled interrupt is pending, whatever `MIE`, `SIE` and `mideleg` hold
(R355). -/
def wakePending (s : State) : Bool := mipView s &&& mieView s != 0

end Sys2Proof.Machine
end

