-- ==== Sys2Proof/Machine/Translate.lean ====
section
/-! DEFINITION. What the CSR state makes of a memory access: effective privilege (R91), when translation applies (R92),
permissions (R93), the Sv39 walk (R97), and the cache of translations that SFENCE.VMA maintains (R100, R108). Log
entries 9 to 12. -/

namespace Sys2Proof.Machine

/-- `eff_priv` (R91): the privilege a data access uses. -/
def effPriv (s : State) : Priv := if s.priv = .machine ∧ s.status.mprv = true then s.status.mpp else s.priv

/-- Whether an access at privilege `p` is translated by Sv39 (R92). -/
def translationActive (p : Priv) (s : State) : Bool := p != .machine && s.satp.mode == .sv39

/-- The permission test of a leaf entry (R93): R, W, X, U are its bits 1 to 4. -/
def leafPermits (kind : AccessKind) (p : Priv) (sum mxr : Bool) (pte : Word) : Bool :=
  let r := pte.getLsbD 1
  let w := pte.getLsbD 2
  let x := pte.getLsbD 3
  let u := pte.getLsbD 4
  (match kind with
    | .load => r || (mxr && x)
    | .store => w
    | .fetch => x) &&
  (match p with
    | .user => u
    | .supervisor => !u || (kind != .fetch && sum)
    | .machine => true)

/-- Svadu is not implemented (R97): a leaf with A = 0, or with D = 0 on a store, faults. A and D are bits 6 and 7. -/
def leafAccessed (kind : AccessKind) (pte : Word) : Bool := pte.getLsbD 6 && (kind != .store || pte.getLsbD 7)

/-- Bits 63:39 of a virtual address all equal bit 38 (R97). -/
def canonical (va : Word) : Bool := va == (va.setWidth 39).signExtend 64

/-- What a page-table entry is (R97). -/
inductive PteKind where
  | invalid
  | pointer
  | leaf
  deriving DecidableEq, Repr

/-- Classify a page-table entry (R97): V is bit 0; bits 63:54 (`N`, `PBMT`, reserved) must be 0. -/
def pteKind (pte : Word) : PteKind :=
  if !pte.getLsbD 0 || (!pte.getLsbD 1 && pte.getLsbD 2) || pte.extractLsb' 54 10 != 0#10 then .invalid
  else if !pte.getLsbD 1 && !pte.getLsbD 3 then .pointer
  else .leaf

/-- The physical page number of an entry, bits 53:10 (R97). -/
def ptePpn (pte : Word) : BitVec 44 := pte.extractLsb' 10 44

/-- `VPN[level]` of a virtual address (R97). -/
def vpnAt (va : Word) (level : Nat) : BitVec 9 := va.extractLsb' (12 + 9 * level) 9

/-- The table at a physical page number: `ppn * 4096` (R97, R300). -/
def tableAt (ppn : BitVec 44) : Word := (ppn ++ 0#12).setWidth 64

/-- The answer of a walk. -/
inductive WalkResult where
  | leaf (level : Nat) (pte : Word)
  | pageFault
  /-- An entry's bytes have no value (log 7). -/
  | unwritten
  deriving DecidableEq, Repr

/-- The entry for `va` in the table at `base`: 8 bytes, little-endian (R81, R97). A walk reads memory also where an
entry lies at the address of `mtime` or `mtimecmp`, never the register (R85 is silent; DESIGN CHOICE, log 34). -/
def pteRead (m : Memory) (base va : Word) (level : Nat) : Option Word :=
  (memReadAll m (addrRange (base + (vpnAt va level ++ 0#3).setWidth 64) 8)).map leValue

/-- A leaf of a large page must be aligned to its level (R97). -/
def leafAt (level : Nat) (pte : Word) : WalkResult :=
  if (ptePpn pte).toNat % 2 ^ (9 * level) = 0 then .leaf level pte else .pageFault

/-- The walk from a level downward (R97). A pointer at level 0 has no next level: a page fault (log 10). -/
def walk (m : Memory) (va : Word) : Nat → Word → WalkResult
  | 0, base =>
    match pteRead m base va 0 with
    | none => .unwritten
    | some pte =>
      match pteKind pte with
      | .invalid => .pageFault
      | .pointer => .pageFault
      | .leaf => leafAt 0 pte
  | level + 1, base =>
    match pteRead m base va (level + 1) with
    | none => .unwritten
    | some pte =>
      match pteKind pte with
      | .invalid => .pageFault
      | .pointer => walk m va level (tableAt (ptePpn pte))
      | .leaf => leafAt (level + 1) pte

/-- The walk of the hart's current page table: from level 2 at `satp.PPN` (R97). -/
def walkRoot (va : Word) (s : State) : WalkResult := walk s.mem va 2 (tableAt s.satp.ppn)

/-- The physical address of `va` under a leaf (R97): the entry's page number above, the virtual address's own bits
below the leaf's level. -/
def leafAddr (level : Nat) (pte va : Word) : Word :=
  BitVec.ofNat 64 ((ptePpn pte).toNat * 4096 + va.toNat % 2 ^ (12 + 9 * level))

/-! ### The cache of translations -/

/-- A global mapping: bit 5 of the entry (R97). -/
def tlbGlobal (e : TlbEntry) : Bool := e.pte.getLsbD 5

/-- Whether a cached leaf covers a virtual address: the page numbers agree down to the leaf's level. Bits 63:39 are not
compared, so an SFENCE.VMA with a non-canonical address in `rs1` discards the leaves of the canonical address with the
same bits 38:12 (R108 and R356 are silent; DESIGN CHOICE, log 35). -/
def tlbCovers (va : Word) (e : TlbEntry) : Bool :=
  (va.extractLsb' 12 27) >>> (9 * e.level) == e.vpn >>> (9 * e.level)

/-- Whether a cached leaf may be used for an address in an address space (R97: the ASID tags cached translations). -/
def tlbHits (asid : BitVec 16) (va : Word) (e : TlbEntry) : Bool :=
  tlbCovers va e && (tlbGlobal e || e.asid == asid)

/-- Whether SFENCE.VMA discards a cached leaf (R108, R356): none means all; an ASID leaves global mappings. -/
def tlbFlushed (va : Option Word) (asid : Option (BitVec 16)) (e : TlbEntry) : Bool :=
  (match va with
    | none => true
    | some a => tlbCovers a e) &&
  (match asid with
    | none => true
    | some n => e.asid == n && !tlbGlobal e)

/-- `flush_translations` (R356). -/
def flushTlb (va : Option Word) (asid : Option (BitVec 16)) (s : State) : State :=
  { s with tlb := s.tlb.filter fun e => !tlbFlushed va asid e }

/-- The cache entry for a leaf found for `va`. -/
def tlbEntryFor (va : Word) (level : Nat) (pte : Word) (s : State) : TlbEntry :=
  { asid := s.satp.asid
    vpn := va.extractLsb' 12 27
    level := level
    pte := pte }

/-- A list of cached leaves with one more, once. -/
def addLeaf (e : TlbEntry) (l : List TlbEntry) : List TlbEntry := if l.contains e then l else e :: l

/-- Cache a leaf. -/
def cacheLeaf (e : TlbEntry) (s : State) : State := { s with tlb := addLeaf e s.tlb }

/-- The cached leaf that the input picks among those that may be used (R100, log 11). -/
def cachedLeaf (pick : Option Nat) (va : Word) (s : State) : Option TlbEntry :=
  match pick with
  | none => none
  | some n => (s.tlb.filter (tlbHits s.satp.asid va))[n]?

/-! ### Translation -/

/-- The answer for one access: a physical address and a leaf to cache, a fault, or a stop of the model. -/
inductive Translated where
  | ok (pa : Word) (fill : Option TlbEntry)
  | pageFault
  | accessFault
  | stop (f : Fault)
  deriving DecidableEq, Repr

/-- The PMA check on the physical address (R99, log 12). -/
def pmaCheck (c : Choice) (pa : Word) (fill : Option TlbEntry) : Translated :=
  if c.fault = some .onAccess then .accessFault else .ok pa fill

/-- A leaf is used if its permissions and its A and D bits allow the access (R93, R97). -/
def useLeaf (c : Choice) (kind : AccessKind) (p : Priv) (va : Word) (level : Nat) (pte : Word)
    (fill : Option TlbEntry) (s : State) : Translated :=
  if leafPermits kind p s.status.sum s.status.mxr pte && leafAccessed kind pte then
    pmaCheck c (leafAddr level pte va) fill
  else .pageFault

/-- Translation by Sv39 (R97): a cached leaf if the input picks one, else the walk. -/
def translateSv39 (c : Choice) (kind : AccessKind) (p : Priv) (va : Word) (s : State) : Translated :=
  if canonical va then
    match cachedLeaf c.cached va s with
    | some e => useLeaf c kind p va e.level e.pte none s
    | none =>
      if c.fault = some .onWalk then .accessFault
      else
        match walkRoot va s with
        | .leaf level pte => useLeaf c kind p va level pte (some (tlbEntryFor va level pte s)) s
        | .pageFault => .pageFault
        | .unwritten => .stop .unwrittenMemory
  else .pageFault

/-- The parameter `Translate` (D26): which page of physical memory an access at privilege `p` reaches. Untranslated
accesses take the virtual address as it is (R92). -/
def translateAccess (c : Choice) (kind : AccessKind) (p : Priv) (va : Word) (s : State) : Translated :=
  if translationActive p s then
    match s.cfg.translateModel with
    | .sv39 => translateSv39 c kind p va s
    | .free =>
      match Config.freeTranslate s.tick va kind p s.status.sum s.status.mxr (satpView s.satp) with
      | .ok pa => pmaCheck c pa none
      | .pageFault => .pageFault
      | .accessFault => .accessFault
  else pmaCheck c va none

/-- Cache the leaf a translation found, if it found one by walking. -/
def applyFill (fill : Option TlbEntry) (s : State) : State :=
  { s with tlb :=
      match fill with
      | none => s.tlb
      | some e => addLeaf e s.tlb }

end Sys2Proof.Machine
end

