-- ==== Sys2Proof/Machine/Platform.lean ====
section
/-! DEFINITION. The platform around the hart: the memory-mapped CSRs (R85 to R88), the agents' changes (R20, R414), the
passing of time and the counters (R440 to R444), and the timer interrupt (R445). -/

namespace Sys2Proof.Machine

/-! ### Memory-mapped CSRs -/

/-- The memory-mapped CSRs (R45). -/
inductive MmReg where
  | mtime
  | mtimecmp (h : Fin 4)
  deriving DecidableEq, Repr

/-- The `mtimecmp` that a hart's accesses and timer use: its own, or the shared one (D23, log 25). -/
def cmpIndex (c : Config) (h : Fin 4) : Fin 4 := if c.mtimecmpPerHart then h else 0

/-- The memory-mapped CSRs and their addresses (R86). -/
def mmRegs (c : Config) : List (MmReg × Word) :=
  (MmReg.mtime, c.mtimeAddr) ::
    (if c.mtimecmpPerHart then List.finRange 4 else [0]).map fun h => (MmReg.mtimecmp h, c.mtimecmpAddr[h])

/-- The memory-mapped CSR that holds an address, with the byte's offset in it. -/
def mmAt (c : Config) (a : Word) : Option (MmReg × Nat) :=
  ((mmRegs c).find? fun e => decide ((a - e.2).toNat < 8)).map fun e => (e.1, (a - e.2).toNat)

/-- Read a memory-mapped CSR. -/
def mmRead (r : MmReg) (s : State) : Word :=
  match r with
  | .mtime => s.mtime
  | .mtimecmp h => s.mtimecmp[h]

/-- This hart's `mtimecmp` (R88). -/
def ownCmp (s : State) : Word := s.mtimecmp[cmpIndex s.cfg s.cfg.hartid]

/-- The timer rule (R445). -/
def updateMtip (s : State) : State :=
  { s with pend := { s.pend with
      mtip :=
        if ownCmp s < s.mtime then true
        else if s.mtime < ownCmp s then false
        else
          match s.cfg.mtipAtEqual with
          | .hold => s.pend.mtip
          | .clear => false
          | .set => true } }

/-- Write a memory-mapped CSR; the timer rule is evaluated after the change (R445). -/
def mmWrite (r : MmReg) (v : Word) (s : State) : State :=
  match r with
  | .mtime => updateMtip { s with mtime := v }
  | .mtimecmp h => updateMtip { s with mtimecmp := s.mtimecmp.set h.val v h.isLt }

/-! ### Agents -/

/-- One agent's change (R20, R414). A byte store into a memory-mapped CSR is no admitted access (R85): nothing. The hart
may walk ahead of need wherever `satp` holds Sv39, whatever `priv` is, M-mode included: R301 does not say whether it may
do so there, where `satp` is not active (DESIGN CHOICE, log 38). -/
def applyAgent (a : AgentAction) (s : State) : State :=
  match a with
  | .setMEIP b => { s with inMEIP := b }
  | .setSEIP b => { s with inSEIP := b }
  | .setMSIP b => { s with inMSIP := b }
  | .setSSIP b => { s with pend := { s.pend with ssip := b } }
  | .writeMtime v => mmWrite .mtime v s
  | .writeMtimecmp h v => mmWrite (.mtimecmp (cmpIndex s.cfg h)) v s
  | .storeByte pa b =>
    match mmAt s.cfg pa with
    | some _ => s
    | none => storeByte pa b s
  | .cacheTranslation va =>
    if translationActive .user s && canonical va then
      match walkRoot va s with
      | .leaf level pte => cacheLeaf (tlbEntryFor va level pte s) s
      | .pageFault => s
      | .unwritten => s
    else s
  | .release => { s with held := false }

/-- The agents' changes, in order. -/
def applyAgents (as : List AgentAction) (s : State) : State := as.foldl (fun s a => applyAgent a s) s

/-! ### Time and counters -/

/-- `mtime`, `mcycle` and the event counters advance by the input's amounts, where they count (R440, R442, R444). After
a CSR write of a counter this advance of the next step comes before the next instruction reads it (R177 beside R440;
DEDUCED, log 37). -/
def advanceCounters (inp : Input) (s : State) : State :=
  { s with
    mtime := s.mtime + BitVec.ofNat 64 inp.mtimeDelta
    mcycle := if countingEnabled 0 s then s.mcycle + BitVec.ofNat 64 inp.cycles else s.mcycle
    mhpmcounter := Vector.ofFn fun i : Fin 29 =>
      if countingEnabled (i.val + 3) s then s.mhpmcounter[i] + BitVec.ofNat 64 inp.events[i] else s.mhpmcounter[i] }

/-- The part of a step before the hart acts (R414): agents, time and counters, the timer rule. -/
def platformStep (inp : Input) (s : State) : State :=
  updateMtip (advanceCounters inp (applyAgents inp.actions s))

/-! ### Inputs -/

/-- What the outside does in the coming step: the first placed input, or a free one (log 5). -/
def nextInput (s : State) : Input :=
  match s.inputs with
  | [] => Config.freeInput s.tick
  | inp :: _ => inp

/-- The state with that input taken. -/
def popInput (s : State) : State := { s with inputs := s.inputs.tail, tick := s.tick + 1 }

/-- The hart is reset (R481), with a draw for what the rule leaves unspecified. -/
def resetHart (draw : Hart) (s : State) : State := { s with toHart := Hart.afterReset s.cfg draw }

end Sys2Proof.Machine
end

