-- ==== Sys2Proof/Machine/Boundary.lean ====
section
/-! DEFINITION. The part of a step before the fetch (R414): the platform, reset, a held or waiting hart, and the
interrupt test at the instruction boundary (R413). -/

namespace Sys2Proof.Machine

/-- What the boundary leaves of a step: it is over, or an instruction is fetched in the given state. -/
inductive Boundary where
  | ended (s : State)
  | ready (s : State)
  deriving DecidableEq, Repr

/-- Whether a hart waiting in WFI goes on waiting (R355). -/
def staysWaiting (inp : Input) (s : State) : Bool := s.wfiWaiting && !(inp.wake || wakePending s)

/-- The boundary before an instruction, after the platform has acted: reset (R481); a held hart does nothing (R449); a
waiting hart does nothing (R355); a selected interrupt is taken, with trap value 0 (R404, R411, R430). -/
def hartBoundary (inp : Input) (s : State) : Boundary :=
  match inp.reset with
  | some draw => .ended (resetHart draw s)
  | none =>
    if s.held || staysWaiting inp s then .ended s
    else
      match selectInterrupt s with
      | some (_, i) => .ended (takeTrap (.irq i) 0 { s with wfiWaiting := false })
      | none => .ready { s with wfiWaiting := false }

/-- The boundary of a step from a state: the input is taken, the platform acts, then the hart's boundary (R414). -/
def boundary (s : State) : Boundary := hartBoundary (nextInput s) (platformStep (nextInput s) (popInput s))

end Sys2Proof.Machine
end

