-- ==== Sys2Proof/Machine/BaseStep.lean ====
section
/-! DEFINITION. The parameter `BaseStep` (R6, R359): what an instruction outside the opcode table does is an event of
the input, and this file gives the event its effect on this hardware, within the contract of R359. Log entries 15, 19,
20 and 23. -/

namespace Sys2Proof.Machine

/-- The exception of a cause that `BaseStep` may raise (R400). -/
def baseExc : BaseCause → Exc
  | .illegalInstr => .illegalInstr
  | .loadMisaligned => .loadMisaligned
  | .loadAccessFault => .loadAccessFault
  | .storeMisaligned => .storeMisaligned
  | .storeAccessFault => .storeAccessFault
  | .loadPageFault => .loadPageFault
  | .storePageFault => .storePageFault

/-- The trap value (R404): the instruction bits of an illegal instruction, else the access's address. -/
def baseTval (c : BaseCause) (bits addr : Word) : Word := if c = .illegalInstr then bits else addr

/-- The number of bytes of an access. -/
def widthBytes : Width → Nat
  | .byte => 1
  | .half => 2
  | .word => 4
  | .double => 8

/-- Whether an access reads memory. -/
def accessReads : AccessOp → Bool
  | .load => true
  | .loadReserved => true
  | .store => false
  | .storeConditional => false
  | .amo => true

/-- Whether an access writes memory. -/
def accessWrites : AccessOp → Bool
  | .load => false
  | .loadReserved => false
  | .store => true
  | .storeConditional => true
  | .amo => true

/-- What an access is for translation (R93, R95). -/
def accessKind (op : AccessOp) : AccessKind := if accessWrites op then .store else .load

/-- An address that is a multiple of the access's size (R83). -/
def accessAligned (a : Access) : Bool := a.vaddr.toNat % widthBytes a.width == 0

/-- The misaligned exception (R83): LR raises 4; SC and AMO raise 6; an ordinary load or store never does. -/
def misalignedExc (a : Access) : Option Exc :=
  if accessAligned a then none
  else
    match a.op with
    | .load => none
    | .loadReserved => some .loadMisaligned
    | .store => none
    | .storeConditional => some .storeMisaligned
    | .amo => some .storeMisaligned

/-- The page fault of an access (R95). -/
def pageFaultOf : AccessKind → Exc
  | .fetch => .instrPageFault
  | .load => .loadPageFault
  | .store => .storePageFault

/-- The access fault of an access (R95, C9). -/
def accessFaultOf : AccessKind → Exc
  | .fetch => .instrAccessFault
  | .load => .loadAccessFault
  | .store => .storeAccessFault

/-- Where an access's bytes lie: their physical addresses and the leaves to cache, an exception with its trap value, or
a stop of the model. -/
inductive DataPath where
  | ok (pas : List Word) (fills : List (Option TlbEntry))
  | fault (e : Exc) (tval : Word)
  | stop (f : Fault)
  deriving DecidableEq, Repr

/-- The trap value of a faulting byte (R404): the access's address, or what `BaseStep` supplies when the byte lies in
another page than the access's first one (log 23). -/
def dataTval (a : Access) (va : Word) : Word := if va >>> 12 = a.vaddr >>> 12 then a.vaddr else a.spanTval

/-- The choices for an access's bytes (R99, R100): an aligned access is one access with one choice; a misaligned one may
be performed as several (R83), with a choice for each byte. -/
def accessChoices (inp : Input) (a : Access) : List Choice :=
  if accessAligned a then List.replicate (widthBytes a.width) (inp.dataChoices.headD .plain) else inp.dataChoices

/-- Translate the bytes of an access in turn, at the effective privilege (R91 to R93), each by its own choice; the first
fault is reported. -/
def dataPath (a : Access) (s : State) : List Choice → List Word → DataPath
  | _, [] => .ok [] []
  | cs, va :: rest =>
    match translateAccess (cs.headD .plain) (accessKind a.op) (effPriv s) va s with
    | .pageFault => .fault (pageFaultOf (accessKind a.op)) (dataTval a va)
    | .accessFault => .fault (accessFaultOf (accessKind a.op)) (dataTval a va)
    | .stop f => .stop f
    | .ok pa fill =>
      match dataPath a s cs.tail rest with
      | .ok pas fills => .ok (pa :: pas) (fill :: fills)
      | .fault e tval => .fault e tval
      | .stop f => .stop f

/-- Where the bytes of an access lie. -/
def accessPath (inp : Input) (a : Access) (s : State) : DataPath :=
  dataPath a s (accessChoices inp a) (addrRange a.vaddr (widthBytes a.width))

/-- Where an access goes (R85): to memory, to a memory-mapped CSR at an offset, or nowhere the model admits. -/
inductive DataTarget where
  | memory
  | mmcsr (r : MmReg) (off : Nat)
  | refused
  deriving DecidableEq, Repr

/-- An access to a memory-mapped CSR is admitted as 8 bytes at offset 0, or 4 bytes at offset 0 or 4 (R85, D28). -/
def dataTarget (c : Config) (pas : List Word) : DataTarget :=
  if pas.all fun pa => (mmAt c pa).isNone then .memory
  else
    match pas with
    | [] => .memory
    | pa :: _ =>
      match mmAt c pa with
      | none => .refused
      | some (r, off) =>
        if (pas.length = 8 ∧ off = 0) ∨ (pas.length = 4 ∧ (off = 0 ∨ off = 4)) then .mmcsr r off else .refused

/-- Other agents store bytes to memory between two bytes of a misaligned access (U12); they do nothing else there
(R414). -/
def agentStores (l : List (Word × Byte)) (s : State) : State :=
  applyAgents (l.map fun p => .storeByte p.1 p.2) s

/-- Read bytes of memory in turn. Before each byte the agents of the schedule store: a misaligned access is not atomic
(U12). -/
def loadBytes : List Word → List (List (Word × Byte)) → State → Option (List Byte × State)
  | [], _, s => some ([], s)
  | pa :: rest, between, s =>
    let s' := agentStores (between.headD []) s
    match memRead s'.mem pa.toNat with
    | none => none
    | some b =>
      match loadBytes rest between.tail s' with
      | none => none
      | some (bs, s'') => some (b :: bs, s'')

/-- Store bytes in turn, with the agents' stores of the schedule before each (U12). -/
def storeBytes : List (Word × Byte) → List (List (Word × Byte)) → State → State
  | [], _, s => s
  | (pa, b) :: rest, between, s =>
    storeBytes rest between.tail (storeByte pa b (agentStores (between.headD []) s))

/-- A loaded value in a register: sign- or zero-extended from its width. -/
def extendLoad (signed : Bool) (w : Width) (v : Word) : Word :=
  match w with
  | .byte => if signed then (v.setWidth 8).signExtend 64 else (v.setWidth 8).setWidth 64
  | .half => if signed then (v.setWidth 16).signExtend 64 else (v.setWidth 16).setWidth 64
  | .word => if signed then (v.setWidth 32).signExtend 64 else (v.setWidth 32).setWidth 64
  | .double => v

/-- The value of a memory-mapped CSR after `n` bytes at an offset are replaced (R85). -/
def mmMerge (old v : Word) (n off : Nat) : Word :=
  if n = 8 then v
  else if off = 0 then old.extractLsb' 32 32 ++ v.setWidth 32
  else v.setWidth 32 ++ old.setWidth 32

/-- Write the register a loaded value goes to. -/
def writeLoaded (a : Access) (v : Word) (s : State) : State :=
  match a.dst with
  | none => s
  | some (rd, signed) => writeX rd (extendLoad signed a.width v) s

/-- `FS` after a retiring instruction (R323, R359): it becomes Dirty only if the parameter lets hardware change it and
the instruction writes a floating-point register or accrues a flag. Log 15. -/
def retiredFs (r : BaseRetire) (s : State) : BitVec 2 :=
  if s.cfg.fcsrDirtiesFs && r.dirtiesFs && (!r.fWrites.isEmpty || r.flags != 0) then 3 else s.status.fs

/-- The rest of what a retiring instruction does (R359): registers, accrued flags, `FS`, the reservation, the pc. Bit 0
of the pc stays 0 (R23). -/
def applyRetire (len : Nat) (r : BaseRetire) (s : State) : State :=
  let s1 := r.xWrites.foldl (fun s w => writeX w.1 w.2 s) s
  let s2 := r.fWrites.foldl (fun s w => writeF w.1 w.2 s) s1
  let s3 := accrueFlags r.flags s2
  { s3 with
    status := { s3.status with fs := retiredFs r s3 }
    reservation := r.reservation.getD s3.reservation
    pc :=
      match r.nextPc with
      | some t => t &&& ~~~(1 : Word)
      | none => s3.pc + BitVec.ofNat 64 len }

/-- An access to memory that reads: the value and the state after it, or none where a byte has no value. -/
def memoryLoad (a : Access) (pas : List Word) (s : State) : Option (Word × State) :=
  if accessReads a.op then
    match loadBytes pas (if accessAligned a then [] else a.between) s with
    | none => none
    | some (bs, s') => some (leValue bs, s')
  else some (0, s)

/-- An access to memory that writes. -/
def memoryStore (a : Access) (pas : List Word) (s : State) : State :=
  if accessWrites a.op then
    storeBytes (pas.zip (leBytes (widthBytes a.width) a.value)) (if accessAligned a then [] else a.between) s
  else s

/-- A data access that reached its physical addresses, and the rest of its instruction. -/
def performAccess (len : Nat) (a : Access) (r : BaseRetire) (pas : List Word) (s : State) : Result :=
  match dataTarget s.cfg pas with
  | .refused => .refused .mmcsrAccess
  | .mmcsr reg off =>
    let old := mmRead reg s
    let s' := if accessWrites a.op then mmWrite reg (mmMerge old a.value pas.length off) s else s
    .next (retire false (writeLoaded a (old >>> (8 * off)) (applyRetire len r s')))
  | .memory =>
    match memoryLoad a pas s with
    | none => .fault .unwrittenMemory
    | some (v, s1) => .next (retire false (writeLoaded a v (applyRetire len r (memoryStore a pas s1))))

/-- A data access: alignment (R83), translation and permission (R91 to R95), then its effect. An access that faults
performs no part of itself (R95, R403). -/
def baseAccess (inp : Input) (len : Nat) (a : Access) (r : BaseRetire) (s : State) : Result :=
  match misalignedExc a with
  | some e => raise e a.vaddr s
  | none =>
    match accessPath inp a s with
    | .fault e tval => raise e tval s
    | .stop f => .fault f
    | .ok pas fills => performAccess len a r pas (fills.foldl (fun s f => applyFill f s) s)

/-- An instruction of `len` bytes that belongs to `BaseStep`, whose bits are `bits` (R359). -/
def baseStep (inp : Input) (len : Nat) (bits : Word) (s : State) : Result :=
  match inp.base with
  | .raise c addr => raise (baseExc c) (baseTval c bits addr) s
  | .retire r => .next (retire false (applyRetire len r s))
  | .access a r => baseAccess inp len a r s

end Sys2Proof.Machine
end

