-- ==== Sys2Proof/Syntax.lean ====
section
/-! DEFINITION. The instructions of the opcode table, one constructor a row (R125 to R128). -/

namespace Sys2Proof

/-- One instruction. Operands are the named fields of the row's encoding; the fields the hardware ignores (`rs1`, `rd`
of FENCE; `imm`, `rs1`, `rd` of FENCE.I, R127) are no operands. -/
inductive Instr where
  /-- CSRRW rd, csr, rs1 (R166). -/
  | csrrw (rd : Reg) (csr : CsrAddr) (rs1 : Reg)
  /-- CSRRS rd, csr, rs1 (R167). -/
  | csrrs (rd : Reg) (csr : CsrAddr) (rs1 : Reg)
  /-- CSRRC rd, csr, rs1 (R168). -/
  | csrrc (rd : Reg) (csr : CsrAddr) (rs1 : Reg)
  /-- CSRRWI rd, csr, uimm (R169). -/
  | csrrwi (rd : Reg) (csr : CsrAddr) (uimm : BitVec 5)
  /-- CSRRSI rd, csr, uimm (R170). -/
  | csrrsi (rd : Reg) (csr : CsrAddr) (uimm : BitVec 5)
  /-- CSRRCI rd, csr, uimm (R171). -/
  | csrrci (rd : Reg) (csr : CsrAddr) (uimm : BitVec 5)
  /-- ECALL (R350). -/
  | ecall
  /-- EBREAK (R351). -/
  | ebreak
  /-- C.EBREAK, the one 16-bit instruction in scope (R352). -/
  | cEbreak
  /-- MRET (R353). -/
  | mret
  /-- SRET (R354). -/
  | sret
  /-- WFI (R355). -/
  | wfi
  /-- SFENCE.VMA rs1, rs2 (R356). -/
  | sfenceVma (rs1 rs2 : Reg)
  /-- FENCE fm, pred, succ (R357); `pred` and `succ` hold I, O, R, W at bits 3, 2, 1, 0 (R127). -/
  | fence (fm pred succ : BitVec 4)
  /-- FENCE.I (R358). -/
  | fenceI
  deriving DecidableEq, Repr

end Sys2Proof
end

