-- ==== Sys2Proof/Decode.lean ====
section
/-! DEFINITION. The decoder and, after it, the encoder, both written from the encodings of R122 to R128. -/

namespace Sys2Proof

/-- Why bytes are no instruction of the opcode table. -/
inductive DecodeError where
  /-- Fewer bytes than the instruction needs. -/
  | truncated
  /-- `p[4:0] = 11111`: longer than 32 bits, not implemented, illegal (R122). -/
  | tooLong
  /-- The all-zero parcel, defined illegal (R128). -/
  | zeroParcel
  /-- A SYSTEM encoding that R129 makes illegal: `funct3 = 100`, or `funct3 = 000` outside R126. -/
  | illegalSystem
  /-- Any other 16-bit instruction: it belongs to `BaseStep` (R128, R359). -/
  | base16
  /-- Any other 32-bit instruction: it belongs to `BaseStep` (R359). -/
  | base32
  deriving DecidableEq, Repr

/-- The SYSTEM encodings with `funct3 = 000` (R126): five whole words, and SFENCE.VMA by its `funct7` with `rd = 0`. -/
def decodePriv (w : BitVec 32) : Except DecodeError Instr :=
  if w = 0x00000073#32 then .ok .ecall
  else if w = 0x00100073#32 then .ok .ebreak
  else if w = 0x10200073#32 then .ok .sret
  else if w = 0x30200073#32 then .ok .mret
  else if w = 0x10500073#32 then .ok .wfi
  else if w.extractLsb' 25 7 = 0b0001001#7 ∧ w.extractLsb' 7 5 = 0#5 then
    .ok (.sfenceVma (w.extractLsb' 15 5) (w.extractLsb' 20 5))
  else .error .illegalSystem

/-- The SYSTEM opcode by `funct3`, bits 14:12 (R125): `rd` is bits 11:7, the source bits 19:15, `csr` bits 31:20
(R123). -/
def decodeSystem (w : BitVec 32) : Except DecodeError Instr :=
  if w.extractLsb' 12 3 = 0b000#3 then decodePriv w
  else if w.extractLsb' 12 3 = 0b001#3 then .ok (.csrrw (w.extractLsb' 7 5) (w.extractLsb' 20 12) (w.extractLsb' 15 5))
  else if w.extractLsb' 12 3 = 0b010#3 then .ok (.csrrs (w.extractLsb' 7 5) (w.extractLsb' 20 12) (w.extractLsb' 15 5))
  else if w.extractLsb' 12 3 = 0b011#3 then .ok (.csrrc (w.extractLsb' 7 5) (w.extractLsb' 20 12) (w.extractLsb' 15 5))
  else if w.extractLsb' 12 3 = 0b101#3 then .ok (.csrrwi (w.extractLsb' 7 5) (w.extractLsb' 20 12) (w.extractLsb' 15 5))
  else if w.extractLsb' 12 3 = 0b110#3 then .ok (.csrrsi (w.extractLsb' 7 5) (w.extractLsb' 20 12) (w.extractLsb' 15 5))
  else if w.extractLsb' 12 3 = 0b111#3 then .ok (.csrrci (w.extractLsb' 7 5) (w.extractLsb' 20 12) (w.extractLsb' 15 5))
  else .error .illegalSystem

/-- A 32-bit instruction by its opcode, bits 6:0: SYSTEM is `1110011`, MISC-MEM `0001111` (R123, R125 to R127). -/
def decodeWord (w : BitVec 32) : Except DecodeError Instr :=
  if w.extractLsb' 0 7 = 0b1110011#7 then decodeSystem w
  else if w.extractLsb' 0 7 = 0b0001111#7 ∧ w.extractLsb' 12 3 = 0b000#3 then
    .ok (.fence (w.extractLsb' 28 4) (w.extractLsb' 24 4) (w.extractLsb' 20 4))
  else if w.extractLsb' 0 7 = 0b0001111#7 ∧ w.extractLsb' 12 3 = 0b001#3 then .ok .fenceI
  else .error .base32

/-- A 16-bit instruction (R128). -/
def decodeParcel (p : BitVec 16) : Except DecodeError Instr :=
  if p = 0x9002#16 then .ok .cEbreak
  else if p = 0x0000#16 then .error .zeroParcel
  else .error .base16

/-- The number of bytes of the instruction that begins with parcel `p`: 2, or 4, or none for a longer encoding
(R122). -/
def parcelLength (p : BitVec 16) : Option Nat :=
  if p.extractLsb' 0 2 ≠ 0b11#2 then some 2
  else if p.extractLsb' 2 3 ≠ 0b111#3 then some 4
  else none

/-- The instruction at the front of the bytes, lowest address first (R82, R122), with the bytes after it. -/
def decode : List Byte → Except DecodeError (Instr × List Byte)
  | b0 :: b1 :: rest =>
    let p : BitVec 16 := b1 ++ b0
    match parcelLength p with
    | none => .error .tooLong
    | some 2 =>
      match decodeParcel p with
      | .ok i => .ok (i, rest)
      | .error e => .error e
    | some _ =>
      match rest with
      | b2 :: b3 :: rest' =>
        match decodeWord (b3 ++ b2 ++ p) with
        | .ok i => .ok (i, rest')
        | .error e => .error e
      | _ => .error .truncated
  | _ => .error .truncated

/-- The instruction that the decoder reads from an instruction whose bits are `w`, numbered as the opcode table numbers
them: the first parcel's least significant bit is bit 0. Bits from `nbits` up are 0. -/
def decodeTableWord (nbits w : Nat) : Option Instr :=
  match decode (Machine.leBytes 4 (BitVec.ofNat 64 (w % 2 ^ nbits))) with
  | .ok (i, _) => some i
  | .error _ => none

/-- The I-type layout of the CSR instructions (R123, R125). -/
def encodeCsr (funct3 : BitVec 3) (rd : Reg) (csr : CsrAddr) (src : BitVec 5) : BitVec 32 :=
  csr ++ src ++ funct3 ++ rd ++ 0b1110011#7

/-- The bits of an instruction; C.EBREAK stands in bits 15:0 (R125 to R128). Ignored fields are zero, as assemblers
write them (log 26). -/
def encodeWord : Instr → BitVec 32
  | .csrrw rd csr rs1 => encodeCsr 0b001 rd csr rs1
  | .csrrs rd csr rs1 => encodeCsr 0b010 rd csr rs1
  | .csrrc rd csr rs1 => encodeCsr 0b011 rd csr rs1
  | .csrrwi rd csr uimm => encodeCsr 0b101 rd csr uimm
  | .csrrsi rd csr uimm => encodeCsr 0b110 rd csr uimm
  | .csrrci rd csr uimm => encodeCsr 0b111 rd csr uimm
  | .ecall => 0x00000073
  | .ebreak => 0x00100073
  | .cEbreak => 0x00009002
  | .mret => 0x30200073
  | .sret => 0x10200073
  | .wfi => 0x10500073
  | .sfenceVma rs1 rs2 => 0b0001001#7 ++ rs2 ++ rs1 ++ 0b000#3 ++ 0b00000#5 ++ 0b1110011#7
  | .fence fm pred succ => fm ++ pred ++ succ ++ 0b00000#5 ++ 0b000#3 ++ 0b00000#5 ++ 0b0001111#7
  | .fenceI => 0x0000100F

/-- `ilen` of R10: the length of an instruction in bytes. -/
def ilen : Instr → Nat
  | .csrrw _ _ _ => 4
  | .csrrs _ _ _ => 4
  | .csrrc _ _ _ => 4
  | .csrrwi _ _ _ => 4
  | .csrrsi _ _ _ => 4
  | .csrrci _ _ _ => 4
  | .ecall => 4
  | .ebreak => 4
  | .cEbreak => 2
  | .mret => 4
  | .sret => 4
  | .wfi => 4
  | .sfenceVma _ _ => 4
  | .fence _ _ _ => 4
  | .fenceI => 4

/-- An instruction's bytes, lowest address first. -/
def encode (i : Instr) : List Byte := Machine.leBytes (ilen i) ((encodeWord i).setWidth 64)

/-- The instruction bits that an illegal-instruction trap reports (R404): `instr[31:0]` or `instr[15:0]`,
zero-extended. -/
def instrBits (i : Instr) : Word := (encodeWord i).setWidth 64

end Sys2Proof
end

