-- ==== Sys2Proof/Machine/CsrWrite.lean ====
section
/-! DEFINITION. The write effect of every supported CSR (R172 and 41, 42, 43). -/

namespace Sys2Proof.Machine

/-- The mode whose number is given, if it is a legal one (R11). -/
def privOfCode (v : BitVec 2) : Option Priv :=
  if v = 0 then some .user else if v = 1 then some .supervisor else if v = 3 then some .machine else none

/-- `P_WARL_MPP` (R206): a legal number is stored; on 2 the parameter says which legal mode results (U1). -/
def warlMpp (w : WarlMpp) (old : Priv) (v : BitVec 2) : Priv :=
  match privOfCode v with
  | some p => p
  | none =>
    match old with
    | .user => w.onUser
    | .supervisor => w.onSupervisor
    | .machine => w.onMachine

/-- `P_WARL_TVEC_MODE` (R225): 0 and 1 are stored; on 2 and 3 the parameter says which (U2). -/
def warlTvecMode (w : WarlTvec) (old : Bool) (v : BitVec 2) : Bool :=
  if v = 0 then false
  else if v = 1 then true
  else if v = 2 then (if old then w.vectored2 else w.direct2)
  else (if old then w.vectored3 else w.direct3)

/-- The write effect on `VS` (R218): none unless the parameter makes it writable. -/
def writeVs (c : Config) (v : Word) (old : BitVec 2) : BitVec 2 :=
  if c.vsWritable then v.extractLsb' 9 2 else old

/-- The write effect of `mstatus` (R206). -/
def writeMstatus (v : Word) (s : State) : State :=
  { s with status :=
    { sie := v.getLsbD 1
      mie := v.getLsbD 3
      spie := v.getLsbD 5
      mpie := v.getLsbD 7
      spp := v.getLsbD 8
      mpp := warlMpp s.cfg.warlMpp s.status.mpp (v.extractLsb' 11 2)
      fs := v.extractLsb' 13 2
      vs := writeVs s.cfg v s.status.vs
      mprv := v.getLsbD 17
      sum := v.getLsbD 18
      mxr := v.getLsbD 19
      tvm := v.getLsbD 20
      tw := v.getLsbD 21
      tsr := v.getLsbD 22 } }

/-- The write effect of `sstatus` (R281). -/
def writeSstatus (v : Word) (s : State) : State :=
  { s with status := { s.status with
      sie := v.getLsbD 1
      spie := v.getLsbD 5
      spp := v.getLsbD 8
      fs := v.extractLsb' 13 2
      vs := writeVs s.cfg v s.status.vs
      sum := v.getLsbD 18
      mxr := v.getLsbD 19 } }

/-- The write effect of `mie` (R224). -/
def writeMie (v : Word) (s : State) : State :=
  { s with mie :=
    { ssie := v.getLsbD 1
      msie := v.getLsbD 3
      stie := v.getLsbD 5
      mtie := v.getLsbD 7
      seie := v.getLsbD 9
      meie := v.getLsbD 11 } }

/-- An S-level bit written through `sie` or `sip`: kept where the parameter hides it (R282). -/
def writeGated (s : State) (bit : Nat) (v : Word) (old : Bool) : Bool :=
  if (sieSipMask s).getLsbD bit then v.getLsbD bit else old

/-- The write effect of `sie` (R282). -/
def writeSie (v : Word) (s : State) : State :=
  { s with mie := { s.mie with
      ssie := writeGated s 1 v s.mie.ssie
      stie := writeGated s 5 v s.mie.stie
      seie := writeGated s 9 v s.mie.seie } }

/-- The write effect of `mip` (R232). -/
def writeMip (v : Word) (s : State) : State :=
  { s with pend := { s.pend with
      ssip := v.getLsbD 1
      stip := v.getLsbD 5
      seip := v.getLsbD 9 } }

/-- The write effect of `sip` (R292). -/
def writeSip (v : Word) (s : State) : State :=
  { s with pend := { s.pend with ssip := writeGated s 1 v s.pend.ssip } }

/-- The write effect of `mtvec` or `stvec` (R225, R283). -/
def writeTvec (c : Config) (v : Word) (t : Tvec) : Tvec :=
  { base := v.extractLsb' 2 62 &&& c.tvecBaseMask
    vectored := warlTvecMode c.warlTvec t.vectored (v.extractLsb' 0 2) }

/-- The write effect of `mcause` or `scause` (R27, R229, R289): the storage takes the value, and a read returns it only
if it is one of the causes the hardware can give the register (D15). -/
def writeCause (enc : CauseEncoding) (legal : List Cause) (v : Word) : CauseReg :=
  { value := v
    unspecified := !isCauseValue enc legal v }

/-- The write effect of `satp` (R300): `MODE` 0 and 8 are stored with the rest; another `MODE` applies
`P_SATP_WRITE_ILLEGAL_MODE`. -/
def writeSatp (v : Word) (s : State) : State :=
  let stored (m : SatpMode) : Satp := ⟨m, v.extractLsb' 44 16, v.extractLsb' 0 44 &&& s.cfg.satpPpnMask⟩
  { s with satp :=
      if v.extractLsb' 60 4 = 0#4 then stored .bare
      else if v.extractLsb' 60 4 = 8#4 then stored .sv39
      else
        match s.cfg.satpIllegalMode with
        | .ignoreWholeWrite => s.satp }

/-- `csr_write`: the write effect of a CSR. A hardwired register and a read-only address store nothing. -/
def csrWrite (c : Csr) (v : Word) (s : State) : State :=
  match c with
  | .mvendorid => s
  | .marchid => s
  | .mimpid => s
  | .mhartid => s
  | .mconfigptr => s
  | .mstatus => writeMstatus v s
  | .misa => s
  | .medeleg => { s with medeleg := v &&& s.cfg.medelegMask &&& ~~~(0x800 : Word) }
  | .mideleg => { s with mideleg := v &&& s.cfg.midelegMask }
  | .mie => writeMie v s
  | .mtvec => { s with mtvec := writeTvec s.cfg v s.mtvec }
  | .mcounteren => { s with mcounteren := v.setWidth 32 }
  | .menvcfg => { s with mFIOM := v.getLsbD 0 }
  | .mcountinhibit => { s with mcountinhibit := v.setWidth 32 &&& 0xFFFFFFFD }
  | .mhpmevent _ => s
  | .mscratch => { s with mTrap := { s.mTrap with scratch := v } }
  | .mepc => { s with mTrap := { s.mTrap with epc := pcHigh v } }
  | .mcause => { s with mTrap := { s.mTrap with cause := writeCause s.cfg.causeEncoding mCauses v } }
  | .mtval => { s with mTrap := { s.mTrap with tval := v } }
  | .mip => writeMip v s
  | .mcycle => { s with mcycle := v }
  | .minstret => { s with minstret := v }
  | .mhpmcounter i => { s with mhpmcounter := s.mhpmcounter.set i.val v i.isLt }
  | .sstatus => writeSstatus v s
  | .sie => writeSie v s
  | .stvec => { s with stvec := writeTvec s.cfg v s.stvec }
  | .scounteren => { s with scounteren := v.setWidth 32 }
  | .senvcfg => { s with sFIOM := v.getLsbD 0 }
  | .sscratch => { s with sTrap := { s.sTrap with scratch := v } }
  | .sepc => { s with sTrap := { s.sTrap with epc := pcHigh v } }
  | .scause => { s with sTrap := { s.sTrap with cause := writeCause s.cfg.causeEncoding sCauses v } }
  | .stval => { s with sTrap := { s.sTrap with tval := v } }
  | .sip => writeSip v s
  | .satp => writeSatp v s
  | .fflags => writeFflags v s
  | .frm => writeFrm v s
  | .fcsr => writeFcsr v s
  | .cycle => s
  | .time => s
  | .instret => s
  | .hpmcounter _ => s

end Sys2Proof.Machine
end

