-- ==== Sys2Proof/Machine/Operands.lean ====
section
/-! DEFINITION. The operand forms of the instructions in scope (R124, R127, R356) and the checks and values of a CSR
access (R160 to R165). -/

namespace Sys2Proof.Machine

/-- What a CSR instruction does with its source (R160). -/
inductive CsrOp where
  | write
  | set
  | clear
  deriving DecidableEq, Repr

/-- The immediate operand, zero-extended (R124). -/
def immOperand (uimm : BitVec 5) : Word := uimm.setWidth 64

/-- `does_write` (R164): a write always writes; a set or clear writes unless its source operand is `x0` or the
immediate 0. -/
def csrDoesWrite (op : CsrOp) (zeroOperand : Bool) : Bool := op == .write || !zeroOperand

/-- The counter-enable gate for counter bit `b` (R329). -/
def counterAllowed (b : Nat) (s : State) : Bool :=
  match s.priv with
  | .machine => true
  | .supervisor => s.mcounteren.getLsbD b
  | .user => s.mcounteren.getLsbD b && s.scounteren.getLsbD b

/-- The extra gates (R165): whether the access passes. -/
def csrGate (c : Csr) (s : State) : Bool :=
  match c with
  | .satp => !(s.priv == .supervisor && s.status.tvm)
  | .cycle => counterAllowed 0 s
  | .time => counterAllowed 1 s
  | .instret => counterAllowed 2 s
  | .hpmcounter i => counterAllowed (i.val + 3) s
  | .fflags => !(s.cfg.fsOffTraps && s.status.fs == 0#2)
  | .frm => !(s.cfg.fsOffTraps && s.status.fs == 0#2)
  | .fcsr => !(s.cfg.fsOffTraps && s.status.fs == 0#2)
  | _ => true

/-- The CSR that an access reaches, or none where it is illegal: existence (R161), privilege (R162), read-only (R163)
and the extra gates (R165). -/
def csrAccess (a : CsrAddr) (doesWrite : Bool) (s : State) : Option Csr :=
  match csrOfAddr a with
  | none => none
  | some c =>
    if csrLevel a ≤ privCode s.priv ∧ (doesWrite && csrReadOnly a) = false ∧ csrGate c s = true then some c else none

/-- The value written (R160, R173). -/
def csrNewValue (op : CsrOp) (c : Csr) (src : Word) (s : State) : Word :=
  match op with
  | .write => src
  | .set => csrRmwBase c s ||| src
  | .clear => csrRmwBase c s &&& ~~~src

/-- One of FENCE's sets after the widening by FIOM (R104): where `fiom` holds, I implies R and O implies W. -/
def widenFenceSet (fiom : Bool) (v : BitVec 4) : BitVec 4 := if fiom then v ||| (v >>> 2) else v

/-- Whether FIOM governs a FENCE in the current mode (R104). -/
def fiomActive (s : State) : Bool :=
  match s.priv with
  | .machine => false
  | .supervisor => s.mFIOM
  | .user => s.mFIOM || s.sFIOM

/-- The ordering a FENCE asks for (R104, R127): `fm = 1000` with both sets RW is FENCE.TSO, any other `fm` is an
ordinary fence. What `fm = 1000` does with other sets the rule does not say: an ordinary fence too (DESIGN CHOICE,
log 36). -/
def fenceOrder (fm pred succ : BitVec 4) (s : State) : FenceOrder :=
  { tso := fm == 0b1000#4 && pred == 0b0011#4 && succ == 0b0011#4
    pred := widenFenceSet (fiomActive s) pred
    succ := widenFenceSet (fiomActive s) succ }

/-- SFENCE.VMA's address operand: none for `x0`, which means all (R356). -/
def fenceVaddr (rs1 : Reg) (s : State) : Option Word := if rs1 = 0 then none else some (readX rs1 s)

/-- SFENCE.VMA's address-space operand: none for `x0`, which means all (R356). -/
def fenceAsid (rs2 : Reg) (s : State) : Option (BitVec 16) :=
  if rs2 = 0 then none else some ((readX rs2 s).extractLsb' 0 16)

end Sys2Proof.Machine
end

