-- ==== Sys2Proof/Machine/CsrInstr.lean ====
section
/-! DEFINITION. The six CSR instructions (R160 to R177). -/

namespace Sys2Proof.Machine

/-- `csr_instruction` (R160). The source is given already, read before `rd` is written. A CSR instruction that is
illegal changes nothing but by its trap (R175). A write of `minstret` suppresses the instruction's own count (R177). -/
def csrInstr (op : CsrOp) (rd : Reg) (a : CsrAddr) (src : Word) (zeroOperand : Bool) (bits : Word) (s : State) :
    Result :=
  match csrAccess a (csrDoesWrite op zeroOperand) s with
  | none => raiseIllegal bits s
  | some c =>
    let s' := if csrDoesWrite op zeroOperand then csrWrite c (csrNewValue op c src s) s else s
    .next (retire (csrDoesWrite op zeroOperand && c == .minstret) (advancePc 4 (writeX rd (csrRead c s) s')))

/-- CSRRW (R166). -/
def execCsrrw (rd : Reg) (csr : CsrAddr) (rs1 : Reg) (s : State) : Result :=
  csrInstr .write rd csr (readX rs1 s) false (instrBits (.csrrw rd csr rs1)) s

/-- CSRRS (R167). -/
def execCsrrs (rd : Reg) (csr : CsrAddr) (rs1 : Reg) (s : State) : Result :=
  csrInstr .set rd csr (readX rs1 s) (rs1 == 0) (instrBits (.csrrs rd csr rs1)) s

/-- CSRRC (R168). -/
def execCsrrc (rd : Reg) (csr : CsrAddr) (rs1 : Reg) (s : State) : Result :=
  csrInstr .clear rd csr (readX rs1 s) (rs1 == 0) (instrBits (.csrrc rd csr rs1)) s

/-- CSRRWI (R169). -/
def execCsrrwi (rd : Reg) (csr : CsrAddr) (uimm : BitVec 5) (s : State) : Result :=
  csrInstr .write rd csr (immOperand uimm) false (instrBits (.csrrwi rd csr uimm)) s

/-- CSRRSI (R170). -/
def execCsrrsi (rd : Reg) (csr : CsrAddr) (uimm : BitVec 5) (s : State) : Result :=
  csrInstr .set rd csr (immOperand uimm) (uimm == 0) (instrBits (.csrrsi rd csr uimm)) s

/-- CSRRCI (R171). -/
def execCsrrci (rd : Reg) (csr : CsrAddr) (uimm : BitVec 5) (s : State) : Result :=
  csrInstr .clear rd csr (immOperand uimm) (uimm == 0) (instrBits (.csrrci rd csr uimm)) s

end Sys2Proof.Machine
end

