-- ==== Sys2Proof/Machine/Fences.lean ====
section
/-! DEFINITION. The fences: SFENCE.VMA, FENCE, FENCE.I (R356 to R358). -/

namespace Sys2Proof.Machine

/-- SFENCE.VMA (R356): where legal it discards the matching cached translations. -/
def execSfenceVma (rs1 rs2 : Reg) (s : State) : Result :=
  if s.priv = .user ∨ (s.priv = .supervisor ∧ s.status.tvm = true) then
    raiseIllegal (instrBits (.sfenceVma rs1 rs2)) s
  else complete 4 (flushTlb (fenceVaddr rs1 s) (fenceAsid rs2 s) s)

/-- FENCE (R357): legal in every mode; it hands its ordering request to the memory system (R104) and changes nothing
else. -/
def execFence (fm pred succ : BitVec 4) (s : State) : Result :=
  complete 4 { s with fenceOut := some (fenceOrder fm pred succ s) }

/-- FENCE.I (R358): legal in every mode; later fetches see every earlier store (R105). -/
def execFenceI (s : State) : Result := complete 4 { s with staleCode := [] }

end Sys2Proof.Machine
end

