-- ==== Sys2Proof/Machine/System.lean ====
section
/-! DEFINITION. The system instructions: environment call, breakpoints, trap returns, wait for interrupt (R350 to
R355). -/

namespace Sys2Proof.Machine

/-- ECALL (R350): the environment-call exception of the current mode, trap value 0. -/
def execEcall (s : State) : Result := raise (ecallOf s.priv) 0 s

/-- EBREAK (R351): the breakpoint exception, whose trap value is the instruction's own address (D33). -/
def execEbreak (s : State) : Result := raise .breakpoint s.pc s

/-- C.EBREAK (R352): as EBREAK. -/
def execCEbreak (s : State) : Result := raise .breakpoint s.pc s

/-- MRET (R353). -/
def execMret (s : State) : Result :=
  if s.priv = .machine then .next (retire false (returnM s)) else raiseIllegal (instrBits .mret) s

/-- SRET (R354). -/
def execSret (s : State) : Result :=
  if s.priv = .user ∨ (s.priv = .supervisor ∧ s.status.tsr = true) then raiseIllegal (instrBits .sret) s
  else .next (retire false (returnS s))

/-- WFI (R355): where legal it retires and the hart waits; `step` ends the wait. -/
def execWfi (s : State) : Result :=
  if s.priv = .user ∨ (s.priv = .supervisor ∧ s.status.tw = true) then raiseIllegal (instrBits .wfi) s
  else complete 4 { s with wfiWaiting := true }

end Sys2Proof.Machine
end

