-- ==== Sys2Proof/Machine/Fetch.lean ====
section
/-! DEFINITION. Fetching an instruction's bytes (R82, R92, R95, R105, R122, R404, R405), and placing a program's
instruction where it is fetched. -/

namespace Sys2Proof.Machine

/-- The byte fetched at an address (R105, U13): the byte in memory, or what it held before one of the stores since the
last FENCE.I, as the input picks; a pick beyond those is the byte in memory. None is a byte without a value (log 7). -/
def codeByte (pick : Nat) (a : Word) (s : State) : Option Byte :=
  let now := memRead s.mem a.toNat
  (now :: (s.staleCode.filter fun c => c.1 == a.toNat).map Prod.snd).getD pick now

/-- The answer of a fetch of one parcel. -/
inductive Parcel where
  | ok (b0 b1 : Byte) (fill : Option TlbEntry)
  | trap (e : Exc)
  | stop (f : Fault)
  | refuse (r : Refusal)
  deriving DecidableEq, Repr

/-- Fetch the parcel at a virtual address; `n` is the number of its first byte in the instruction. Each parcel has its
own choices (R100). A fetch from a memory-mapped CSR is no admitted access (R85, log 19). -/
def fetchParcel (inp : Input) (va : Word) (n : Nat) (s : State) : Parcel :=
  match translateAccess (inp.fetchChoices.getD (n / 2) .plain) .fetch s.priv va s with
  | .pageFault => .trap .instrPageFault
  | .accessFault => .trap .instrAccessFault
  | .stop f => .stop f
  | .ok pa fill =>
    match mmAt s.cfg pa, mmAt s.cfg (pa + 1) with
    | none, none =>
      match codeByte (inp.codePick.getD n 0) pa s, codeByte (inp.codePick.getD (n + 1) 0) (pa + 1) s with
      | some b0, some b1 => .ok b0 b1 fill
      | _, _ => .stop .unwrittenMemory
    | _, _ => .refuse .mmcsrAccess

/-- The answer of a fetch: the instruction's 2 or 4 bytes; an encoding longer than 32 bits; an exception with its trap
value; or a stop of the model. -/
inductive Fetched where
  | bytes (bs : List Byte) (s : State)
  | tooLong (s : State)
  | trap (e : Exc) (tval : Word)
  | stop (f : Fault)
  | refuse (r : Refusal)
  deriving DecidableEq, Repr

/-- Fetch at `pc` (R122, R414). The trap value of a fetch fault is `pc`, also when the second parcel faults (D34); of a
hardware error it is 0 (R404). -/
def fetch (inp : Input) (s : State) : Fetched :=
  if inp.hardwareError then .trap .hardwareError 0
  else
    match fetchParcel inp s.pc 0 s with
    | .trap e => .trap e s.pc
    | .stop f => .stop f
    | .refuse r => .refuse r
    | .ok b0 b1 fill =>
      match parcelLength (b1 ++ b0) with
      | none => .tooLong (applyFill fill s)
      | some 2 => .bytes [b0, b1] (applyFill fill s)
      | some _ =>
        match fetchParcel inp (s.pc + 2) 2 s with
        | .trap e => .trap e s.pc
        | .stop f => .stop f
        | .refuse r => .refuse r
        | .ok b2 b3 fill' => .bytes [b0, b1, b2, b3] (applyFill fill' (applyFill fill s))

/-- Where a quiet fetch at a virtual address reads. -/
def fetchAddr (va : Word) (s : State) : Word :=
  match translateAccess .plain .fetch s.priv va s with
  | .ok pa _ => pa
  | .pageFault => va
  | .accessFault => va
  | .stop _ => va

/-- Place four bytes where the next instruction is fetched, with a quiet input so that nothing from outside comes
between (log 8). A hart that waits or is held fetches nothing, so it is made to run. -/
def placeWord (w : Word) (s : State) : State :=
  let p0 := fetchAddr s.pc s
  let p1 := fetchAddr (s.pc + 2) s
  let byte (n : Nat) : Byte := w.extractLsb' (8 * n) 8
  let m := memWrite (memWrite s.mem p0.toNat (byte 0)) (p0 + 1).toNat (byte 1)
  { s with
    mem := memWrite (memWrite m p1.toNat (byte 2)) (p1 + 1).toNat (byte 3)
    inputs := Input.quiet :: s.inputs
    wfiWaiting := false
    held := false }

end Sys2Proof.Machine
end

