-- ==== Sys2Proof/Machine/Execute.lean ====
section
/-! DEFINITION. Fetch, decode and execute: the part of a step after the boundary (R414). -/

namespace Sys2Proof.Machine

/-- Execute fetched bytes: an instruction of the table by `exec`; an encoding the rules make illegal by its exception
(R122, R128, R129); any other by `BaseStep` (R359). -/
def executeBytes (inp : Input) (bs : List Byte) (s : State) : Result :=
  match decode bs with
  | .ok (i, _) => exec i s
  | .error .zeroParcel => raiseIllegal (leValue bs) s
  | .error .illegalSystem => raiseIllegal (leValue bs) s
  | .error .tooLong => raiseIllegal (Config.freeLongTval s.tick) s
  | .error .base16 => baseStep inp 2 (leValue bs) s
  | .error .base32 => baseStep inp 4 (leValue bs) s
  | .error .truncated => raiseIllegal (leValue bs) s

/-- Fetch at the pc and execute (R414). A fetch fault comes before whatever the instruction would raise (R405). -/
def fetchExecute (inp : Input) (s : State) : Result :=
  match fetch inp s with
  | .bytes bs s' => executeBytes inp bs s'
  | .tooLong s' => raiseIllegal (Config.freeLongTval s'.tick) s'
  | .trap e tval => raise e tval s
  | .stop f => .fault f
  | .refuse r => .refused r

end Sys2Proof.Machine
end

