-- ==== Sys2Proof/Machine/Step.lean ====
section
/-! DEFINITION. One step of the machine (R414). -/

namespace Sys2Proof.Machine

/-- `step()` of R414: the boundary, then, unless the step is over, fetch and execute. -/
def step (s : State) : Host.Outcome State Fault Refusal :=
  match boundary s with
  | .ended s' => .next s'
  | .ready s' => fetchExecute (nextInput s) s'

/-- The state with an instruction stored where `step` fetches its next one (log 8): the bits above `nbits` are 0, up to
four bytes. -/
def State.withFetchWord (s : State) (nbits w : Nat) : State := placeWord (BitVec.ofNat 64 (w % 2 ^ nbits)) s

end Sys2Proof.Machine
end

