-- ==== Sys2Proof/WellFormed.lean ====
section
/-! DEFINITION. Which instructions and which parameters are well-formed. -/

namespace Sys2Proof

/-- Every term of `Instr` is well-formed: each operand has exactly the width of its field (R123, R127), and the
encodings admit every value of every field. Reserved `fm` values execute as an ordinary fence (R127). -/
def Instr.wellFormed : Instr → Bool
  | .csrrw _ _ _ => true
  | .csrrs _ _ _ => true
  | .csrrc _ _ _ => true
  | .csrrwi _ _ _ => true
  | .csrrsi _ _ _ => true
  | .csrrci _ _ _ => true
  | .ecall => true
  | .ebreak => true
  | .cEbreak => true
  | .mret => true
  | .sret => true
  | .wfi => true
  | .sfenceVma _ _ => true
  | .fence _ _ _ => true
  | .fenceI => true

/-- The reset vector is 2-byte aligned: `pc[0]` is always 0 (R23). -/
def Config.resetVectorAligned (c : Config) : Bool := c.resetVector.getLsbD 0 == false

/-- A memory-mapped CSR lies on an 8-byte boundary, so that its aligned accesses are the ones R85 names. -/
def Config.mmcsrAligned (c : Config) : Bool :=
  (c.mtimeAddr :: c.mtimecmpAddr.toList).all fun a => a.setWidth 3 == 0#3

/-- The memory-mapped CSRs have addresses of their own (R86). -/
def Config.mmcsrDistinct (c : Config) : Bool := decide (c.mtimeAddr :: c.mtimecmpAddr.toList).Nodup

/-- The parameters are well-formed. -/
def Config.wellFormed (c : Config) : Bool := c.resetVectorAligned && c.mmcsrAligned && c.mmcsrDistinct

end Sys2Proof
end

