-- ==== Sys2Proof/Safety.lean ====
section
/-! DEFINITION. The terms the claims are stated in: which CSR accesses are legal and which CSRs share storage, what a
sound state is, which states a reset may leave, and what each privilege level owns. -/

namespace Sys2Proof.Machine

/-! ### CSR accesses -/

/-- The addresses of R29, row by row, as inclusive ranges. -/
def supportedRanges : List (Nat × Nat) :=
  [(0xF11, 0xF11), (0xF12, 0xF12), (0xF13, 0xF13), (0xF14, 0xF14), (0xF15, 0xF15), (0x300, 0x300), (0x301, 0x301),
    (0x302, 0x302), (0x303, 0x303), (0x304, 0x304), (0x305, 0x305), (0x306, 0x306), (0x30A, 0x30A), (0x320, 0x320),
    (0x323, 0x33F), (0x340, 0x340), (0x341, 0x341), (0x342, 0x342), (0x343, 0x343), (0x344, 0x344), (0xB00, 0xB00),
    (0xB02, 0xB02), (0xB03, 0xB1F), (0x100, 0x100), (0x104, 0x104), (0x105, 0x105), (0x106, 0x106), (0x10A, 0x10A),
    (0x140, 0x140), (0x141, 0x141), (0x142, 0x142), (0x143, 0x143), (0x144, 0x144), (0x180, 0x180), (0x001, 0x001),
    (0x002, 0x002), (0x003, 0x003), (0xC00, 0xC00), (0xC01, 0xC01), (0xC02, 0xC02), (0xC03, 0xC1F)]

/-- A supported address (R29, R161). -/
def Supported (a : CsrAddr) : Prop := ∃ r ∈ supportedRanges, r.1 ≤ a.toNat ∧ a.toNat ≤ r.2

/-- Counter `b` may be read in the current mode (R329). -/
def CounterReadable (b : Nat) (s : State) : Prop :=
  s.priv = .machine ∨
    (s.priv = .supervisor ∧ s.mcounteren.getLsbD b = true) ∨
    (s.priv = .user ∧ s.mcounteren.getLsbD b = true ∧ s.scounteren.getLsbD b = true)

/-- A CSR instruction naming address `a` is legal (R161 to R163, R165); `writes` says that it attempts a write. -/
def Accessible (a : CsrAddr) (writes : Bool) (s : State) : Prop :=
  Supported a ∧
    (a.extractLsb' 8 2).toNat ≤ (privCode s.priv).toNat ∧
    (writes = true → a.extractLsb' 10 2 ≠ 3#2) ∧
    (a = 0x180#12 → s.priv = .supervisor → s.status.tvm = false) ∧
    (0xC00 ≤ a.toNat → a.toNat ≤ 0xC1F → CounterReadable (a.toNat - 0xC00) s) ∧
    (1 ≤ a.toNat → a.toNat ≤ 3 → s.cfg.fsOffTraps = true → s.status.fs ≠ 0#2)

/-- The six CSR instructions with the same operand fields. -/
def csrForms (rd : Reg) (a : CsrAddr) (src : BitVec 5) : List Instr :=
  [.csrrw rd a src, .csrrs rd a src, .csrrc rd a src, .csrrwi rd a src, .csrrsi rd a src, .csrrci rd a src]

/-- Whether an instruction attempts to write a CSR (R164). -/
def attemptsWrite : Instr → Bool
  | .csrrw _ _ _ => true
  | .csrrs _ _ rs1 => rs1 != 0#5
  | .csrrc _ _ rs1 => rs1 != 0#5
  | .csrrwi _ _ _ => true
  | .csrrsi _ _ uimm => uimm != 0#5
  | .csrrci _ _ uimm => uimm != 0#5
  | .ecall => false
  | .ebreak => false
  | .cEbreak => false
  | .mret => false
  | .sret => false
  | .wfi => false
  | .sfenceVma _ _ => false
  | .fence _ _ _ => false
  | .fenceI => false

/-- What a trap with an illegal instruction leaves (R129, R404, R430). -/
def illegalTrap (i : Instr) (s : State) : State := takeTrap (.exc .illegalInstr) (instrBits i) s

/-- `minstret` after an instruction that retires from a state (R441, R443). -/
def countedInstret (s : State) : Word := if countingEnabled 2 s then s.minstret + 1 else s.minstret

/-- The bits of an instruction word that its row of the opcode table does not ignore (R127). -/
def usedBits : Instr → BitVec 32
  | .fence _ _ _ => 0xFFF0707F
  | .fenceI => 0x0000707F
  | _ => 0xFFFFFFFF

/-- The rows of R125 and R126, as match and mask. -/
def systemRows : List (BitVec 32 × BitVec 32) :=
  [(0x00001073, 0x0000707F), (0x00002073, 0x0000707F), (0x00003073, 0x0000707F), (0x00005073, 0x0000707F),
    (0x00006073, 0x0000707F), (0x00007073, 0x0000707F), (0x00000073, 0xFFFFFFFF), (0x00100073, 0xFFFFFFFF),
    (0x10200073, 0xFFFFFFFF), (0x30200073, 0xFFFFFFFF), (0x10500073, 0xFFFFFFFF), (0x12000073, 0xFE007FFF)]

/-! ### Shared CSR storage -/

/-- The storage a CSR reads from (R32 to R45, R60). -/
inductive Storage where
  | constant
  | status | delegM | delegI | enables | pending | mtvec | stvec | mcounteren | scounteren | mFIOM | sFIOM | inhibit
  | mscratch | mepc | mcause | mtval | sscratch | sepc | scause | stval
  | mcycle | minstret | hpm (i : Fin 29) | satp | fpu | time
  deriving DecidableEq, Repr

/-- Where a read view comes from (R60); `sie` and `sip` also look at `mideleg` where the parameter hides bits (R282). -/
def readsFrom : Csr → List Storage
  | .mvendorid => [.constant]
  | .marchid => [.constant]
  | .mimpid => [.constant]
  | .mhartid => [.constant]
  | .mconfigptr => [.constant]
  | .mstatus => [.status]
  | .misa => [.constant]
  | .medeleg => [.delegM]
  | .mideleg => [.delegI]
  | .mie => [.enables]
  | .mtvec => [.mtvec]
  | .mcounteren => [.mcounteren]
  | .menvcfg => [.mFIOM]
  | .mcountinhibit => [.inhibit]
  | .mhpmevent _ => [.constant]
  | .mscratch => [.mscratch]
  | .mepc => [.mepc]
  | .mcause => [.mcause]
  | .mtval => [.mtval]
  | .mip => [.pending]
  | .mcycle => [.mcycle]
  | .minstret => [.minstret]
  | .mhpmcounter i => [.hpm i]
  | .sstatus => [.status]
  | .sie => [.enables, .delegI]
  | .stvec => [.stvec]
  | .scounteren => [.scounteren]
  | .senvcfg => [.sFIOM]
  | .sscratch => [.sscratch]
  | .sepc => [.sepc]
  | .scause => [.scause]
  | .stval => [.stval]
  | .sip => [.pending, .delegI]
  | .satp => [.satp]
  | .fflags => [.fpu]
  | .frm => [.fpu]
  | .fcsr => [.fpu]
  | .cycle => [.mcycle]
  | .time => [.time]
  | .instret => [.minstret]
  | .hpmcounter i => [.hpm i]

/-- What a write stores into: its register's storage, and `FS` for the floating-point CSRs (R323). -/
def writesTo : Csr → List Storage
  | .sie => [.enables]
  | .sip => [.pending]
  | .fflags => [.fpu, .status]
  | .frm => [.fpu, .status]
  | .fcsr => [.fpu, .status]
  | c => readsFrom c

/-- Two states hold the same in a piece of storage; `constant` stands for the parameters. -/
def SameStorage : Storage → State → State → Prop
  | .constant => fun s t => t.cfg = s.cfg
  | .status => fun s t => t.status = s.status
  | .delegM => fun s t => t.medeleg = s.medeleg
  | .delegI => fun s t => t.mideleg = s.mideleg
  | .enables => fun s t => t.mie = s.mie
  | .pending => fun s t => t.pend = s.pend
  | .mtvec => fun s t => t.mtvec = s.mtvec
  | .stvec => fun s t => t.stvec = s.stvec
  | .mcounteren => fun s t => t.mcounteren = s.mcounteren
  | .scounteren => fun s t => t.scounteren = s.scounteren
  | .mFIOM => fun s t => t.mFIOM = s.mFIOM
  | .sFIOM => fun s t => t.sFIOM = s.sFIOM
  | .inhibit => fun s t => t.mcountinhibit = s.mcountinhibit
  | .mscratch => fun s t => t.mTrap.scratch = s.mTrap.scratch
  | .mepc => fun s t => t.mTrap.epc = s.mTrap.epc
  | .mcause => fun s t => t.mTrap.cause = s.mTrap.cause
  | .mtval => fun s t => t.mTrap.tval = s.mTrap.tval
  | .sscratch => fun s t => t.sTrap.scratch = s.sTrap.scratch
  | .sepc => fun s t => t.sTrap.epc = s.sTrap.epc
  | .scause => fun s t => t.sTrap.cause = s.sTrap.cause
  | .stval => fun s t => t.sTrap.tval = s.sTrap.tval
  | .mcycle => fun s t => t.mcycle = s.mcycle
  | .minstret => fun s t => t.minstret = s.minstret
  | .hpm i => fun s t => t.mhpmcounter[i] = s.mhpmcounter[i]
  | .satp => fun s t => t.satp = s.satp
  | .fpu => fun s t => t.fflags = s.fflags ∧ t.frm = s.frm
  | .time => fun s t => t.mtime = s.mtime

/-! ### Interrupts -/

/-- Interrupt `i` is pending and enabled (R411). -/
def Ready (i : Irq) (s : State) : Prop :=
  (csrRead .mip s).getLsbD (irqCode i) = true ∧ (csrRead .mie s).getLsbD (irqCode i) = true

/-- Interrupt `i` is ready and destined for mode `p` (R411). -/
def ReadyFor (p : Priv) (i : Irq) (s : State) : Prop :=
  Ready i s ∧ (p = .machine ∧ s.mideleg.getLsbD (irqCode i) = false ∨
    p = .supervisor ∧ s.mideleg.getLsbD (irqCode i) = true)

/-- Interrupts into mode `p` are enabled (R411). -/
def EnabledFor (p : Priv) (s : State) : Prop :=
  (p = .machine ∧ (s.priv = .machine → s.status.mie = true)) ∨
    (p = .supervisor ∧ (s.priv = .user ∨ (s.priv = .supervisor ∧ s.status.sie = true)))

/-- The rank of an interrupt, 0 the highest: MEI, MSI, MTI, SEI, SSI, STI (R412). -/
def irqRank : Irq → Nat
  | .mei => 0
  | .msi => 1
  | .mti => 2
  | .sei => 3
  | .ssi => 4
  | .sti => 5

/-! ### Sound states -/

/-- The invariant of the machine: what the spec says of every state. -/
structure Sound (s : State) : Prop where
  /-- The parameters are well-formed. -/
  config : s.cfg.wellFormed = true
  /-- Memory is in canonical form. -/
  memory : s.mem.wf = true
  /-- `pc[0]` is always 0 (R23). -/
  pcEven : s.pc.getLsbD 0 = false
  /-- `MPRV` is 0 below M (R33, R209). -/
  mprvMachine : s.status.mprv = true → s.priv = .machine
  /-- `VS` is 0 unless it is writable (R33, R218). -/
  vsZero : s.cfg.vsWritable = false → s.status.vs = 0
  /-- Bits of `medeleg` outside the mask are 0 (R35). -/
  medelegMasked : s.medeleg &&& s.cfg.medelegMask = s.medeleg
  /-- Bit 11 of `medeleg` is 0 (R35, R222). -/
  medelegEcallM : s.medeleg.getLsbD 11 = false
  /-- Bits of `mideleg` outside the mask are 0 (R35). -/
  midelegMasked : s.mideleg &&& s.cfg.midelegMask = s.mideleg
  /-- Bit 1 of `mcountinhibit` is 0 (R42). -/
  inhibitTime : s.mcountinhibit.getLsbD 1 = false
  /-- Bits of the trap-vector bases outside the mask are 0 (R38). -/
  mtvecMasked : s.mtvec.base &&& s.cfg.tvecBaseMask = s.mtvec.base
  stvecMasked : s.stvec.base &&& s.cfg.tvecBaseMask = s.stvec.base
  /-- Bits of `satp.PPN` outside the mask are 0 (R43). -/
  satpMasked : s.satp.ppn &&& s.cfg.satpPpnMask = s.satp.ppn

/-- A state that a reset of the hart may leave (R481): some draw for every element the rule leaves unspecified. -/
def ResetState (s : State) : Prop := ∃ draw : Hart, s.toHart = Hart.afterReset s.cfg draw

/-! ### What each privilege level owns -/

/-- The CSR storage that only M-mode CSR accesses and traps into M-mode may change (R162, R281, R282, R292). -/
structure MachineOwned where
  medeleg : Word
  mideleg : Word
  mtvec : Tvec
  mcounteren : BitVec 32
  mcountinhibit : BitVec 32
  mTrap : TrapRegs
  mFIOM : Bool
  mcycle : Word
  mhpmcounter : Vector Word 29
  msie : Bool
  mtie : Bool
  meie : Bool
  stip : Bool
  seip : Bool
  mtip : Bool
  statusMie : Bool
  statusMpie : Bool
  statusMpp : Priv
  statusMprv : Bool
  statusTvm : Bool
  statusTw : Bool
  statusTsr : Bool

/-- What M-mode owns in a state. -/
def machineOwned (s : State) : MachineOwned where
  medeleg := s.medeleg
  mideleg := s.mideleg
  mtvec := s.mtvec
  mcounteren := s.mcounteren
  mcountinhibit := s.mcountinhibit
  mTrap := s.mTrap
  mFIOM := s.mFIOM
  mcycle := s.mcycle
  mhpmcounter := s.mhpmcounter
  msie := s.mie.msie
  mtie := s.mie.mtie
  meie := s.mie.meie
  stip := s.pend.stip
  seip := s.pend.seip
  mtip := s.pend.mtip
  statusMie := s.status.mie
  statusMpie := s.status.mpie
  statusMpp := s.status.mpp
  statusMprv := s.status.mprv
  statusTvm := s.status.tvm
  statusTw := s.status.tw
  statusTsr := s.status.tsr

/-- The CSR storage that no U-mode CSR access may change (R162): what S-mode shares with M-mode, less `FS`, which a
write of the floating-point CSRs marks Dirty (R323). -/
structure SupervisorOwned where
  stvec : Tvec
  scounteren : BitVec 32
  sTrap : TrapRegs
  sFIOM : Bool
  satp : Satp
  ssie : Bool
  stie : Bool
  seie : Bool
  ssip : Bool
  statusSie : Bool
  statusSpie : Bool
  statusSpp : Bool
  statusSum : Bool
  statusMxr : Bool

/-- What S-mode owns in a state. -/
def supervisorOwned (s : State) : SupervisorOwned where
  stvec := s.stvec
  scounteren := s.scounteren
  sTrap := s.sTrap
  sFIOM := s.sFIOM
  satp := s.satp
  ssie := s.mie.ssie
  stie := s.mie.stie
  seie := s.mie.seie
  ssip := s.pend.ssip
  statusSie := s.status.sie
  statusSpie := s.status.spie
  statusSpp := s.status.spp
  statusSum := s.status.sum
  statusMxr := s.status.mxr

end Sys2Proof.Machine
end

