-- ==== Sys2Proof/Certificates/Slice0/Obligations.lean ====
section
/-! DEFINITION. The statements for the provers, each from the rules its docstring names. -/

open Sys2Proof Sys2Proof.Machine

/-- O1. R122 to R128: no bit of an operand is lost between `encode` and `decode`, and the bytes after it are left
over. -/
def Obligations.DecodeEncodeAgree : Prop :=
  ∀ (i : Instr) (rest : List Byte), i.wellFormed = true → decode (encode i ++ rest) = .ok (i, rest)

/-- O2. R125 to R127: each word has one meaning; only the ignored fields of FENCE and FENCE.I are lost. -/
def Obligations.DecodeKeepsEveryBit : Prop :=
  ∀ (w : BitVec 32) (i : Instr), decodeWord w = .ok i → encodeWord i = w &&& usedBits i ∧ ilen i = 4

/-- O3. The example words of R166 to R171, R352, R356 and R357. -/
def Obligations.SpecWordsDecode : Prop :=
  decodeTableWord 32 0x340312F3 = some (.csrrw 5 0x340 6) ∧
    decodeTableWord 32 0x340022F3 = some (.csrrs 5 0x340 0) ∧
    decodeTableWord 32 0x3005B073 = some (.csrrc 0 0x300 11) ∧
    decodeTableWord 32 0x340AD073 = some (.csrrwi 0 0x340 21) ∧
    decodeTableWord 32 0x30046073 = some (.csrrsi 0 0x300 8) ∧
    decodeTableWord 32 0x14417073 = some (.csrrci 0 0x144 2) ∧
    decodeTableWord 32 0x12628073 = some (.sfenceVma 5 6) ∧
    decodeTableWord 32 0x0330000F = some (.fence 0 3 3) ∧
    decodeTableWord 16 0x9002 = some .cEbreak

/-- O4. R122, R128, R129. The trap value of a longer encoding is the model's free value (log 16), so the clause
holds for some value. -/
def Obligations.IllegalEncodingsTrap : Prop :=
  ∀ (inp : Input) (s : State),
    (∀ w : BitVec 32, w.extractLsb' 0 7 = 0b1110011#7 → (∀ r ∈ systemRows, w &&& r.2 ≠ r.1) →
      executeBytes inp (leBytes 4 (w.setWidth 64)) s = .next (takeTrap (.exc .illegalInstr) (w.setWidth 64) s)) ∧
    executeBytes inp [0, 0] s = .next (takeTrap (.exc .illegalInstr) 0 s) ∧
    (∀ (b0 b1 : Byte) (rest : List Byte), b0 &&& 0x1F = 0x1F →
      ∃ v, executeBytes inp (b0 :: b1 :: rest) s = .next (takeTrap (.exc .illegalInstr) v s)) ∧
    (∀ s', fetch inp s = .tooLong s' →
      ∃ v, fetchExecute inp s = .next (takeTrap (.exc .illegalInstr) v s'))

/-- O5. R25, R29: an address names at most one register, and only the rows of R29 name one. -/
def Obligations.CsrMap : Prop :=
  (∀ c : Csr, csrOfAddr (csrAddr c) = some c) ∧
    (∀ a : CsrAddr, (∃ c, csrOfAddr a = some c) ↔ Supported a) ∧
    (∀ (a : CsrAddr) (c : Csr), csrOfAddr a = some c → csrAddr c = a)

/-- O6. R161, R30: existence, and the vetoed addresses. -/
def Obligations.UnsupportedCsrsTrap : Prop :=
  (∃ l : List CsrAddr, l.Nodup ∧ l.length = 125 ∧ ∀ a, a ∈ l ↔ Supported a) ∧
    (∀ a : CsrAddr, csrVetoed a = true → ¬Supported a) ∧
    (∀ (rd : Reg) (a : CsrAddr) (src : BitVec 5) (i : Instr) (s : State), i ∈ csrForms rd a src → ¬Supported a →
      exec i s = .next (illegalTrap i s))

/-- O7. R160 to R165, R175: the four tests, and what an illegal access does. -/
def Obligations.CsrLegality : Prop :=
  ∀ (rd : Reg) (a : CsrAddr) (src : BitVec 5) (i : Instr) (s : State), i ∈ csrForms rd a src →
    (Accessible a (attemptsWrite i) s → ∃ t, exec i s = .next t ∧ t.pc = s.pc + 4 ∧ t.priv = s.priv) ∧
    (¬Accessible a (attemptsWrite i) s → exec i s = .next (illegalTrap i s))

/-- O8. R166, R160, R174, R177. The write effect of each CSR is stated on its own below. That counting looks at
`mcountinhibit` after the write is the model's reading (DEDUCED, log 18). -/
def Obligations.CsrrwResult : Prop :=
  ∀ (rd : Reg) (c : Csr) (rs1 : Reg) (s : State), Accessible (csrAddr c) true s →
    ∃ t, exec (.csrrw rd (csrAddr c) rs1) s = .next t ∧
      (∀ r, readX r t = if r = rd ∧ r ≠ 0#5 then csrRead c s else readX r s) ∧
      t = { csrWrite c (readX rs1 s) s with
        x := t.x
        pc := s.pc + 4
        minstret := if c = .minstret then readX rs1 s else countedInstret (csrWrite c (readX rs1 s) s) }

/-- O9. R167, R160, R174, R177. The write effect of each CSR is stated on its own below. That counting looks at
`mcountinhibit` after the write is the model's reading (DEDUCED, log 18). -/
def Obligations.CsrrsResult : Prop :=
  ∀ (rd : Reg) (c : Csr) (rs1 : Reg) (s u : State), Accessible (csrAddr c) (rs1 != 0#5) s →
    u = (if rs1 = 0#5 then s else csrWrite c (csrRmwBase c s ||| readX rs1 s) s) →
    ∃ t, exec (.csrrs rd (csrAddr c) rs1) s = .next t ∧
      (∀ r, readX r t = if r = rd ∧ r ≠ 0#5 then csrRead c s else readX r s) ∧
      t = { u with
        x := t.x
        pc := s.pc + 4
        minstret := if c = .minstret ∧ rs1 ≠ 0#5 then u.minstret else countedInstret u }

/-- O10. R168, R160, R174, R177. The write effect of each CSR is stated on its own below. That counting looks at
`mcountinhibit` after the write is the model's reading (DEDUCED, log 18). -/
def Obligations.CsrrcResult : Prop :=
  ∀ (rd : Reg) (c : Csr) (rs1 : Reg) (s u : State), Accessible (csrAddr c) (rs1 != 0#5) s →
    u = (if rs1 = 0#5 then s else csrWrite c (csrRmwBase c s &&& ~~~(readX rs1 s)) s) →
    ∃ t, exec (.csrrc rd (csrAddr c) rs1) s = .next t ∧
      (∀ r, readX r t = if r = rd ∧ r ≠ 0#5 then csrRead c s else readX r s) ∧
      t = { u with
        x := t.x
        pc := s.pc + 4
        minstret := if c = .minstret ∧ rs1 ≠ 0#5 then u.minstret else countedInstret u }

/-- O11. R169, R160, R174, R177. The write effect of each CSR is stated on its own below. That counting looks at
`mcountinhibit` after the write is the model's reading (DEDUCED, log 18). -/
def Obligations.CsrrwiResult : Prop :=
  ∀ (rd : Reg) (c : Csr) (uimm : BitVec 5) (s : State), Accessible (csrAddr c) true s →
    ∃ t, exec (.csrrwi rd (csrAddr c) uimm) s = .next t ∧
      (∀ r, readX r t = if r = rd ∧ r ≠ 0#5 then csrRead c s else readX r s) ∧
      t = { csrWrite c (immOperand uimm) s with
        x := t.x
        pc := s.pc + 4
        minstret := if c = .minstret then immOperand uimm else countedInstret (csrWrite c (immOperand uimm) s) }

/-- O12. R170, R160, R174, R177. The write effect of each CSR is stated on its own below. That counting looks at
`mcountinhibit` after the write is the model's reading (DEDUCED, log 18). -/
def Obligations.CsrrsiResult : Prop :=
  ∀ (rd : Reg) (c : Csr) (uimm : BitVec 5) (s u : State), Accessible (csrAddr c) (uimm != 0#5) s →
    u = (if uimm = 0#5 then s else csrWrite c (csrRmwBase c s ||| immOperand uimm) s) →
    ∃ t, exec (.csrrsi rd (csrAddr c) uimm) s = .next t ∧
      (∀ r, readX r t = if r = rd ∧ r ≠ 0#5 then csrRead c s else readX r s) ∧
      t = { u with
        x := t.x
        pc := s.pc + 4
        minstret := if c = .minstret ∧ uimm ≠ 0#5 then u.minstret else countedInstret u }

/-- O13. R171, R160, R174, R177. The write effect of each CSR is stated on its own below. That counting looks at
`mcountinhibit` after the write is the model's reading (DEDUCED, log 18). -/
def Obligations.CsrrciResult : Prop :=
  ∀ (rd : Reg) (c : Csr) (uimm : BitVec 5) (s u : State), Accessible (csrAddr c) (uimm != 0#5) s →
    u = (if uimm = 0#5 then s else csrWrite c (csrRmwBase c s &&& ~~~(immOperand uimm)) s) →
    ∃ t, exec (.csrrci rd (csrAddr c) uimm) s = .next t ∧
      (∀ r, readX r t = if r = rd ∧ r ≠ 0#5 then csrRead c s else readX r s) ∧
      t = { u with
        x := t.x
        pc := s.pc + 4
        minstret := if c = .minstret ∧ uimm ≠ 0#5 then u.minstret else countedInstret u }

/-- O14. R173: the PLIC's signal is not copied into the software-written bit. -/
def Obligations.RmwBase : Prop :=
  ∀ s : State,
    (∀ c : Csr, c ≠ .mip → c ≠ .sip → csrRmwBase c s = csrRead c s) ∧
    (∀ i : Nat, i ≠ 9 → (csrRmwBase .mip s).getLsbD i = (csrRead .mip s).getLsbD i ∧
      (csrRmwBase .sip s).getLsbD i = (csrRead .sip s).getLsbD i) ∧
    (csrRmwBase .mip s).getLsbD 9 = s.pend.seip ∧
    (csrRmwBase .sip s).getLsbD 9 = (s.pend.seip && (!s.cfg.sieSipGated || s.mideleg.getLsbD 9)) ∧
    (∀ rd rs1 : Reg, s.priv = .machine → (readX rs1 s).getLsbD 9 = false →
      ∃ t, exec (.csrrs rd 0x344 rs1) s = .next t ∧ t.pend.seip = s.pend.seip)

/-- O15. R302. That the test comes before any read or write is that the trap is all that happens. -/
def Obligations.SatpTvm : Prop :=
  ∀ (rd : Reg) (src : BitVec 5) (i : Instr) (s : State), i ∈ csrForms rd 0x180 src →
    (s.priv = .supervisor → s.status.tvm = true →
      exec i s = .next (illegalTrap i s) ∧ csrRead .satp (illegalTrap i s) = csrRead .satp s) ∧
    (s.priv = .machine → ∃ t, exec i s = .next t ∧ t.priv = .machine ∧ t.pc = s.pc + 4) ∧
    (s.priv = .user → exec i s = .next (illegalTrap i s))

/-- O16. R60, R61, R172: which CSRs share storage is `readsFrom` and `writesTo`. -/
def Obligations.CsrWriteFrame : Prop :=
  ∀ (c : Csr) (v : Word) (s : State),
    (∀ c' : Csr, (∀ x ∈ writesTo c, x ∉ readsFrom c') → csrRead c' (csrWrite c v s) = csrRead c' s) ∧
    (∀ r, readX r (csrWrite c v s) = readX r s ∧ readF r (csrWrite c v s) = readF r s) ∧
    (∀ a, memRead (csrWrite c v s).mem a = memRead s.mem a) ∧
    (csrWrite c v s).pc = s.pc ∧ (csrWrite c v s).priv = s.priv ∧
    (csrWrite c v s).mtime = s.mtime ∧ (csrWrite c v s).mtimecmp = s.mtimecmp ∧
    (csrWrite c v s).inMEIP = s.inMEIP ∧ (csrWrite c v s).inSEIP = s.inSEIP ∧ (csrWrite c v s).inMSIP = s.inMSIP ∧
    (csrWrite c v s).pend.mtip = s.pend.mtip ∧ (csrWrite c v s).wfiWaiting = s.wfiWaiting ∧
    (csrWrite c v s).tlb = s.tlb ∧ (csrWrite c v s).reservation = s.reservation ∧ (csrWrite c v s).cfg = s.cfg

/-- O17. R205, R216, R219, R220. -/
def Obligations.MstatusRead : Prop :=
  ∀ (s : State) (v : Word), v = csrRead .mstatus s →
    v.getLsbD 63 = (s.status.fs == 3#2 || s.status.vs == 3#2) ∧
    v.extractLsb' 38 25 = 0#25 ∧ v.extractLsb' 36 2 = 0#2 ∧ v.extractLsb' 34 2 = 2#2 ∧ v.extractLsb' 32 2 = 2#2 ∧
    v.extractLsb' 23 9 = 0#9 ∧ v.getLsbD 22 = s.status.tsr ∧ v.getLsbD 21 = s.status.tw ∧
    v.getLsbD 20 = s.status.tvm ∧ v.getLsbD 19 = s.status.mxr ∧ v.getLsbD 18 = s.status.sum ∧
    v.getLsbD 17 = s.status.mprv ∧ v.extractLsb' 15 2 = 0#2 ∧ v.extractLsb' 13 2 = s.status.fs ∧
    v.extractLsb' 11 2 = privCode s.status.mpp ∧ v.extractLsb' 9 2 = s.status.vs ∧ v.getLsbD 8 = s.status.spp ∧
    v.getLsbD 7 = s.status.mpie ∧ v.getLsbD 6 = false ∧ v.getLsbD 5 = s.status.spie ∧ v.getLsbD 4 = false ∧
    v.getLsbD 3 = s.status.mie ∧ v.getLsbD 2 = false ∧ v.getLsbD 1 = s.status.sie ∧ v.getLsbD 0 = false

/-- O18. R206, R205. -/
def Obligations.MstatusWrite : Prop :=
  ∀ (v : Word) (s t : State), t = csrWrite .mstatus v s →
    t = { s with status := t.status } ∧
    t.status.sie = v.getLsbD 1 ∧ t.status.mie = v.getLsbD 3 ∧ t.status.spie = v.getLsbD 5 ∧
    t.status.mpie = v.getLsbD 7 ∧ t.status.spp = v.getLsbD 8 ∧ t.status.fs = v.extractLsb' 13 2 ∧
    t.status.mprv = v.getLsbD 17 ∧ t.status.sum = v.getLsbD 18 ∧ t.status.mxr = v.getLsbD 19 ∧
    t.status.tvm = v.getLsbD 20 ∧ t.status.tw = v.getLsbD 21 ∧ t.status.tsr = v.getLsbD 22 ∧
    (v.extractLsb' 11 2 ≠ 2#2 → privCode t.status.mpp = v.extractLsb' 11 2) ∧
    t.status.vs = (if s.cfg.vsWritable then v.extractLsb' 9 2 else s.status.vs) ∧
    (s.cfg.vsWritable = false → s.status.vs = 0#2 → v.extractLsb' 11 2 ≠ 2#2 →
      csrRead .mstatus t &&& 0x7FFFFFFFFFFFFFFF = (v &&& 0x7E79AA) ||| 0xA00000000)

/-- O19. R280, R281. -/
def Obligations.SstatusWindow : Prop :=
  ∀ (v : Word) (s t : State), t = csrWrite .sstatus v s →
    csrRead .sstatus s = csrRead .mstatus s &&& 0x80000003000DE762 ∧
    t = { s with status := { s.status with
      sie := v.getLsbD 1
      spie := v.getLsbD 5
      spp := v.getLsbD 8
      fs := v.extractLsb' 13 2
      vs := if s.cfg.vsWritable then v.extractLsb' 9 2 else s.status.vs
      sum := v.getLsbD 18
      mxr := v.getLsbD 19 } } ∧
    (s.cfg.vsWritable = false → s.status.vs = 0#2 →
      csrRead .sstatus t &&& 0x7FFFFFFFFFFFFFFF = (v &&& 0xC6122) ||| 0x200000000 ∧
      csrRead .mstatus t &&& 0x7FFFFFFFFFFFFFFF =
        (csrRead .mstatus s &&& 0x7FFFFFFFFFF39EDD) ||| (v &&& 0xC6122))

/-- O20. R36, R224, R282. -/
def Obligations.EnableWindows : Prop :=
  ∀ (v m : Word) (s : State), m = (if s.cfg.sieSipGated then 0x222 &&& s.mideleg else 0x222) →
    csrRead .mie (csrWrite .mie v s) = v &&& 0xAAA ∧
    csrRead .mie s &&& 0xAAA = csrRead .mie s ∧
    csrRead .sie s = csrRead .mie s &&& m ∧
    csrRead .mie (csrWrite .sie v s) = (csrRead .mie s &&& ~~~m) ||| (v &&& m)

/-- O21. R37, R231 to R234, R291, R292. -/
def Obligations.PendingWindows : Prop :=
  ∀ (v m : Word) (s : State), m = (if s.cfg.sieSipGated then 0x222 &&& s.mideleg else 0x222) →
    ((csrRead .mip s).getLsbD 1 = s.pend.ssip ∧ (csrRead .mip s).getLsbD 3 = s.inMSIP ∧
      (csrRead .mip s).getLsbD 5 = s.pend.stip ∧ (csrRead .mip s).getLsbD 7 = s.pend.mtip ∧
      (csrRead .mip s).getLsbD 9 = (s.pend.seip || s.inSEIP) ∧ (csrRead .mip s).getLsbD 11 = s.inMEIP) ∧
    csrRead .mip s &&& 0xAAA = csrRead .mip s ∧
    csrWrite .mip v s = { s with pend :=
      ⟨v.getLsbD 1, v.getLsbD 5, v.getLsbD 9, s.pend.mtip⟩ } ∧
    csrRead .mip (csrWrite .mip v s) =
      (csrRead .mip s &&& 0x888) ||| (v &&& 0x222) ||| (if s.inSEIP then 0x200 else 0) ∧
    csrRead .sip s = csrRead .mip s &&& m ∧
    csrWrite .sip v s = { s with pend := { s.pend with
      ssip := if m.getLsbD 1 then v.getLsbD 1 else s.pend.ssip } }

/-- O22. R38, R225, R283. What modes 2 and 3 store is a parameter (log 33); bit 1 reads 0 all the same. -/
def Obligations.TrapVectorWrite : Prop :=
  ∀ (v : Word) (s : State),
    (csrRead .mtvec (csrWrite .mtvec v s)).extractLsb' 2 62 = v.extractLsb' 2 62 &&& s.cfg.tvecBaseMask ∧
    (csrRead .stvec (csrWrite .stvec v s)).extractLsb' 2 62 = v.extractLsb' 2 62 &&& s.cfg.tvecBaseMask ∧
    (csrRead .mtvec (csrWrite .mtvec v s)).getLsbD 1 = false ∧
    (csrRead .stvec (csrWrite .stvec v s)).getLsbD 1 = false ∧
    (v.getLsbD 1 = false → (csrRead .mtvec (csrWrite .mtvec v s)).getLsbD 0 = v.getLsbD 0 ∧
      (csrRead .stvec (csrWrite .stvec v s)).getLsbD 0 = v.getLsbD 0) ∧
    csrRead .stvec (csrWrite .mtvec v s) = csrRead .stvec s ∧
    csrRead .mtvec (csrWrite .stvec v s) = csrRead .mtvec s

/-- O23. R40, R227, R228, R230, R287, R288, R290. -/
def Obligations.TrapRegistersReadBack : Prop :=
  ∀ (v : Word) (s : State),
    csrRead .mscratch (csrWrite .mscratch v s) = v ∧ csrRead .sscratch (csrWrite .sscratch v s) = v ∧
    csrRead .mtval (csrWrite .mtval v s) = v ∧ csrRead .stval (csrWrite .stval v s) = v ∧
    csrRead .mepc (csrWrite .mepc v s) = v &&& 0xFFFFFFFFFFFFFFFE ∧
    csrRead .sepc (csrWrite .sepc v s) = v &&& 0xFFFFFFFFFFFFFFFE

/-- O24. R27, R229, R289. After any other software write the value read is a free value (log 6), of which nothing is
claimed. -/
def Obligations.CauseReadBack : Prop :=
  ∀ (s : State) (tval : Word),
    (∀ k : Cause, csrRead .mcause (csrWrite .mcause (causeValue s.cfg.causeEncoding k) s) =
      causeValue s.cfg.causeEncoding k) ∧
    (∀ k : Cause, k ≠ .exc .ecallM → k ≠ .irq .msi → k ≠ .irq .mti → k ≠ .irq .mei →
      csrRead .scause (csrWrite .scause (causeValue s.cfg.causeEncoding k) s) = causeValue s.cfg.causeEncoding k) ∧
    (∀ k : Cause, csrRead (if trapsToS k s then .scause else .mcause) (takeTrap k tval s) =
      causeValue s.cfg.causeEncoding k)

/-- O25. R35, R222, R223. -/
def Obligations.DelegationWrite : Prop :=
  ∀ (v : Word) (s : State),
    csrRead .medeleg (csrWrite .medeleg v s) = v &&& s.cfg.medelegMask &&& 0xFFFFFFFFFFFFF7FF ∧
    (csrRead .medeleg (csrWrite .medeleg v s)).getLsbD 11 = false ∧
    csrRead .mideleg (csrWrite .mideleg v s) = v &&& s.cfg.midelegMask

/-- O26. R39, R41, R42, R226, R237, R246, R284, R285. -/
def Obligations.CounterControlWrite : Prop :=
  ∀ (v : Word) (s : State),
    csrRead .mcounteren (csrWrite .mcounteren v s) = v &&& 0xFFFFFFFF ∧
    csrRead .scounteren (csrWrite .scounteren v s) = v &&& 0xFFFFFFFF ∧
    csrRead .mcountinhibit (csrWrite .mcountinhibit v s) = v &&& 0xFFFFFFFD ∧
    csrRead .menvcfg (csrWrite .menvcfg v s) = v &&& 1 ∧
    csrRead .senvcfg (csrWrite .senvcfg v s) = v &&& 1 ∧
    csrRead .scounteren (csrWrite .mcounteren v s) = csrRead .scounteren s ∧
    csrRead .mcounteren (csrWrite .scounteren v s) = csrRead .mcounteren s ∧
    csrRead .senvcfg (csrWrite .menvcfg v s) = csrRead .senvcfg s ∧
    csrRead .menvcfg (csrWrite .senvcfg v s) = csrRead .menvcfg s

/-- O27. R42, R242 to R244, R325 to R328. -/
def Obligations.CounterViews : Prop :=
  ∀ (v : Word) (s : State) (i j : Fin 29),
    csrRead .mcycle (csrWrite .mcycle v s) = v ∧ csrRead .cycle (csrWrite .mcycle v s) = v ∧
    csrRead .minstret (csrWrite .minstret v s) = v ∧ csrRead .instret (csrWrite .minstret v s) = v ∧
    csrRead (.mhpmcounter j) (csrWrite (.mhpmcounter i) v s) = (if i = j then v else csrRead (.mhpmcounter j) s) ∧
    csrRead (.hpmcounter j) s = csrRead (.mhpmcounter j) s ∧ csrRead .cycle s = csrRead .mcycle s ∧
    csrRead .instret s = csrRead .minstret s ∧ csrRead .time s = s.mtime

/-- O28. R43, R300, R301. That another MODE stores nothing is the default of the parameter
P_SATP_WRITE_ILLEGAL_MODE, the spec's own decision D16 and the one value the model's parameter has (DESIGN
CHOICE, log 33). -/
def Obligations.SatpWrite : Prop :=
  ∀ (v : Word) (s : State),
    (v.extractLsb' 60 4 = 0#4 ∨ v.extractLsb' 60 4 = 8#4 →
      csrRead .satp (csrWrite .satp v s) = v &&& (0xFFFFF#20 ++ s.cfg.satpPpnMask)) ∧
    (v.extractLsb' 60 4 ≠ 0#4 → v.extractLsb' 60 4 ≠ 8#4 → csrWrite .satp v s = s)

/-- O29. R44, R320 to R323. -/
def Obligations.FpuCsrs : Prop :=
  ∀ (v : Word) (s : State),
    csrRead .fflags s = csrRead .fcsr s &&& 0x1F ∧ csrRead .frm s = csrRead .fcsr s >>> 5 ∧
    csrRead .fcsr (csrWrite .fcsr v s) = v &&& 0xFF ∧
    csrRead .fcsr (csrWrite .fflags v s) = (csrRead .fcsr s &&& 0xE0) ||| (v &&& 0x1F) ∧
    csrRead .fcsr (csrWrite .frm v s) = (csrRead .fcsr s &&& 0x1F) ||| ((v &&& 7) <<< 5) ∧
    (∀ c ∈ [Csr.fflags, Csr.frm, Csr.fcsr],
      (csrWrite c v s).status = { s.status with fs := if s.cfg.fcsrDirtiesFs then 3 else s.status.fs })

/-- O30. R32, R34, R200 to R204, R221, R247. -/
def Obligations.ConstantCsrs : Prop :=
  ∀ (v : Word) (s : State) (i : Fin 29),
    csrRead .mvendorid s = 0 ∧ csrRead .marchid s = 0 ∧ csrRead .mimpid s = 0 ∧
    csrRead .mhartid s = BitVec.ofNat 64 s.cfg.hartid.val ∧ csrRead .mconfigptr s = s.cfg.mconfigptr ∧
    csrRead .misa s = 0x800000000014112D ∧ csrRead (.mhpmevent i) s = s.cfg.mhpmevent[i] ∧
    csrWrite .misa v s = s ∧ csrWrite (.mhpmevent i) v s = s

/-- O31. R430, with R402 for the cause value and R431 for the handler. -/
def Obligations.TrapEntry : Prop :=
  ∀ (c : Cause) (tval : Word) (s : State) (delegated : Bool),
    delegated = (match c with
      | .irq i => s.mideleg.getLsbD (irqCode i)
      | .exc e => s.medeleg.getLsbD (excCode e)) →
    (s.priv ≠ .machine → delegated = true →
      takeTrap c tval s = { s with
        sTrap := { s.sTrap with
          epc := s.pc.extractLsb' 1 63
          cause := ⟨causeValue s.cfg.causeEncoding c, false⟩
          tval := tval }
        status := { s.status with
          spie := s.status.sie
          sie := false
          spp := decide (s.priv = .supervisor) }
        priv := .supervisor
        pc := tvecTarget s.stvec c
        wfiWaiting := false }) ∧
    (s.priv = .machine ∨ delegated = false →
      takeTrap c tval s = { s with
        mTrap := { s.mTrap with
          epc := s.pc.extractLsb' 1 63
          cause := ⟨causeValue s.cfg.causeEncoding c, false⟩
          tval := tval }
        status := { s.status with
          mpie := s.status.mie
          mie := false
          mpp := s.priv }
        priv := .machine
        pc := tvecTarget s.mtvec c
        wfiWaiting := false })

/-- O32. R420 to R422. -/
def Obligations.TrapNeverLowersPrivilege : Prop :=
  ∀ (c : Cause) (tval : Word) (s : State),
    ((takeTrap c tval s).priv = .machine ∨ (takeTrap c tval s).priv = .supervisor) ∧
    (privCode s.priv).toNat ≤ (privCode (takeTrap c tval s).priv).toNat ∧
    ((takeTrap c tval s).priv = .supervisor ↔ s.priv ≠ .machine ∧
      (match c with
      | .irq i => s.mideleg.getLsbD (irqCode i)
      | .exc e => s.medeleg.getLsbD (excCode e)) = true) ∧
    (s.priv = .machine → (takeTrap c tval s).priv = .machine)

/-- O33. R400 to R402, R431. -/
def Obligations.CausesAndHandlers : Prop :=
  List.map excCode [.instrAccessFault, .illegalInstr, .breakpoint, .loadMisaligned, .loadAccessFault, .storeMisaligned,
      .storeAccessFault, .ecallU, .ecallS, .ecallM, .instrPageFault, .loadPageFault, .storePageFault, .hardwareError] =
        [1, 2, 3, 4, 5, 6, 7, 8, 9, 11, 12, 13, 15, 19] ∧
    List.map irqCode [.ssi, .msi, .sti, .mti, .sei, .mei] = [1, 3, 5, 7, 9, 11] ∧
    (∀ e : Exc, causeValue .binary (.exc e) = 0#1 ++ BitVec.ofNat 63 (excCode e) ∧
      (causeValue .onehot (.exc e)).getLsbD 63 = false ∧
      ∀ n < 63, (causeValue .onehot (.exc e)).getLsbD n = decide (n = excCode e)) ∧
    (∀ i : Irq, causeValue .binary (.irq i) = 1#1 ++ BitVec.ofNat 63 (irqCode i) ∧
      (causeValue .onehot (.irq i)).getLsbD 63 = true ∧
      ∀ n < 63, (causeValue .onehot (.irq i)).getLsbD n = decide (n = irqCode i)) ∧
    causeValue .binary (.irq .mti) = 0x8000000000000007 ∧ causeValue .binary (.exc .illegalInstr) = 2 ∧
    causeValue .binary (.exc .ecallM) = 11 ∧ causeValue .onehot (.irq .mti) = 0x8000000000000080 ∧
    causeValue .onehot (.exc .illegalInstr) = 4 ∧ causeValue .onehot (.exc .ecallM) = 0x800 ∧
    (∀ (t : Tvec) (e : Exc), tvecTarget t (.exc e) = t.base ++ 0#2) ∧
    (∀ (b : BitVec 62) (i : Irq), tvecTarget ⟨b, false⟩ (.irq i) = b ++ 0#2) ∧
    (∀ (b : BitVec 62) (i : Irq), tvecTarget ⟨b, true⟩ (.irq i) = (b ++ 0#2) + BitVec.ofNat 64 (4 * irqCode i))

/-- O34. R350. -/
def Obligations.EcallTraps : Prop :=
  ∀ s : State, ∃ t, exec .ecall s = .next t ∧
    (s.priv = .user → t = takeTrap (.exc .ecallU) 0 s) ∧
    (s.priv = .supervisor → t = takeTrap (.exc .ecallS) 0 s) ∧
    (s.priv = .machine → t = takeTrap (.exc .ecallM) 0 s ∧ t.priv = .machine) ∧
    excCode .ecallU = 8 ∧ excCode .ecallS = 9 ∧ excCode .ecallM = 11 ∧
    t.minstret = s.minstret ∧ ∀ a, memRead t.mem a = memRead s.mem a

/-- O35. R351, R352. The trap value is decision D33 of the spec. -/
def Obligations.EbreakTraps : Prop :=
  ∀ s : State, ∀ i ∈ [Instr.ebreak, Instr.cEbreak], ∃ t, exec i s = .next t ∧
    t = takeTrap (.exc .breakpoint) s.pc s ∧ excCode .breakpoint = 3 ∧
    t.minstret = s.minstret ∧ ∀ a, memRead t.mem a = memRead s.mem a

/-- O36. R353. -/
def Obligations.MretResult : Prop :=
  ∀ s : State,
    (s.priv = .machine →
      exec .mret s = .next { s with
        priv := s.status.mpp
        status := { s.status with
          mie := s.status.mpie
          mpie := true
          mpp := .user
          mprv := s.status.mprv && decide (s.status.mpp = .machine) }
        pc := csrRead .mepc s
        minstret := countedInstret s }) ∧
    (s.priv ≠ .machine → exec .mret s = .next (takeTrap (.exc .illegalInstr) 0x30200073 s))

/-- O37. R354, R215. -/
def Obligations.SretResult : Prop :=
  ∀ s : State,
    (s.priv = .machine ∨ (s.priv = .supervisor ∧ s.status.tsr = false) →
      exec .sret s = .next { s with
        priv := if s.status.spp then .supervisor else .user
        status := { s.status with
          sie := s.status.spie
          spie := true
          spp := false
          mprv := false }
        pc := csrRead .sepc s
        minstret := countedInstret s }) ∧
    (s.priv = .user ∨ (s.priv = .supervisor ∧ s.status.tsr = true) →
      exec .sret s = .next (takeTrap (.exc .illegalInstr) 0x10200073 s))

/-- O38. R434, R353, R354, R430. -/
def Obligations.ReturnUndoesTrap : Prop :=
  ∀ (c : Cause) (tval : Word) (s : State), s.pc.getLsbD 0 = false →
    ((takeTrap c tval s).priv = .machine →
      ∃ t, exec .mret (takeTrap c tval s) = .next t ∧ t.priv = s.priv ∧ t.pc = s.pc ∧
        t.status.mie = s.status.mie ∧ (∀ r, readX r t = readX r s) ∧ ∀ a, memRead t.mem a = memRead s.mem a) ∧
    ((takeTrap c tval s).priv = .supervisor → s.status.tsr = false →
      ∃ t, exec .sret (takeTrap c tval s) = .next t ∧ t.priv = s.priv ∧ t.pc = s.pc ∧
        t.status.sie = s.status.sie ∧ (∀ r, readX r t = readX r s) ∧ ∀ a, memRead t.mem a = memRead s.mem a)

/-- O39. R355, R214. -/
def Obligations.WfiResult : Prop :=
  ∀ s : State,
    (s.priv = .machine ∨ (s.priv = .supervisor ∧ s.status.tw = false) →
      exec .wfi s = .next { s with
        wfiWaiting := true
        pc := s.pc + 4
        minstret := countedInstret s }) ∧
    (s.priv = .user ∨ (s.priv = .supervisor ∧ s.status.tw = true) →
      exec .wfi s = .next (takeTrap (.exc .illegalInstr) 0x10500073 s))

/-- O40. R356, R108, R213. Which leaves a non-canonical address covers is the model's choice (log 35). -/
def Obligations.SfenceVmaResult : Prop :=
  ∀ (rs1 rs2 : Reg) (s : State),
    (s.priv = .machine ∨ (s.priv = .supervisor ∧ s.status.tvm = false) →
      ∃ t, exec (.sfenceVma rs1 rs2) s = .next t ∧
        t = { s with
          tlb := t.tlb
          pc := s.pc + 4
          minstret := countedInstret s } ∧
        ∀ e, e ∈ t.tlb ↔ e ∈ s.tlb ∧
          ¬((rs1 = 0#5 ∨ tlbCovers (readX rs1 s) e = true) ∧
            (rs2 = 0#5 ∨ (e.asid = (readX rs2 s).extractLsb' 0 16 ∧ e.pte.getLsbD 5 = false)))) ∧
    (s.priv = .user ∨ (s.priv = .supervisor ∧ s.status.tvm = true) →
      exec (.sfenceVma rs1 rs2) s = .next (illegalTrap (.sfenceVma rs1 rs2) s))

/-- O41. R357, R104, R127. That the request is kept in `fenceOut` is the model's own (log 14), as is that `fm =
1000` with other sets than RW is an ordinary fence (log 36). -/
def Obligations.FenceResult : Prop :=
  ∀ (fm pred succ : BitVec 4) (s : State), ∃ t o, exec (.fence fm pred succ) s = .next t ∧
    t = { s with
      fenceOut := some o
      pc := s.pc + 4
      minstret := countedInstret s } ∧
    (o.tso = true ↔ fm = 0b1000#4 ∧ pred = 0b0011#4 ∧ succ = 0b0011#4) ∧
    (∀ (v w : BitVec 4), (v = pred ∧ w = o.pred) ∨ (v = succ ∧ w = o.succ) →
      w.getLsbD 3 = v.getLsbD 3 ∧ w.getLsbD 2 = v.getLsbD 2 ∧
      ((s.priv = .supervisor ∧ s.mFIOM = true) ∨ (s.priv = .user ∧ (s.mFIOM = true ∨ s.sFIOM = true)) →
        w.getLsbD 1 = (v.getLsbD 1 || v.getLsbD 3) ∧ w.getLsbD 0 = (v.getLsbD 0 || v.getLsbD 2)) ∧
      (s.priv = .machine ∨ (s.priv = .supervisor ∧ s.mFIOM = false) ∨
          (s.priv = .user ∧ s.mFIOM = false ∧ s.sFIOM = false) → w = v))

/-- O42. R358, R105. -/
def Obligations.FenceIResult : Prop :=
  ∀ s : State, ∃ t, exec .fenceI s = .next t ∧
    t = { s with
      staleCode := t.staleCode
      pc := s.pc + 4
      minstret := countedInstret s } ∧
    ∀ (pick : Nat) (a : Word), codeByte pick a t = memRead s.mem a.toNat

/-- O43. R412, with the enables and groups of R411. -/
def Obligations.InterruptSelection : Prop :=
  ∀ (s : State) (p : Priv) (i : Irq),
    (selectInterrupt s = some (p, i) ↔
      EnabledFor p s ∧ ReadyFor p i s ∧ (∀ j, ReadyFor p j s → irqRank i ≤ irqRank j) ∧
        (p = .supervisor → ∀ j, ¬(EnabledFor .machine s ∧ ReadyFor .machine j s))) ∧
    (csrRead .mip s).getLsbD 13 = false ∧
    (List.map irqCode [.mei, .msi, .mti, .sei, .ssi, .sti] = [11, 3, 7, 9, 1, 5])

/-- O44. R413, R414, R404, R430. -/
def Obligations.InterruptTaken : Prop :=
  ∀ (s u : State), u = platformStep (nextInput s) (popInput s) → (nextInput s).reset = none → u.held = false →
    staysWaiting (nextInput s) u = false →
    (∀ p i, selectInterrupt u = some (p, i) →
      step s = .next (takeTrap (.irq i) 0 u) ∧ (takeTrap (.irq i) 0 u).priv = p) ∧
    (selectInterrupt u = none → step s = fetchExecute (nextInput s) { u with wfiWaiting := false })

/-- O45. R481, R411, R207. -/
def Obligations.NoInterruptWithMieClear : Prop :=
  ∀ s : State, (s.priv = .machine → s.status.mie = false → selectInterrupt s = none) ∧
    (ResetState s → selectInterrupt s = none)

/-- O46. R355. -/
def Obligations.WfiWakes : Prop :=
  ∀ (inp : Input) (s : State),
    (csrRead .mip s &&& csrRead .mie s ≠ 0 → staysWaiting inp s = false) ∧
    (inp.wake = true → staysWaiting inp s = false) ∧
    (inp.reset = none → staysWaiting inp s = true → hartBoundary inp s = .ended s)

/-- O47. R440, R442 to R444. -/
def Obligations.CountersAdvance : Prop :=
  ∀ (inp : Input) (s t : State), t = platformStep inp s →
    t.mcycle = (if countingEnabled 0 s then s.mcycle + BitVec.ofNat 64 inp.cycles else s.mcycle) ∧
    (∀ i : Fin 29, t.mhpmcounter[i] =
      if countingEnabled (i.val + 3) s then s.mhpmcounter[i] + BitVec.ofNat 64 inp.events[i]
      else s.mhpmcounter[i]) ∧
    t.minstret = s.minstret ∧
    ((∀ v, .writeMtime v ∉ inp.actions) → t.mtime = s.mtime + BitVec.ofNat 64 inp.mtimeDelta) ∧
    (∀ b, (s.cfg.countPolarity = .run → countingEnabled b s = s.mcountinhibit.getLsbD b) ∧
      (s.cfg.countPolarity = .inhibit → countingEnabled b s = !s.mcountinhibit.getLsbD b))

/-- O48. R445, R88, R85. -/
def Obligations.TimerRule : Prop :=
  ∀ s t : State,
    (∃ inp u, t = platformStep inp u ∧ s = advanceCounters inp (applyAgents inp.actions u)) ∨
      (∃ v, t = mmWrite .mtime v s) ∨ (∃ h v, t = mmWrite (.mtimecmp h) v s) →
    (ownCmp t < t.mtime → t.pend.mtip = true) ∧
    (t.mtime < ownCmp t → t.pend.mtip = false) ∧
    (t.mtime = ownCmp t →
      (t.cfg.mtipAtEqual = .hold → t.pend.mtip = s.pend.mtip) ∧
      (t.cfg.mtipAtEqual = .clear → t.pend.mtip = false) ∧
      (t.cfg.mtipAtEqual = .set → t.pend.mtip = true)) ∧
    (∀ old v : Word, mmMerge old v 4 0 = (old &&& 0xFFFFFFFF00000000) ||| (v &&& 0xFFFFFFFF) ∧
      mmMerge old v 4 4 = (old &&& 0xFFFFFFFF) ||| (v <<< 32) ∧ mmMerge old v 8 0 = v)

/-- O49. R80; the form is the model's own (log 7). -/
def Obligations.MemoryReadAfterWrite : Prop :=
  ∀ (m : Memory) (a : Word) (b : Byte), m.wf = true →
    (memWrite m a.toNat b).wf = true ∧ memRead (memWrite m a.toNat b) a.toNat = some b ∧
    ∀ k : Nat, k ≠ a.toNat → memRead (memWrite m a.toNat b) k = memRead m k

/-- O50. R160, R172, R430, R356 to R358. That traps and returns leave the reservation as it is is the model's choice
(DESIGN CHOICE, log 31; N14 of the spec: not said). -/
def Obligations.ExecFrame : Prop :=
  ∀ (i : Instr) (s : State), ∃ t, exec i s = .next t ∧
    (∀ a, memRead t.mem a = memRead s.mem a) ∧ (∀ r, readF r t = readF r s) ∧
    (∀ r, readX r t ≠ readX r s → ∃ a src, i ∈ csrForms r a src) ∧
    t.mtime = s.mtime ∧ t.mtimecmp = s.mtimecmp ∧ t.inMEIP = s.inMEIP ∧ t.inSEIP = s.inSEIP ∧
    t.inMSIP = s.inMSIP ∧ t.cfg = s.cfg ∧ t.pend.mtip = s.pend.mtip ∧ t.reservation = s.reservation ∧
    t.inputs = s.inputs ∧ t.tick = s.tick

/-- O51. R83. -/
def Obligations.MisalignedAccess : Prop :=
  ∀ (inp : Input) (len : Nat) (a : Access) (r : BaseRetire) (s : State),
    (a.vaddr.toNat % widthBytes a.width ≠ 0 →
      (a.op = .loadReserved → baseAccess inp len a r s = .next (takeTrap (.exc .loadMisaligned) a.vaddr s)) ∧
      (a.op = .storeConditional ∨ a.op = .amo →
        baseAccess inp len a r s = .next (takeTrap (.exc .storeMisaligned) a.vaddr s))) ∧
    (a.vaddr.toNat % widthBytes a.width = 0 ∨ a.op = .load ∨ a.op = .store → misalignedExc a = none) ∧
    excCode .loadMisaligned = 4 ∧ excCode .storeMisaligned = 6

/-- O52. R91 to R93, R210, R211. -/
def Obligations.AccessRules : Prop :=
  (∀ s : State, (s.priv = .machine → s.status.mprv = true → effPriv s = s.status.mpp) ∧
      (s.priv ≠ .machine ∨ s.status.mprv = false → effPriv s = s.priv)) ∧
    (∀ (p : Priv) (s : State), translationActive p s = true ↔ p ≠ .machine ∧ s.satp.mode = .sv39) ∧
    (∀ (kind : AccessKind) (p : Priv) (sum mxr : Bool) (pte : Word), p ≠ .machine →
      (leafPermits kind p sum mxr pte = true ↔
        (kind = .load → pte.getLsbD 1 = true ∨ (mxr = true ∧ pte.getLsbD 3 = true)) ∧
        (kind = .store → pte.getLsbD 2 = true) ∧ (kind = .fetch → pte.getLsbD 3 = true) ∧
        (p = .user → pte.getLsbD 4 = true) ∧
        (p = .supervisor → pte.getLsbD 4 = true → kind ≠ .fetch ∧ sum = true)))

/-- O53. R359, R320, R323, R83. What counts as a change of a floating-point register or of fcsr (a write of it) is
the model's reading (DEDUCED, log 15), as is that a byte nothing has written stops (log 7). -/
def Obligations.BaseStepContract : Prop :=
  ∀ (inp : Input) (len : Nat) (bits : Word) (s : State),
    (∀ r, inp.base = .retire r → ∃ t, baseStep inp len bits s = .next t ∧
      t = { s with
        x := t.x
        f := t.f
        pc := t.pc
        reservation := t.reservation
        fflags := s.fflags ||| r.flags
        status := { s.status with
          fs := if s.cfg.fcsrDirtiesFs = true ∧ r.dirtiesFs = true ∧ (r.fWrites ≠ [] ∨ r.flags ≠ 0) then 3
            else s.status.fs }
        minstret := countedInstret s }) ∧
    (∀ c addr, inp.base = .raise c addr → baseStep inp len bits s =
      .next (takeTrap (.exc (baseExc c)) (if c = .illegalInstr then bits else addr) s)) ∧
    (∀ a r t, inp.base = .access a r → baseStep inp len bits s = .next t →
      (∃ e v, t = takeTrap (.exc e) v s) ∨
      ∃ pas fills, accessPath inp a s = .ok pas fills ∧
        t = { s with
          x := t.x
          f := t.f
          pc := t.pc
          reservation := t.reservation
          fflags := s.fflags ||| r.flags
          status := { s.status with
            fs := if s.cfg.fcsrDirtiesFs = true ∧ r.dirtiesFs = true ∧ (r.fWrites ≠ [] ∨ r.flags ≠ 0) then 3
              else s.status.fs }
          minstret := countedInstret s
          tlb := t.tlb
          staleCode := t.staleCode
          mem := t.mem
          mtime := t.mtime
          mtimecmp := t.mtimecmp
          pend := { s.pend with mtip := t.pend.mtip } } ∧
        ((∀ pa ∈ pas, mmAt s.cfg pa = none) →
          t.mtime = s.mtime ∧ t.mtimecmp = s.mtimecmp ∧ t.pend = s.pend) ∧
        ∀ k : Nat, (accessWrites a.op = true → ∀ pa ∈ pas, pa.toNat ≠ k) →
          (accessAligned a = true ∨ ∀ l ∈ a.between, ∀ p ∈ l, p.1.toNat ≠ k) → memRead t.mem k = memRead s.mem k) ∧
    (∀ a r pas fills, inp.base = .access a r → misalignedExc a = none → accessPath inp a s = .ok pas fills →
      (∀ pa ∈ pas, mmAt s.cfg pa = none) →
      (accessReads a.op = true → ∀ pa ∈ pas, memRead s.mem pa.toNat ≠ none) →
      ∃ t, baseStep inp len bits s = .next t ∧ t.priv = s.priv ∧ t.minstret = countedInstret s)

/-- O54. R414. What a step adds around `exec` is the boundary (the outside acts, interrupts, waiting) and the leaf a
fetch caches. -/
def Obligations.StepRunsDecoded : Prop :=
  ∀ (s u v : State) (bs rest : List Byte) (i : Instr), boundary s = .ready u →
    fetch (nextInput s) u = .bytes bs v → decode bs = .ok (i, rest) →
    step s = exec i v ∧ v = { u with tlb := v.tlb }

/-- O55. R414, R82, R92, R122. -/
def Obligations.StepRunsMemoryBytes : Prop :=
  ∀ (s u : State) (i : Instr), boundary s = .ready u → u.priv = .machine →
    (nextInput s).hardwareError = false → (∀ c ∈ (nextInput s).fetchChoices, c.fault = none) →
    (nextInput s).codePick = [] →
    (∀ n, n < 4 → mmAt u.cfg (u.pc + BitVec.ofNat 64 n) = none) →
    memReadAll u.mem (addrRange u.pc (ilen i)) = some (encode i) →
    step s = exec i u

/-- O56. R23, R33, R35, R38, R42, R43, R209, R218. The canonical form of memory is the model's own (log 7). -/
def Obligations.StepKeepsSound : Prop :=
  ∀ s t : State, step s = .next t → t.cfg = s.cfg ∧ (Sound s → Sound t)

/-- O57. R481, R65. That `State.reset` draws zeros is the model's choice (log 4), that a reset while running is an
input is log 21; the second clause holds for every draw. -/
def Obligations.ResetIsSound : Prop :=
  Sound State.reset ∧ ResetState State.reset ∧
    (∀ s : State, ResetState s → s.cfg.wellFormed = true → s.mem.wf = true →
      Sound s ∧ s.priv = .machine ∧ s.status.mie = false ∧ s.status.mprv = false ∧ csrRead .mcause s = 0 ∧
        (∃ k ∈ sCauses, csrRead .scause s = causeValue s.cfg.causeEncoding k) ∧
        s.pc = s.cfg.resetVector ∧ s.wfiWaiting = false ∧ s.tlb = []) ∧
    (∀ (s : State) (draw : Hart), (nextInput s).reset = some draw →
      ∃ t, step s = .next t ∧ ResetState t ∧ t.cfg = s.cfg ∧ t.toHart = Hart.afterReset s.cfg draw)

/-- O58. R436, R24. -/
def Obligations.PrivilegeTransitions : Prop :=
  ∀ s t : State, step s = .next t → t.priv ≠ s.priv →
    ((nextInput s).reset ≠ none ∧ t.priv = .machine) ∨
    ((privCode s.priv).toNat < (privCode t.priv).toNat ∧ ∃ c v u, u.priv = s.priv ∧ t = takeTrap c v u) ∨
    ∃ u v bs rest, boundary s = .ready u ∧ fetch (nextInput s) u = .bytes bs v ∧ v.priv = s.priv ∧
      ((decode bs = .ok (.mret, rest) ∧ s.priv = .machine ∧ t.priv = v.status.mpp) ∨
        (decode bs = .ok (.sret, rest) ∧ s.priv ≠ .user ∧ t.priv = if v.status.spp then .supervisor else .user))

/-- O59. R162, R281, R282, R292, R420, R435. -/
def Obligations.MachineStateIsolated : Prop :=
  ∀ (i : Instr) (s t : State), Sound s → s.priv ≠ .machine → exec i s = .next t → t.priv ≠ .machine →
    machineOwned t = machineOwned s

/-- O60. R162, R435. FS is left out: a write of the floating-point CSRs marks it Dirty (R323). -/
def Obligations.SupervisorStateIsolated : Prop :=
  ∀ (i : Instr) (s t : State), s.priv = .user → exec i s = .next t → t.priv = .user →
    supervisorOwned t = supervisorOwned s ∧ machineOwned t = machineOwned s
end

