-- ==== Sys2Proof/Laws/State.lean ====
section
/-! SUPPORT. What each named update leaves unchanged, one lemma a field, and what it sets, so that no proof unfolds a
record update. -/

namespace Sys2Proof.Machine

/-! ### `advancePc` -/

@[simp] theorem advancePc_pc (len : Nat) (s : State) :
    (advancePc len s).pc = s.pc + BitVec.ofNat 64 len := rfl
@[simp] theorem advancePc_priv (len : Nat) (s : State) : (advancePc len s).priv = s.priv := rfl
@[simp] theorem advancePc_x (len : Nat) (s : State) : (advancePc len s).x = s.x := rfl
@[simp] theorem advancePc_f (len : Nat) (s : State) : (advancePc len s).f = s.f := rfl
@[simp] theorem advancePc_status (len : Nat) (s : State) : (advancePc len s).status = s.status := rfl
@[simp] theorem advancePc_medeleg (len : Nat) (s : State) : (advancePc len s).medeleg = s.medeleg := rfl
@[simp] theorem advancePc_mideleg (len : Nat) (s : State) : (advancePc len s).mideleg = s.mideleg := rfl
@[simp] theorem advancePc_mie (len : Nat) (s : State) : (advancePc len s).mie = s.mie := rfl
@[simp] theorem advancePc_pend (len : Nat) (s : State) : (advancePc len s).pend = s.pend := rfl
@[simp] theorem advancePc_mtvec (len : Nat) (s : State) : (advancePc len s).mtvec = s.mtvec := rfl
@[simp] theorem advancePc_stvec (len : Nat) (s : State) : (advancePc len s).stvec = s.stvec := rfl
@[simp] theorem advancePc_mcounteren (len : Nat) (s : State) : (advancePc len s).mcounteren = s.mcounteren := rfl
@[simp] theorem advancePc_scounteren (len : Nat) (s : State) : (advancePc len s).scounteren = s.scounteren := rfl
@[simp] theorem advancePc_mcountinhibit (len : Nat) (s : State) : (advancePc len s).mcountinhibit = s.mcountinhibit := rfl
@[simp] theorem advancePc_mTrap (len : Nat) (s : State) : (advancePc len s).mTrap = s.mTrap := rfl
@[simp] theorem advancePc_sTrap (len : Nat) (s : State) : (advancePc len s).sTrap = s.sTrap := rfl
@[simp] theorem advancePc_mFIOM (len : Nat) (s : State) : (advancePc len s).mFIOM = s.mFIOM := rfl
@[simp] theorem advancePc_sFIOM (len : Nat) (s : State) : (advancePc len s).sFIOM = s.sFIOM := rfl
@[simp] theorem advancePc_mcycle (len : Nat) (s : State) : (advancePc len s).mcycle = s.mcycle := rfl
@[simp] theorem advancePc_minstret (len : Nat) (s : State) : (advancePc len s).minstret = s.minstret := rfl
@[simp] theorem advancePc_mhpmcounter (len : Nat) (s : State) : (advancePc len s).mhpmcounter = s.mhpmcounter := rfl
@[simp] theorem advancePc_satp (len : Nat) (s : State) : (advancePc len s).satp = s.satp := rfl
@[simp] theorem advancePc_fflags (len : Nat) (s : State) : (advancePc len s).fflags = s.fflags := rfl
@[simp] theorem advancePc_frm (len : Nat) (s : State) : (advancePc len s).frm = s.frm := rfl
@[simp] theorem advancePc_wfiWaiting (len : Nat) (s : State) : (advancePc len s).wfiWaiting = s.wfiWaiting := rfl
@[simp] theorem advancePc_reservation (len : Nat) (s : State) : (advancePc len s).reservation = s.reservation := rfl
@[simp] theorem advancePc_tlb (len : Nat) (s : State) : (advancePc len s).tlb = s.tlb := rfl
@[simp] theorem advancePc_staleCode (len : Nat) (s : State) : (advancePc len s).staleCode = s.staleCode := rfl
@[simp] theorem advancePc_held (len : Nat) (s : State) : (advancePc len s).held = s.held := rfl
@[simp] theorem advancePc_cfg (len : Nat) (s : State) : (advancePc len s).cfg = s.cfg := rfl
@[simp] theorem advancePc_inMEIP (len : Nat) (s : State) : (advancePc len s).inMEIP = s.inMEIP := rfl
@[simp] theorem advancePc_inSEIP (len : Nat) (s : State) : (advancePc len s).inSEIP = s.inSEIP := rfl
@[simp] theorem advancePc_inMSIP (len : Nat) (s : State) : (advancePc len s).inMSIP = s.inMSIP := rfl
@[simp] theorem advancePc_mtime (len : Nat) (s : State) : (advancePc len s).mtime = s.mtime := rfl
@[simp] theorem advancePc_mtimecmp (len : Nat) (s : State) : (advancePc len s).mtimecmp = s.mtimecmp := rfl
@[simp] theorem advancePc_mem (len : Nat) (s : State) : (advancePc len s).mem = s.mem := rfl
@[simp] theorem advancePc_fenceOut (len : Nat) (s : State) : (advancePc len s).fenceOut = s.fenceOut := rfl
@[simp] theorem advancePc_inputs (len : Nat) (s : State) : (advancePc len s).inputs = s.inputs := rfl
@[simp] theorem advancePc_tick (len : Nat) (s : State) : (advancePc len s).tick = s.tick := rfl

/-! ### `writeF` -/

@[simp] theorem writeF_pc (r : Reg) (v : Word) (s : State) : (writeF r v s).pc = s.pc := rfl
@[simp] theorem writeF_priv (r : Reg) (v : Word) (s : State) : (writeF r v s).priv = s.priv := rfl
@[simp] theorem writeF_x (r : Reg) (v : Word) (s : State) : (writeF r v s).x = s.x := rfl
@[simp] theorem writeF_f (r : Reg) (v : Word) (s : State) :
    (writeF r v s).f = s.f.set r.toNat v r.isLt := rfl
@[simp] theorem writeF_status (r : Reg) (v : Word) (s : State) : (writeF r v s).status = s.status := rfl
@[simp] theorem writeF_medeleg (r : Reg) (v : Word) (s : State) : (writeF r v s).medeleg = s.medeleg := rfl
@[simp] theorem writeF_mideleg (r : Reg) (v : Word) (s : State) : (writeF r v s).mideleg = s.mideleg := rfl
@[simp] theorem writeF_mie (r : Reg) (v : Word) (s : State) : (writeF r v s).mie = s.mie := rfl
@[simp] theorem writeF_pend (r : Reg) (v : Word) (s : State) : (writeF r v s).pend = s.pend := rfl
@[simp] theorem writeF_mtvec (r : Reg) (v : Word) (s : State) : (writeF r v s).mtvec = s.mtvec := rfl
@[simp] theorem writeF_stvec (r : Reg) (v : Word) (s : State) : (writeF r v s).stvec = s.stvec := rfl
@[simp] theorem writeF_mcounteren (r : Reg) (v : Word) (s : State) : (writeF r v s).mcounteren = s.mcounteren := rfl
@[simp] theorem writeF_scounteren (r : Reg) (v : Word) (s : State) : (writeF r v s).scounteren = s.scounteren := rfl
@[simp] theorem writeF_mcountinhibit (r : Reg) (v : Word) (s : State) : (writeF r v s).mcountinhibit = s.mcountinhibit := rfl
@[simp] theorem writeF_mTrap (r : Reg) (v : Word) (s : State) : (writeF r v s).mTrap = s.mTrap := rfl
@[simp] theorem writeF_sTrap (r : Reg) (v : Word) (s : State) : (writeF r v s).sTrap = s.sTrap := rfl
@[simp] theorem writeF_mFIOM (r : Reg) (v : Word) (s : State) : (writeF r v s).mFIOM = s.mFIOM := rfl
@[simp] theorem writeF_sFIOM (r : Reg) (v : Word) (s : State) : (writeF r v s).sFIOM = s.sFIOM := rfl
@[simp] theorem writeF_mcycle (r : Reg) (v : Word) (s : State) : (writeF r v s).mcycle = s.mcycle := rfl
@[simp] theorem writeF_minstret (r : Reg) (v : Word) (s : State) : (writeF r v s).minstret = s.minstret := rfl
@[simp] theorem writeF_mhpmcounter (r : Reg) (v : Word) (s : State) : (writeF r v s).mhpmcounter = s.mhpmcounter := rfl
@[simp] theorem writeF_satp (r : Reg) (v : Word) (s : State) : (writeF r v s).satp = s.satp := rfl
@[simp] theorem writeF_fflags (r : Reg) (v : Word) (s : State) : (writeF r v s).fflags = s.fflags := rfl
@[simp] theorem writeF_frm (r : Reg) (v : Word) (s : State) : (writeF r v s).frm = s.frm := rfl
@[simp] theorem writeF_wfiWaiting (r : Reg) (v : Word) (s : State) : (writeF r v s).wfiWaiting = s.wfiWaiting := rfl
@[simp] theorem writeF_reservation (r : Reg) (v : Word) (s : State) : (writeF r v s).reservation = s.reservation := rfl
@[simp] theorem writeF_tlb (r : Reg) (v : Word) (s : State) : (writeF r v s).tlb = s.tlb := rfl
@[simp] theorem writeF_staleCode (r : Reg) (v : Word) (s : State) : (writeF r v s).staleCode = s.staleCode := rfl
@[simp] theorem writeF_held (r : Reg) (v : Word) (s : State) : (writeF r v s).held = s.held := rfl
@[simp] theorem writeF_cfg (r : Reg) (v : Word) (s : State) : (writeF r v s).cfg = s.cfg := rfl
@[simp] theorem writeF_inMEIP (r : Reg) (v : Word) (s : State) : (writeF r v s).inMEIP = s.inMEIP := rfl
@[simp] theorem writeF_inSEIP (r : Reg) (v : Word) (s : State) : (writeF r v s).inSEIP = s.inSEIP := rfl
@[simp] theorem writeF_inMSIP (r : Reg) (v : Word) (s : State) : (writeF r v s).inMSIP = s.inMSIP := rfl
@[simp] theorem writeF_mtime (r : Reg) (v : Word) (s : State) : (writeF r v s).mtime = s.mtime := rfl
@[simp] theorem writeF_mtimecmp (r : Reg) (v : Word) (s : State) : (writeF r v s).mtimecmp = s.mtimecmp := rfl
@[simp] theorem writeF_mem (r : Reg) (v : Word) (s : State) : (writeF r v s).mem = s.mem := rfl
@[simp] theorem writeF_fenceOut (r : Reg) (v : Word) (s : State) : (writeF r v s).fenceOut = s.fenceOut := rfl
@[simp] theorem writeF_inputs (r : Reg) (v : Word) (s : State) : (writeF r v s).inputs = s.inputs := rfl
@[simp] theorem writeF_tick (r : Reg) (v : Word) (s : State) : (writeF r v s).tick = s.tick := rfl

/-! ### `storeByte` -/

@[simp] theorem storeByte_pc (a : Word) (b : Byte) (s : State) : (storeByte a b s).pc = s.pc := rfl
@[simp] theorem storeByte_priv (a : Word) (b : Byte) (s : State) : (storeByte a b s).priv = s.priv := rfl
@[simp] theorem storeByte_x (a : Word) (b : Byte) (s : State) : (storeByte a b s).x = s.x := rfl
@[simp] theorem storeByte_f (a : Word) (b : Byte) (s : State) : (storeByte a b s).f = s.f := rfl
@[simp] theorem storeByte_status (a : Word) (b : Byte) (s : State) : (storeByte a b s).status = s.status := rfl
@[simp] theorem storeByte_medeleg (a : Word) (b : Byte) (s : State) : (storeByte a b s).medeleg = s.medeleg := rfl
@[simp] theorem storeByte_mideleg (a : Word) (b : Byte) (s : State) : (storeByte a b s).mideleg = s.mideleg := rfl
@[simp] theorem storeByte_mie (a : Word) (b : Byte) (s : State) : (storeByte a b s).mie = s.mie := rfl
@[simp] theorem storeByte_pend (a : Word) (b : Byte) (s : State) : (storeByte a b s).pend = s.pend := rfl
@[simp] theorem storeByte_mtvec (a : Word) (b : Byte) (s : State) : (storeByte a b s).mtvec = s.mtvec := rfl
@[simp] theorem storeByte_stvec (a : Word) (b : Byte) (s : State) : (storeByte a b s).stvec = s.stvec := rfl
@[simp] theorem storeByte_mcounteren (a : Word) (b : Byte) (s : State) : (storeByte a b s).mcounteren = s.mcounteren := rfl
@[simp] theorem storeByte_scounteren (a : Word) (b : Byte) (s : State) : (storeByte a b s).scounteren = s.scounteren := rfl
@[simp] theorem storeByte_mcountinhibit (a : Word) (b : Byte) (s : State) : (storeByte a b s).mcountinhibit = s.mcountinhibit := rfl
@[simp] theorem storeByte_mTrap (a : Word) (b : Byte) (s : State) : (storeByte a b s).mTrap = s.mTrap := rfl
@[simp] theorem storeByte_sTrap (a : Word) (b : Byte) (s : State) : (storeByte a b s).sTrap = s.sTrap := rfl
@[simp] theorem storeByte_mFIOM (a : Word) (b : Byte) (s : State) : (storeByte a b s).mFIOM = s.mFIOM := rfl
@[simp] theorem storeByte_sFIOM (a : Word) (b : Byte) (s : State) : (storeByte a b s).sFIOM = s.sFIOM := rfl
@[simp] theorem storeByte_mcycle (a : Word) (b : Byte) (s : State) : (storeByte a b s).mcycle = s.mcycle := rfl
@[simp] theorem storeByte_minstret (a : Word) (b : Byte) (s : State) : (storeByte a b s).minstret = s.minstret := rfl
@[simp] theorem storeByte_mhpmcounter (a : Word) (b : Byte) (s : State) : (storeByte a b s).mhpmcounter = s.mhpmcounter := rfl
@[simp] theorem storeByte_satp (a : Word) (b : Byte) (s : State) : (storeByte a b s).satp = s.satp := rfl
@[simp] theorem storeByte_fflags (a : Word) (b : Byte) (s : State) : (storeByte a b s).fflags = s.fflags := rfl
@[simp] theorem storeByte_frm (a : Word) (b : Byte) (s : State) : (storeByte a b s).frm = s.frm := rfl
@[simp] theorem storeByte_wfiWaiting (a : Word) (b : Byte) (s : State) : (storeByte a b s).wfiWaiting = s.wfiWaiting := rfl
@[simp] theorem storeByte_reservation (a : Word) (b : Byte) (s : State) : (storeByte a b s).reservation = s.reservation := rfl
@[simp] theorem storeByte_tlb (a : Word) (b : Byte) (s : State) : (storeByte a b s).tlb = s.tlb := rfl
@[simp] theorem storeByte_held (a : Word) (b : Byte) (s : State) : (storeByte a b s).held = s.held := rfl
@[simp] theorem storeByte_cfg (a : Word) (b : Byte) (s : State) : (storeByte a b s).cfg = s.cfg := rfl
@[simp] theorem storeByte_inMEIP (a : Word) (b : Byte) (s : State) : (storeByte a b s).inMEIP = s.inMEIP := rfl
@[simp] theorem storeByte_inSEIP (a : Word) (b : Byte) (s : State) : (storeByte a b s).inSEIP = s.inSEIP := rfl
@[simp] theorem storeByte_inMSIP (a : Word) (b : Byte) (s : State) : (storeByte a b s).inMSIP = s.inMSIP := rfl
@[simp] theorem storeByte_mtime (a : Word) (b : Byte) (s : State) : (storeByte a b s).mtime = s.mtime := rfl
@[simp] theorem storeByte_mtimecmp (a : Word) (b : Byte) (s : State) : (storeByte a b s).mtimecmp = s.mtimecmp := rfl
@[simp] theorem storeByte_mem (a : Word) (b : Byte) (s : State) :
    (storeByte a b s).mem = memWrite s.mem a.toNat b := rfl
@[simp] theorem storeByte_fenceOut (a : Word) (b : Byte) (s : State) : (storeByte a b s).fenceOut = s.fenceOut := rfl
@[simp] theorem storeByte_inputs (a : Word) (b : Byte) (s : State) : (storeByte a b s).inputs = s.inputs := rfl
@[simp] theorem storeByte_tick (a : Word) (b : Byte) (s : State) : (storeByte a b s).tick = s.tick := rfl

/-! ### `enterS` -/

@[simp] theorem enterS_pc (c : Cause) (tval : Word) (s : State) :
    (enterS c tval s).pc = tvecTarget s.stvec c := rfl
@[simp] theorem enterS_priv (c : Cause) (tval : Word) (s : State) :
    (enterS c tval s).priv = .supervisor := rfl
@[simp] theorem enterS_x (c : Cause) (tval : Word) (s : State) : (enterS c tval s).x = s.x := rfl
@[simp] theorem enterS_f (c : Cause) (tval : Word) (s : State) : (enterS c tval s).f = s.f := rfl
@[simp] theorem enterS_status (c : Cause) (tval : Word) (s : State) :
    (enterS c tval s).status = { s.status with spie := s.status.sie, sie := false, spp := s.priv == .supervisor } := rfl
@[simp] theorem enterS_medeleg (c : Cause) (tval : Word) (s : State) : (enterS c tval s).medeleg = s.medeleg := rfl
@[simp] theorem enterS_mideleg (c : Cause) (tval : Word) (s : State) : (enterS c tval s).mideleg = s.mideleg := rfl
@[simp] theorem enterS_mie (c : Cause) (tval : Word) (s : State) : (enterS c tval s).mie = s.mie := rfl
@[simp] theorem enterS_pend (c : Cause) (tval : Word) (s : State) : (enterS c tval s).pend = s.pend := rfl
@[simp] theorem enterS_mtvec (c : Cause) (tval : Word) (s : State) : (enterS c tval s).mtvec = s.mtvec := rfl
@[simp] theorem enterS_stvec (c : Cause) (tval : Word) (s : State) : (enterS c tval s).stvec = s.stvec := rfl
@[simp] theorem enterS_mcounteren (c : Cause) (tval : Word) (s : State) : (enterS c tval s).mcounteren = s.mcounteren := rfl
@[simp] theorem enterS_scounteren (c : Cause) (tval : Word) (s : State) : (enterS c tval s).scounteren = s.scounteren := rfl
@[simp] theorem enterS_mcountinhibit (c : Cause) (tval : Word) (s : State) : (enterS c tval s).mcountinhibit = s.mcountinhibit := rfl
@[simp] theorem enterS_mTrap (c : Cause) (tval : Word) (s : State) : (enterS c tval s).mTrap = s.mTrap := rfl
@[simp] theorem enterS_sTrap (c : Cause) (tval : Word) (s : State) :
    (enterS c tval s).sTrap = { s.sTrap with epc := pcHigh s.pc, cause := ⟨causeValue s.cfg.causeEncoding c, false⟩, tval := tval } := rfl
@[simp] theorem enterS_mFIOM (c : Cause) (tval : Word) (s : State) : (enterS c tval s).mFIOM = s.mFIOM := rfl
@[simp] theorem enterS_sFIOM (c : Cause) (tval : Word) (s : State) : (enterS c tval s).sFIOM = s.sFIOM := rfl
@[simp] theorem enterS_mcycle (c : Cause) (tval : Word) (s : State) : (enterS c tval s).mcycle = s.mcycle := rfl
@[simp] theorem enterS_minstret (c : Cause) (tval : Word) (s : State) : (enterS c tval s).minstret = s.minstret := rfl
@[simp] theorem enterS_mhpmcounter (c : Cause) (tval : Word) (s : State) : (enterS c tval s).mhpmcounter = s.mhpmcounter := rfl
@[simp] theorem enterS_satp (c : Cause) (tval : Word) (s : State) : (enterS c tval s).satp = s.satp := rfl
@[simp] theorem enterS_fflags (c : Cause) (tval : Word) (s : State) : (enterS c tval s).fflags = s.fflags := rfl
@[simp] theorem enterS_frm (c : Cause) (tval : Word) (s : State) : (enterS c tval s).frm = s.frm := rfl
@[simp] theorem enterS_wfiWaiting (c : Cause) (tval : Word) (s : State) :
    (enterS c tval s).wfiWaiting = false := rfl
@[simp] theorem enterS_reservation (c : Cause) (tval : Word) (s : State) : (enterS c tval s).reservation = s.reservation := rfl
@[simp] theorem enterS_tlb (c : Cause) (tval : Word) (s : State) : (enterS c tval s).tlb = s.tlb := rfl
@[simp] theorem enterS_staleCode (c : Cause) (tval : Word) (s : State) : (enterS c tval s).staleCode = s.staleCode := rfl
@[simp] theorem enterS_held (c : Cause) (tval : Word) (s : State) : (enterS c tval s).held = s.held := rfl
@[simp] theorem enterS_cfg (c : Cause) (tval : Word) (s : State) : (enterS c tval s).cfg = s.cfg := rfl
@[simp] theorem enterS_inMEIP (c : Cause) (tval : Word) (s : State) : (enterS c tval s).inMEIP = s.inMEIP := rfl
@[simp] theorem enterS_inSEIP (c : Cause) (tval : Word) (s : State) : (enterS c tval s).inSEIP = s.inSEIP := rfl
@[simp] theorem enterS_inMSIP (c : Cause) (tval : Word) (s : State) : (enterS c tval s).inMSIP = s.inMSIP := rfl
@[simp] theorem enterS_mtime (c : Cause) (tval : Word) (s : State) : (enterS c tval s).mtime = s.mtime := rfl
@[simp] theorem enterS_mtimecmp (c : Cause) (tval : Word) (s : State) : (enterS c tval s).mtimecmp = s.mtimecmp := rfl
@[simp] theorem enterS_mem (c : Cause) (tval : Word) (s : State) : (enterS c tval s).mem = s.mem := rfl
@[simp] theorem enterS_fenceOut (c : Cause) (tval : Word) (s : State) : (enterS c tval s).fenceOut = s.fenceOut := rfl
@[simp] theorem enterS_inputs (c : Cause) (tval : Word) (s : State) : (enterS c tval s).inputs = s.inputs := rfl
@[simp] theorem enterS_tick (c : Cause) (tval : Word) (s : State) : (enterS c tval s).tick = s.tick := rfl

/-! ### `enterM` -/

@[simp] theorem enterM_pc (c : Cause) (tval : Word) (s : State) :
    (enterM c tval s).pc = tvecTarget s.mtvec c := rfl
@[simp] theorem enterM_priv (c : Cause) (tval : Word) (s : State) :
    (enterM c tval s).priv = .machine := rfl
@[simp] theorem enterM_x (c : Cause) (tval : Word) (s : State) : (enterM c tval s).x = s.x := rfl
@[simp] theorem enterM_f (c : Cause) (tval : Word) (s : State) : (enterM c tval s).f = s.f := rfl
@[simp] theorem enterM_status (c : Cause) (tval : Word) (s : State) :
    (enterM c tval s).status = { s.status with mpie := s.status.mie, mie := false, mpp := s.priv } := rfl
@[simp] theorem enterM_medeleg (c : Cause) (tval : Word) (s : State) : (enterM c tval s).medeleg = s.medeleg := rfl
@[simp] theorem enterM_mideleg (c : Cause) (tval : Word) (s : State) : (enterM c tval s).mideleg = s.mideleg := rfl
@[simp] theorem enterM_mie (c : Cause) (tval : Word) (s : State) : (enterM c tval s).mie = s.mie := rfl
@[simp] theorem enterM_pend (c : Cause) (tval : Word) (s : State) : (enterM c tval s).pend = s.pend := rfl
@[simp] theorem enterM_mtvec (c : Cause) (tval : Word) (s : State) : (enterM c tval s).mtvec = s.mtvec := rfl
@[simp] theorem enterM_stvec (c : Cause) (tval : Word) (s : State) : (enterM c tval s).stvec = s.stvec := rfl
@[simp] theorem enterM_mcounteren (c : Cause) (tval : Word) (s : State) : (enterM c tval s).mcounteren = s.mcounteren := rfl
@[simp] theorem enterM_scounteren (c : Cause) (tval : Word) (s : State) : (enterM c tval s).scounteren = s.scounteren := rfl
@[simp] theorem enterM_mcountinhibit (c : Cause) (tval : Word) (s : State) : (enterM c tval s).mcountinhibit = s.mcountinhibit := rfl
@[simp] theorem enterM_mTrap (c : Cause) (tval : Word) (s : State) :
    (enterM c tval s).mTrap = { s.mTrap with epc := pcHigh s.pc, cause := ⟨causeValue s.cfg.causeEncoding c, false⟩, tval := tval } := rfl
@[simp] theorem enterM_sTrap (c : Cause) (tval : Word) (s : State) : (enterM c tval s).sTrap = s.sTrap := rfl
@[simp] theorem enterM_mFIOM (c : Cause) (tval : Word) (s : State) : (enterM c tval s).mFIOM = s.mFIOM := rfl
@[simp] theorem enterM_sFIOM (c : Cause) (tval : Word) (s : State) : (enterM c tval s).sFIOM = s.sFIOM := rfl
@[simp] theorem enterM_mcycle (c : Cause) (tval : Word) (s : State) : (enterM c tval s).mcycle = s.mcycle := rfl
@[simp] theorem enterM_minstret (c : Cause) (tval : Word) (s : State) : (enterM c tval s).minstret = s.minstret := rfl
@[simp] theorem enterM_mhpmcounter (c : Cause) (tval : Word) (s : State) : (enterM c tval s).mhpmcounter = s.mhpmcounter := rfl
@[simp] theorem enterM_satp (c : Cause) (tval : Word) (s : State) : (enterM c tval s).satp = s.satp := rfl
@[simp] theorem enterM_fflags (c : Cause) (tval : Word) (s : State) : (enterM c tval s).fflags = s.fflags := rfl
@[simp] theorem enterM_frm (c : Cause) (tval : Word) (s : State) : (enterM c tval s).frm = s.frm := rfl
@[simp] theorem enterM_wfiWaiting (c : Cause) (tval : Word) (s : State) :
    (enterM c tval s).wfiWaiting = false := rfl
@[simp] theorem enterM_reservation (c : Cause) (tval : Word) (s : State) : (enterM c tval s).reservation = s.reservation := rfl
@[simp] theorem enterM_tlb (c : Cause) (tval : Word) (s : State) : (enterM c tval s).tlb = s.tlb := rfl
@[simp] theorem enterM_staleCode (c : Cause) (tval : Word) (s : State) : (enterM c tval s).staleCode = s.staleCode := rfl
@[simp] theorem enterM_held (c : Cause) (tval : Word) (s : State) : (enterM c tval s).held = s.held := rfl
@[simp] theorem enterM_cfg (c : Cause) (tval : Word) (s : State) : (enterM c tval s).cfg = s.cfg := rfl
@[simp] theorem enterM_inMEIP (c : Cause) (tval : Word) (s : State) : (enterM c tval s).inMEIP = s.inMEIP := rfl
@[simp] theorem enterM_inSEIP (c : Cause) (tval : Word) (s : State) : (enterM c tval s).inSEIP = s.inSEIP := rfl
@[simp] theorem enterM_inMSIP (c : Cause) (tval : Word) (s : State) : (enterM c tval s).inMSIP = s.inMSIP := rfl
@[simp] theorem enterM_mtime (c : Cause) (tval : Word) (s : State) : (enterM c tval s).mtime = s.mtime := rfl
@[simp] theorem enterM_mtimecmp (c : Cause) (tval : Word) (s : State) : (enterM c tval s).mtimecmp = s.mtimecmp := rfl
@[simp] theorem enterM_mem (c : Cause) (tval : Word) (s : State) : (enterM c tval s).mem = s.mem := rfl
@[simp] theorem enterM_fenceOut (c : Cause) (tval : Word) (s : State) : (enterM c tval s).fenceOut = s.fenceOut := rfl
@[simp] theorem enterM_inputs (c : Cause) (tval : Word) (s : State) : (enterM c tval s).inputs = s.inputs := rfl
@[simp] theorem enterM_tick (c : Cause) (tval : Word) (s : State) : (enterM c tval s).tick = s.tick := rfl

/-! ### `returnM` -/

@[simp] theorem returnM_pc (s : State) :
    (returnM s).pc = pcOfHigh s.mTrap.epc := rfl
@[simp] theorem returnM_priv (s : State) :
    (returnM s).priv = s.status.mpp := rfl
@[simp] theorem returnM_x (s : State) : (returnM s).x = s.x := rfl
@[simp] theorem returnM_f (s : State) : (returnM s).f = s.f := rfl
@[simp] theorem returnM_status (s : State) :
    (returnM s).status = { s.status with mie := s.status.mpie, mpie := true, mpp := .user, mprv := if s.status.mpp = .machine then s.status.mprv else false } := rfl
@[simp] theorem returnM_medeleg (s : State) : (returnM s).medeleg = s.medeleg := rfl
@[simp] theorem returnM_mideleg (s : State) : (returnM s).mideleg = s.mideleg := rfl
@[simp] theorem returnM_mie (s : State) : (returnM s).mie = s.mie := rfl
@[simp] theorem returnM_pend (s : State) : (returnM s).pend = s.pend := rfl
@[simp] theorem returnM_mtvec (s : State) : (returnM s).mtvec = s.mtvec := rfl
@[simp] theorem returnM_stvec (s : State) : (returnM s).stvec = s.stvec := rfl
@[simp] theorem returnM_mcounteren (s : State) : (returnM s).mcounteren = s.mcounteren := rfl
@[simp] theorem returnM_scounteren (s : State) : (returnM s).scounteren = s.scounteren := rfl
@[simp] theorem returnM_mcountinhibit (s : State) : (returnM s).mcountinhibit = s.mcountinhibit := rfl
@[simp] theorem returnM_mTrap (s : State) : (returnM s).mTrap = s.mTrap := rfl
@[simp] theorem returnM_sTrap (s : State) : (returnM s).sTrap = s.sTrap := rfl
@[simp] theorem returnM_mFIOM (s : State) : (returnM s).mFIOM = s.mFIOM := rfl
@[simp] theorem returnM_sFIOM (s : State) : (returnM s).sFIOM = s.sFIOM := rfl
@[simp] theorem returnM_mcycle (s : State) : (returnM s).mcycle = s.mcycle := rfl
@[simp] theorem returnM_minstret (s : State) : (returnM s).minstret = s.minstret := rfl
@[simp] theorem returnM_mhpmcounter (s : State) : (returnM s).mhpmcounter = s.mhpmcounter := rfl
@[simp] theorem returnM_satp (s : State) : (returnM s).satp = s.satp := rfl
@[simp] theorem returnM_fflags (s : State) : (returnM s).fflags = s.fflags := rfl
@[simp] theorem returnM_frm (s : State) : (returnM s).frm = s.frm := rfl
@[simp] theorem returnM_wfiWaiting (s : State) : (returnM s).wfiWaiting = s.wfiWaiting := rfl
@[simp] theorem returnM_reservation (s : State) : (returnM s).reservation = s.reservation := rfl
@[simp] theorem returnM_tlb (s : State) : (returnM s).tlb = s.tlb := rfl
@[simp] theorem returnM_staleCode (s : State) : (returnM s).staleCode = s.staleCode := rfl
@[simp] theorem returnM_held (s : State) : (returnM s).held = s.held := rfl
@[simp] theorem returnM_cfg (s : State) : (returnM s).cfg = s.cfg := rfl
@[simp] theorem returnM_inMEIP (s : State) : (returnM s).inMEIP = s.inMEIP := rfl
@[simp] theorem returnM_inSEIP (s : State) : (returnM s).inSEIP = s.inSEIP := rfl
@[simp] theorem returnM_inMSIP (s : State) : (returnM s).inMSIP = s.inMSIP := rfl
@[simp] theorem returnM_mtime (s : State) : (returnM s).mtime = s.mtime := rfl
@[simp] theorem returnM_mtimecmp (s : State) : (returnM s).mtimecmp = s.mtimecmp := rfl
@[simp] theorem returnM_mem (s : State) : (returnM s).mem = s.mem := rfl
@[simp] theorem returnM_fenceOut (s : State) : (returnM s).fenceOut = s.fenceOut := rfl
@[simp] theorem returnM_inputs (s : State) : (returnM s).inputs = s.inputs := rfl
@[simp] theorem returnM_tick (s : State) : (returnM s).tick = s.tick := rfl

/-! ### `returnS` -/

@[simp] theorem returnS_pc (s : State) :
    (returnS s).pc = pcOfHigh s.sTrap.epc := rfl
@[simp] theorem returnS_priv (s : State) :
    (returnS s).priv = if s.status.spp then .supervisor else .user := rfl
@[simp] theorem returnS_x (s : State) : (returnS s).x = s.x := rfl
@[simp] theorem returnS_f (s : State) : (returnS s).f = s.f := rfl
@[simp] theorem returnS_status (s : State) :
    (returnS s).status = { s.status with sie := s.status.spie, spie := true, spp := false, mprv := false } := rfl
@[simp] theorem returnS_medeleg (s : State) : (returnS s).medeleg = s.medeleg := rfl
@[simp] theorem returnS_mideleg (s : State) : (returnS s).mideleg = s.mideleg := rfl
@[simp] theorem returnS_mie (s : State) : (returnS s).mie = s.mie := rfl
@[simp] theorem returnS_pend (s : State) : (returnS s).pend = s.pend := rfl
@[simp] theorem returnS_mtvec (s : State) : (returnS s).mtvec = s.mtvec := rfl
@[simp] theorem returnS_stvec (s : State) : (returnS s).stvec = s.stvec := rfl
@[simp] theorem returnS_mcounteren (s : State) : (returnS s).mcounteren = s.mcounteren := rfl
@[simp] theorem returnS_scounteren (s : State) : (returnS s).scounteren = s.scounteren := rfl
@[simp] theorem returnS_mcountinhibit (s : State) : (returnS s).mcountinhibit = s.mcountinhibit := rfl
@[simp] theorem returnS_mTrap (s : State) : (returnS s).mTrap = s.mTrap := rfl
@[simp] theorem returnS_sTrap (s : State) : (returnS s).sTrap = s.sTrap := rfl
@[simp] theorem returnS_mFIOM (s : State) : (returnS s).mFIOM = s.mFIOM := rfl
@[simp] theorem returnS_sFIOM (s : State) : (returnS s).sFIOM = s.sFIOM := rfl
@[simp] theorem returnS_mcycle (s : State) : (returnS s).mcycle = s.mcycle := rfl
@[simp] theorem returnS_minstret (s : State) : (returnS s).minstret = s.minstret := rfl
@[simp] theorem returnS_mhpmcounter (s : State) : (returnS s).mhpmcounter = s.mhpmcounter := rfl
@[simp] theorem returnS_satp (s : State) : (returnS s).satp = s.satp := rfl
@[simp] theorem returnS_fflags (s : State) : (returnS s).fflags = s.fflags := rfl
@[simp] theorem returnS_frm (s : State) : (returnS s).frm = s.frm := rfl
@[simp] theorem returnS_wfiWaiting (s : State) : (returnS s).wfiWaiting = s.wfiWaiting := rfl
@[simp] theorem returnS_reservation (s : State) : (returnS s).reservation = s.reservation := rfl
@[simp] theorem returnS_tlb (s : State) : (returnS s).tlb = s.tlb := rfl
@[simp] theorem returnS_staleCode (s : State) : (returnS s).staleCode = s.staleCode := rfl
@[simp] theorem returnS_held (s : State) : (returnS s).held = s.held := rfl
@[simp] theorem returnS_cfg (s : State) : (returnS s).cfg = s.cfg := rfl
@[simp] theorem returnS_inMEIP (s : State) : (returnS s).inMEIP = s.inMEIP := rfl
@[simp] theorem returnS_inSEIP (s : State) : (returnS s).inSEIP = s.inSEIP := rfl
@[simp] theorem returnS_inMSIP (s : State) : (returnS s).inMSIP = s.inMSIP := rfl
@[simp] theorem returnS_mtime (s : State) : (returnS s).mtime = s.mtime := rfl
@[simp] theorem returnS_mtimecmp (s : State) : (returnS s).mtimecmp = s.mtimecmp := rfl
@[simp] theorem returnS_mem (s : State) : (returnS s).mem = s.mem := rfl
@[simp] theorem returnS_fenceOut (s : State) : (returnS s).fenceOut = s.fenceOut := rfl
@[simp] theorem returnS_inputs (s : State) : (returnS s).inputs = s.inputs := rfl
@[simp] theorem returnS_tick (s : State) : (returnS s).tick = s.tick := rfl

/-! ### `accrueFlags` -/

@[simp] theorem accrueFlags_pc (v : BitVec 5) (s : State) : (accrueFlags v s).pc = s.pc := rfl
@[simp] theorem accrueFlags_priv (v : BitVec 5) (s : State) : (accrueFlags v s).priv = s.priv := rfl
@[simp] theorem accrueFlags_x (v : BitVec 5) (s : State) : (accrueFlags v s).x = s.x := rfl
@[simp] theorem accrueFlags_f (v : BitVec 5) (s : State) : (accrueFlags v s).f = s.f := rfl
@[simp] theorem accrueFlags_status (v : BitVec 5) (s : State) : (accrueFlags v s).status = s.status := rfl
@[simp] theorem accrueFlags_medeleg (v : BitVec 5) (s : State) : (accrueFlags v s).medeleg = s.medeleg := rfl
@[simp] theorem accrueFlags_mideleg (v : BitVec 5) (s : State) : (accrueFlags v s).mideleg = s.mideleg := rfl
@[simp] theorem accrueFlags_mie (v : BitVec 5) (s : State) : (accrueFlags v s).mie = s.mie := rfl
@[simp] theorem accrueFlags_pend (v : BitVec 5) (s : State) : (accrueFlags v s).pend = s.pend := rfl
@[simp] theorem accrueFlags_mtvec (v : BitVec 5) (s : State) : (accrueFlags v s).mtvec = s.mtvec := rfl
@[simp] theorem accrueFlags_stvec (v : BitVec 5) (s : State) : (accrueFlags v s).stvec = s.stvec := rfl
@[simp] theorem accrueFlags_mcounteren (v : BitVec 5) (s : State) : (accrueFlags v s).mcounteren = s.mcounteren := rfl
@[simp] theorem accrueFlags_scounteren (v : BitVec 5) (s : State) : (accrueFlags v s).scounteren = s.scounteren := rfl
@[simp] theorem accrueFlags_mcountinhibit (v : BitVec 5) (s : State) : (accrueFlags v s).mcountinhibit = s.mcountinhibit := rfl
@[simp] theorem accrueFlags_mTrap (v : BitVec 5) (s : State) : (accrueFlags v s).mTrap = s.mTrap := rfl
@[simp] theorem accrueFlags_sTrap (v : BitVec 5) (s : State) : (accrueFlags v s).sTrap = s.sTrap := rfl
@[simp] theorem accrueFlags_mFIOM (v : BitVec 5) (s : State) : (accrueFlags v s).mFIOM = s.mFIOM := rfl
@[simp] theorem accrueFlags_sFIOM (v : BitVec 5) (s : State) : (accrueFlags v s).sFIOM = s.sFIOM := rfl
@[simp] theorem accrueFlags_mcycle (v : BitVec 5) (s : State) : (accrueFlags v s).mcycle = s.mcycle := rfl
@[simp] theorem accrueFlags_minstret (v : BitVec 5) (s : State) : (accrueFlags v s).minstret = s.minstret := rfl
@[simp] theorem accrueFlags_mhpmcounter (v : BitVec 5) (s : State) : (accrueFlags v s).mhpmcounter = s.mhpmcounter := rfl
@[simp] theorem accrueFlags_satp (v : BitVec 5) (s : State) : (accrueFlags v s).satp = s.satp := rfl
@[simp] theorem accrueFlags_fflags (v : BitVec 5) (s : State) :
    (accrueFlags v s).fflags = s.fflags ||| v := rfl
@[simp] theorem accrueFlags_frm (v : BitVec 5) (s : State) : (accrueFlags v s).frm = s.frm := rfl
@[simp] theorem accrueFlags_wfiWaiting (v : BitVec 5) (s : State) : (accrueFlags v s).wfiWaiting = s.wfiWaiting := rfl
@[simp] theorem accrueFlags_reservation (v : BitVec 5) (s : State) : (accrueFlags v s).reservation = s.reservation := rfl
@[simp] theorem accrueFlags_tlb (v : BitVec 5) (s : State) : (accrueFlags v s).tlb = s.tlb := rfl
@[simp] theorem accrueFlags_staleCode (v : BitVec 5) (s : State) : (accrueFlags v s).staleCode = s.staleCode := rfl
@[simp] theorem accrueFlags_held (v : BitVec 5) (s : State) : (accrueFlags v s).held = s.held := rfl
@[simp] theorem accrueFlags_cfg (v : BitVec 5) (s : State) : (accrueFlags v s).cfg = s.cfg := rfl
@[simp] theorem accrueFlags_inMEIP (v : BitVec 5) (s : State) : (accrueFlags v s).inMEIP = s.inMEIP := rfl
@[simp] theorem accrueFlags_inSEIP (v : BitVec 5) (s : State) : (accrueFlags v s).inSEIP = s.inSEIP := rfl
@[simp] theorem accrueFlags_inMSIP (v : BitVec 5) (s : State) : (accrueFlags v s).inMSIP = s.inMSIP := rfl
@[simp] theorem accrueFlags_mtime (v : BitVec 5) (s : State) : (accrueFlags v s).mtime = s.mtime := rfl
@[simp] theorem accrueFlags_mtimecmp (v : BitVec 5) (s : State) : (accrueFlags v s).mtimecmp = s.mtimecmp := rfl
@[simp] theorem accrueFlags_mem (v : BitVec 5) (s : State) : (accrueFlags v s).mem = s.mem := rfl
@[simp] theorem accrueFlags_fenceOut (v : BitVec 5) (s : State) : (accrueFlags v s).fenceOut = s.fenceOut := rfl
@[simp] theorem accrueFlags_inputs (v : BitVec 5) (s : State) : (accrueFlags v s).inputs = s.inputs := rfl
@[simp] theorem accrueFlags_tick (v : BitVec 5) (s : State) : (accrueFlags v s).tick = s.tick := rfl

/-! ### `flushTlb` -/

@[simp] theorem flushTlb_pc (va : Option Word) (asid : Option (BitVec 16)) (s : State) : (flushTlb va asid s).pc = s.pc := rfl
@[simp] theorem flushTlb_priv (va : Option Word) (asid : Option (BitVec 16)) (s : State) : (flushTlb va asid s).priv = s.priv := rfl
@[simp] theorem flushTlb_x (va : Option Word) (asid : Option (BitVec 16)) (s : State) : (flushTlb va asid s).x = s.x := rfl
@[simp] theorem flushTlb_f (va : Option Word) (asid : Option (BitVec 16)) (s : State) : (flushTlb va asid s).f = s.f := rfl
@[simp] theorem flushTlb_status (va : Option Word) (asid : Option (BitVec 16)) (s : State) : (flushTlb va asid s).status = s.status := rfl
@[simp] theorem flushTlb_medeleg (va : Option Word) (asid : Option (BitVec 16)) (s : State) : (flushTlb va asid s).medeleg = s.medeleg := rfl
@[simp] theorem flushTlb_mideleg (va : Option Word) (asid : Option (BitVec 16)) (s : State) : (flushTlb va asid s).mideleg = s.mideleg := rfl
@[simp] theorem flushTlb_mie (va : Option Word) (asid : Option (BitVec 16)) (s : State) : (flushTlb va asid s).mie = s.mie := rfl
@[simp] theorem flushTlb_pend (va : Option Word) (asid : Option (BitVec 16)) (s : State) : (flushTlb va asid s).pend = s.pend := rfl
@[simp] theorem flushTlb_mtvec (va : Option Word) (asid : Option (BitVec 16)) (s : State) : (flushTlb va asid s).mtvec = s.mtvec := rfl
@[simp] theorem flushTlb_stvec (va : Option Word) (asid : Option (BitVec 16)) (s : State) : (flushTlb va asid s).stvec = s.stvec := rfl
@[simp] theorem flushTlb_mcounteren (va : Option Word) (asid : Option (BitVec 16)) (s : State) : (flushTlb va asid s).mcounteren = s.mcounteren := rfl
@[simp] theorem flushTlb_scounteren (va : Option Word) (asid : Option (BitVec 16)) (s : State) : (flushTlb va asid s).scounteren = s.scounteren := rfl
@[simp] theorem flushTlb_mcountinhibit (va : Option Word) (asid : Option (BitVec 16)) (s : State) : (flushTlb va asid s).mcountinhibit = s.mcountinhibit := rfl
@[simp] theorem flushTlb_mTrap (va : Option Word) (asid : Option (BitVec 16)) (s : State) : (flushTlb va asid s).mTrap = s.mTrap := rfl
@[simp] theorem flushTlb_sTrap (va : Option Word) (asid : Option (BitVec 16)) (s : State) : (flushTlb va asid s).sTrap = s.sTrap := rfl
@[simp] theorem flushTlb_mFIOM (va : Option Word) (asid : Option (BitVec 16)) (s : State) : (flushTlb va asid s).mFIOM = s.mFIOM := rfl
@[simp] theorem flushTlb_sFIOM (va : Option Word) (asid : Option (BitVec 16)) (s : State) : (flushTlb va asid s).sFIOM = s.sFIOM := rfl
@[simp] theorem flushTlb_mcycle (va : Option Word) (asid : Option (BitVec 16)) (s : State) : (flushTlb va asid s).mcycle = s.mcycle := rfl
@[simp] theorem flushTlb_minstret (va : Option Word) (asid : Option (BitVec 16)) (s : State) : (flushTlb va asid s).minstret = s.minstret := rfl
@[simp] theorem flushTlb_mhpmcounter (va : Option Word) (asid : Option (BitVec 16)) (s : State) : (flushTlb va asid s).mhpmcounter = s.mhpmcounter := rfl
@[simp] theorem flushTlb_satp (va : Option Word) (asid : Option (BitVec 16)) (s : State) : (flushTlb va asid s).satp = s.satp := rfl
@[simp] theorem flushTlb_fflags (va : Option Word) (asid : Option (BitVec 16)) (s : State) : (flushTlb va asid s).fflags = s.fflags := rfl
@[simp] theorem flushTlb_frm (va : Option Word) (asid : Option (BitVec 16)) (s : State) : (flushTlb va asid s).frm = s.frm := rfl
@[simp] theorem flushTlb_wfiWaiting (va : Option Word) (asid : Option (BitVec 16)) (s : State) : (flushTlb va asid s).wfiWaiting = s.wfiWaiting := rfl
@[simp] theorem flushTlb_reservation (va : Option Word) (asid : Option (BitVec 16)) (s : State) : (flushTlb va asid s).reservation = s.reservation := rfl
@[simp] theorem flushTlb_tlb (va : Option Word) (asid : Option (BitVec 16)) (s : State) :
    (flushTlb va asid s).tlb = s.tlb.filter fun e => !tlbFlushed va asid e := rfl
@[simp] theorem flushTlb_staleCode (va : Option Word) (asid : Option (BitVec 16)) (s : State) : (flushTlb va asid s).staleCode = s.staleCode := rfl
@[simp] theorem flushTlb_held (va : Option Word) (asid : Option (BitVec 16)) (s : State) : (flushTlb va asid s).held = s.held := rfl
@[simp] theorem flushTlb_cfg (va : Option Word) (asid : Option (BitVec 16)) (s : State) : (flushTlb va asid s).cfg = s.cfg := rfl
@[simp] theorem flushTlb_inMEIP (va : Option Word) (asid : Option (BitVec 16)) (s : State) : (flushTlb va asid s).inMEIP = s.inMEIP := rfl
@[simp] theorem flushTlb_inSEIP (va : Option Word) (asid : Option (BitVec 16)) (s : State) : (flushTlb va asid s).inSEIP = s.inSEIP := rfl
@[simp] theorem flushTlb_inMSIP (va : Option Word) (asid : Option (BitVec 16)) (s : State) : (flushTlb va asid s).inMSIP = s.inMSIP := rfl
@[simp] theorem flushTlb_mtime (va : Option Word) (asid : Option (BitVec 16)) (s : State) : (flushTlb va asid s).mtime = s.mtime := rfl
@[simp] theorem flushTlb_mtimecmp (va : Option Word) (asid : Option (BitVec 16)) (s : State) : (flushTlb va asid s).mtimecmp = s.mtimecmp := rfl
@[simp] theorem flushTlb_mem (va : Option Word) (asid : Option (BitVec 16)) (s : State) : (flushTlb va asid s).mem = s.mem := rfl
@[simp] theorem flushTlb_fenceOut (va : Option Word) (asid : Option (BitVec 16)) (s : State) : (flushTlb va asid s).fenceOut = s.fenceOut := rfl
@[simp] theorem flushTlb_inputs (va : Option Word) (asid : Option (BitVec 16)) (s : State) : (flushTlb va asid s).inputs = s.inputs := rfl
@[simp] theorem flushTlb_tick (va : Option Word) (asid : Option (BitVec 16)) (s : State) : (flushTlb va asid s).tick = s.tick := rfl

/-! ### `updateMtip` -/

@[simp] theorem updateMtip_pc (s : State) : (updateMtip s).pc = s.pc := rfl
@[simp] theorem updateMtip_priv (s : State) : (updateMtip s).priv = s.priv := rfl
@[simp] theorem updateMtip_x (s : State) : (updateMtip s).x = s.x := rfl
@[simp] theorem updateMtip_f (s : State) : (updateMtip s).f = s.f := rfl
@[simp] theorem updateMtip_status (s : State) : (updateMtip s).status = s.status := rfl
@[simp] theorem updateMtip_medeleg (s : State) : (updateMtip s).medeleg = s.medeleg := rfl
@[simp] theorem updateMtip_mideleg (s : State) : (updateMtip s).mideleg = s.mideleg := rfl
@[simp] theorem updateMtip_mie (s : State) : (updateMtip s).mie = s.mie := rfl
@[simp] theorem updateMtip_mtvec (s : State) : (updateMtip s).mtvec = s.mtvec := rfl
@[simp] theorem updateMtip_stvec (s : State) : (updateMtip s).stvec = s.stvec := rfl
@[simp] theorem updateMtip_mcounteren (s : State) : (updateMtip s).mcounteren = s.mcounteren := rfl
@[simp] theorem updateMtip_scounteren (s : State) : (updateMtip s).scounteren = s.scounteren := rfl
@[simp] theorem updateMtip_mcountinhibit (s : State) : (updateMtip s).mcountinhibit = s.mcountinhibit := rfl
@[simp] theorem updateMtip_mTrap (s : State) : (updateMtip s).mTrap = s.mTrap := rfl
@[simp] theorem updateMtip_sTrap (s : State) : (updateMtip s).sTrap = s.sTrap := rfl
@[simp] theorem updateMtip_mFIOM (s : State) : (updateMtip s).mFIOM = s.mFIOM := rfl
@[simp] theorem updateMtip_sFIOM (s : State) : (updateMtip s).sFIOM = s.sFIOM := rfl
@[simp] theorem updateMtip_mcycle (s : State) : (updateMtip s).mcycle = s.mcycle := rfl
@[simp] theorem updateMtip_minstret (s : State) : (updateMtip s).minstret = s.minstret := rfl
@[simp] theorem updateMtip_mhpmcounter (s : State) : (updateMtip s).mhpmcounter = s.mhpmcounter := rfl
@[simp] theorem updateMtip_satp (s : State) : (updateMtip s).satp = s.satp := rfl
@[simp] theorem updateMtip_fflags (s : State) : (updateMtip s).fflags = s.fflags := rfl
@[simp] theorem updateMtip_frm (s : State) : (updateMtip s).frm = s.frm := rfl
@[simp] theorem updateMtip_wfiWaiting (s : State) : (updateMtip s).wfiWaiting = s.wfiWaiting := rfl
@[simp] theorem updateMtip_reservation (s : State) : (updateMtip s).reservation = s.reservation := rfl
@[simp] theorem updateMtip_tlb (s : State) : (updateMtip s).tlb = s.tlb := rfl
@[simp] theorem updateMtip_staleCode (s : State) : (updateMtip s).staleCode = s.staleCode := rfl
@[simp] theorem updateMtip_held (s : State) : (updateMtip s).held = s.held := rfl
@[simp] theorem updateMtip_cfg (s : State) : (updateMtip s).cfg = s.cfg := rfl
@[simp] theorem updateMtip_inMEIP (s : State) : (updateMtip s).inMEIP = s.inMEIP := rfl
@[simp] theorem updateMtip_inSEIP (s : State) : (updateMtip s).inSEIP = s.inSEIP := rfl
@[simp] theorem updateMtip_inMSIP (s : State) : (updateMtip s).inMSIP = s.inMSIP := rfl
@[simp] theorem updateMtip_mtime (s : State) : (updateMtip s).mtime = s.mtime := rfl
@[simp] theorem updateMtip_mtimecmp (s : State) : (updateMtip s).mtimecmp = s.mtimecmp := rfl
@[simp] theorem updateMtip_mem (s : State) : (updateMtip s).mem = s.mem := rfl
@[simp] theorem updateMtip_fenceOut (s : State) : (updateMtip s).fenceOut = s.fenceOut := rfl
@[simp] theorem updateMtip_inputs (s : State) : (updateMtip s).inputs = s.inputs := rfl
@[simp] theorem updateMtip_tick (s : State) : (updateMtip s).tick = s.tick := rfl

/-! ### `advanceCounters` -/

@[simp] theorem advanceCounters_pc (inp : Input) (s : State) : (advanceCounters inp s).pc = s.pc := rfl
@[simp] theorem advanceCounters_priv (inp : Input) (s : State) : (advanceCounters inp s).priv = s.priv := rfl
@[simp] theorem advanceCounters_x (inp : Input) (s : State) : (advanceCounters inp s).x = s.x := rfl
@[simp] theorem advanceCounters_f (inp : Input) (s : State) : (advanceCounters inp s).f = s.f := rfl
@[simp] theorem advanceCounters_status (inp : Input) (s : State) : (advanceCounters inp s).status = s.status := rfl
@[simp] theorem advanceCounters_medeleg (inp : Input) (s : State) : (advanceCounters inp s).medeleg = s.medeleg := rfl
@[simp] theorem advanceCounters_mideleg (inp : Input) (s : State) : (advanceCounters inp s).mideleg = s.mideleg := rfl
@[simp] theorem advanceCounters_mie (inp : Input) (s : State) : (advanceCounters inp s).mie = s.mie := rfl
@[simp] theorem advanceCounters_pend (inp : Input) (s : State) : (advanceCounters inp s).pend = s.pend := rfl
@[simp] theorem advanceCounters_mtvec (inp : Input) (s : State) : (advanceCounters inp s).mtvec = s.mtvec := rfl
@[simp] theorem advanceCounters_stvec (inp : Input) (s : State) : (advanceCounters inp s).stvec = s.stvec := rfl
@[simp] theorem advanceCounters_mcounteren (inp : Input) (s : State) : (advanceCounters inp s).mcounteren = s.mcounteren := rfl
@[simp] theorem advanceCounters_scounteren (inp : Input) (s : State) : (advanceCounters inp s).scounteren = s.scounteren := rfl
@[simp] theorem advanceCounters_mcountinhibit (inp : Input) (s : State) : (advanceCounters inp s).mcountinhibit = s.mcountinhibit := rfl
@[simp] theorem advanceCounters_mTrap (inp : Input) (s : State) : (advanceCounters inp s).mTrap = s.mTrap := rfl
@[simp] theorem advanceCounters_sTrap (inp : Input) (s : State) : (advanceCounters inp s).sTrap = s.sTrap := rfl
@[simp] theorem advanceCounters_mFIOM (inp : Input) (s : State) : (advanceCounters inp s).mFIOM = s.mFIOM := rfl
@[simp] theorem advanceCounters_sFIOM (inp : Input) (s : State) : (advanceCounters inp s).sFIOM = s.sFIOM := rfl
@[simp] theorem advanceCounters_minstret (inp : Input) (s : State) : (advanceCounters inp s).minstret = s.minstret := rfl
@[simp] theorem advanceCounters_satp (inp : Input) (s : State) : (advanceCounters inp s).satp = s.satp := rfl
@[simp] theorem advanceCounters_fflags (inp : Input) (s : State) : (advanceCounters inp s).fflags = s.fflags := rfl
@[simp] theorem advanceCounters_frm (inp : Input) (s : State) : (advanceCounters inp s).frm = s.frm := rfl
@[simp] theorem advanceCounters_wfiWaiting (inp : Input) (s : State) : (advanceCounters inp s).wfiWaiting = s.wfiWaiting := rfl
@[simp] theorem advanceCounters_reservation (inp : Input) (s : State) : (advanceCounters inp s).reservation = s.reservation := rfl
@[simp] theorem advanceCounters_tlb (inp : Input) (s : State) : (advanceCounters inp s).tlb = s.tlb := rfl
@[simp] theorem advanceCounters_staleCode (inp : Input) (s : State) : (advanceCounters inp s).staleCode = s.staleCode := rfl
@[simp] theorem advanceCounters_held (inp : Input) (s : State) : (advanceCounters inp s).held = s.held := rfl
@[simp] theorem advanceCounters_cfg (inp : Input) (s : State) : (advanceCounters inp s).cfg = s.cfg := rfl
@[simp] theorem advanceCounters_inMEIP (inp : Input) (s : State) : (advanceCounters inp s).inMEIP = s.inMEIP := rfl
@[simp] theorem advanceCounters_inSEIP (inp : Input) (s : State) : (advanceCounters inp s).inSEIP = s.inSEIP := rfl
@[simp] theorem advanceCounters_inMSIP (inp : Input) (s : State) : (advanceCounters inp s).inMSIP = s.inMSIP := rfl
@[simp] theorem advanceCounters_mtime (inp : Input) (s : State) :
    (advanceCounters inp s).mtime = s.mtime + BitVec.ofNat 64 inp.mtimeDelta := rfl
@[simp] theorem advanceCounters_mtimecmp (inp : Input) (s : State) : (advanceCounters inp s).mtimecmp = s.mtimecmp := rfl
@[simp] theorem advanceCounters_mem (inp : Input) (s : State) : (advanceCounters inp s).mem = s.mem := rfl
@[simp] theorem advanceCounters_fenceOut (inp : Input) (s : State) : (advanceCounters inp s).fenceOut = s.fenceOut := rfl
@[simp] theorem advanceCounters_inputs (inp : Input) (s : State) : (advanceCounters inp s).inputs = s.inputs := rfl
@[simp] theorem advanceCounters_tick (inp : Input) (s : State) : (advanceCounters inp s).tick = s.tick := rfl

/-! ### `popInput` -/

@[simp] theorem popInput_pc (s : State) : (popInput s).pc = s.pc := rfl
@[simp] theorem popInput_priv (s : State) : (popInput s).priv = s.priv := rfl
@[simp] theorem popInput_x (s : State) : (popInput s).x = s.x := rfl
@[simp] theorem popInput_f (s : State) : (popInput s).f = s.f := rfl
@[simp] theorem popInput_status (s : State) : (popInput s).status = s.status := rfl
@[simp] theorem popInput_medeleg (s : State) : (popInput s).medeleg = s.medeleg := rfl
@[simp] theorem popInput_mideleg (s : State) : (popInput s).mideleg = s.mideleg := rfl
@[simp] theorem popInput_mie (s : State) : (popInput s).mie = s.mie := rfl
@[simp] theorem popInput_pend (s : State) : (popInput s).pend = s.pend := rfl
@[simp] theorem popInput_mtvec (s : State) : (popInput s).mtvec = s.mtvec := rfl
@[simp] theorem popInput_stvec (s : State) : (popInput s).stvec = s.stvec := rfl
@[simp] theorem popInput_mcounteren (s : State) : (popInput s).mcounteren = s.mcounteren := rfl
@[simp] theorem popInput_scounteren (s : State) : (popInput s).scounteren = s.scounteren := rfl
@[simp] theorem popInput_mcountinhibit (s : State) : (popInput s).mcountinhibit = s.mcountinhibit := rfl
@[simp] theorem popInput_mTrap (s : State) : (popInput s).mTrap = s.mTrap := rfl
@[simp] theorem popInput_sTrap (s : State) : (popInput s).sTrap = s.sTrap := rfl
@[simp] theorem popInput_mFIOM (s : State) : (popInput s).mFIOM = s.mFIOM := rfl
@[simp] theorem popInput_sFIOM (s : State) : (popInput s).sFIOM = s.sFIOM := rfl
@[simp] theorem popInput_mcycle (s : State) : (popInput s).mcycle = s.mcycle := rfl
@[simp] theorem popInput_minstret (s : State) : (popInput s).minstret = s.minstret := rfl
@[simp] theorem popInput_mhpmcounter (s : State) : (popInput s).mhpmcounter = s.mhpmcounter := rfl
@[simp] theorem popInput_satp (s : State) : (popInput s).satp = s.satp := rfl
@[simp] theorem popInput_fflags (s : State) : (popInput s).fflags = s.fflags := rfl
@[simp] theorem popInput_frm (s : State) : (popInput s).frm = s.frm := rfl
@[simp] theorem popInput_wfiWaiting (s : State) : (popInput s).wfiWaiting = s.wfiWaiting := rfl
@[simp] theorem popInput_reservation (s : State) : (popInput s).reservation = s.reservation := rfl
@[simp] theorem popInput_tlb (s : State) : (popInput s).tlb = s.tlb := rfl
@[simp] theorem popInput_staleCode (s : State) : (popInput s).staleCode = s.staleCode := rfl
@[simp] theorem popInput_held (s : State) : (popInput s).held = s.held := rfl
@[simp] theorem popInput_cfg (s : State) : (popInput s).cfg = s.cfg := rfl
@[simp] theorem popInput_inMEIP (s : State) : (popInput s).inMEIP = s.inMEIP := rfl
@[simp] theorem popInput_inSEIP (s : State) : (popInput s).inSEIP = s.inSEIP := rfl
@[simp] theorem popInput_inMSIP (s : State) : (popInput s).inMSIP = s.inMSIP := rfl
@[simp] theorem popInput_mtime (s : State) : (popInput s).mtime = s.mtime := rfl
@[simp] theorem popInput_mtimecmp (s : State) : (popInput s).mtimecmp = s.mtimecmp := rfl
@[simp] theorem popInput_mem (s : State) : (popInput s).mem = s.mem := rfl
@[simp] theorem popInput_fenceOut (s : State) : (popInput s).fenceOut = s.fenceOut := rfl
@[simp] theorem popInput_inputs (s : State) :
    (popInput s).inputs = s.inputs.tail := rfl
@[simp] theorem popInput_tick (s : State) :
    (popInput s).tick = s.tick + 1 := rfl

/-! ### `writeX` -/

@[simp] theorem writeX_pc (r : Reg) (v : Word) (s : State) : (writeX r v s).pc = s.pc := rfl
@[simp] theorem writeX_priv (r : Reg) (v : Word) (s : State) : (writeX r v s).priv = s.priv := rfl
@[simp] theorem writeX_f (r : Reg) (v : Word) (s : State) : (writeX r v s).f = s.f := rfl
@[simp] theorem writeX_status (r : Reg) (v : Word) (s : State) : (writeX r v s).status = s.status := rfl
@[simp] theorem writeX_medeleg (r : Reg) (v : Word) (s : State) : (writeX r v s).medeleg = s.medeleg := rfl
@[simp] theorem writeX_mideleg (r : Reg) (v : Word) (s : State) : (writeX r v s).mideleg = s.mideleg := rfl
@[simp] theorem writeX_mie (r : Reg) (v : Word) (s : State) : (writeX r v s).mie = s.mie := rfl
@[simp] theorem writeX_pend (r : Reg) (v : Word) (s : State) : (writeX r v s).pend = s.pend := rfl
@[simp] theorem writeX_mtvec (r : Reg) (v : Word) (s : State) : (writeX r v s).mtvec = s.mtvec := rfl
@[simp] theorem writeX_stvec (r : Reg) (v : Word) (s : State) : (writeX r v s).stvec = s.stvec := rfl
@[simp] theorem writeX_mcounteren (r : Reg) (v : Word) (s : State) : (writeX r v s).mcounteren = s.mcounteren := rfl
@[simp] theorem writeX_scounteren (r : Reg) (v : Word) (s : State) : (writeX r v s).scounteren = s.scounteren := rfl
@[simp] theorem writeX_mcountinhibit (r : Reg) (v : Word) (s : State) : (writeX r v s).mcountinhibit = s.mcountinhibit := rfl
@[simp] theorem writeX_mTrap (r : Reg) (v : Word) (s : State) : (writeX r v s).mTrap = s.mTrap := rfl
@[simp] theorem writeX_sTrap (r : Reg) (v : Word) (s : State) : (writeX r v s).sTrap = s.sTrap := rfl
@[simp] theorem writeX_mFIOM (r : Reg) (v : Word) (s : State) : (writeX r v s).mFIOM = s.mFIOM := rfl
@[simp] theorem writeX_sFIOM (r : Reg) (v : Word) (s : State) : (writeX r v s).sFIOM = s.sFIOM := rfl
@[simp] theorem writeX_mcycle (r : Reg) (v : Word) (s : State) : (writeX r v s).mcycle = s.mcycle := rfl
@[simp] theorem writeX_minstret (r : Reg) (v : Word) (s : State) : (writeX r v s).minstret = s.minstret := rfl
@[simp] theorem writeX_mhpmcounter (r : Reg) (v : Word) (s : State) : (writeX r v s).mhpmcounter = s.mhpmcounter := rfl
@[simp] theorem writeX_satp (r : Reg) (v : Word) (s : State) : (writeX r v s).satp = s.satp := rfl
@[simp] theorem writeX_fflags (r : Reg) (v : Word) (s : State) : (writeX r v s).fflags = s.fflags := rfl
@[simp] theorem writeX_frm (r : Reg) (v : Word) (s : State) : (writeX r v s).frm = s.frm := rfl
@[simp] theorem writeX_wfiWaiting (r : Reg) (v : Word) (s : State) : (writeX r v s).wfiWaiting = s.wfiWaiting := rfl
@[simp] theorem writeX_reservation (r : Reg) (v : Word) (s : State) : (writeX r v s).reservation = s.reservation := rfl
@[simp] theorem writeX_tlb (r : Reg) (v : Word) (s : State) : (writeX r v s).tlb = s.tlb := rfl
@[simp] theorem writeX_staleCode (r : Reg) (v : Word) (s : State) : (writeX r v s).staleCode = s.staleCode := rfl
@[simp] theorem writeX_held (r : Reg) (v : Word) (s : State) : (writeX r v s).held = s.held := rfl
@[simp] theorem writeX_cfg (r : Reg) (v : Word) (s : State) : (writeX r v s).cfg = s.cfg := rfl
@[simp] theorem writeX_inMEIP (r : Reg) (v : Word) (s : State) : (writeX r v s).inMEIP = s.inMEIP := rfl
@[simp] theorem writeX_inSEIP (r : Reg) (v : Word) (s : State) : (writeX r v s).inSEIP = s.inSEIP := rfl
@[simp] theorem writeX_inMSIP (r : Reg) (v : Word) (s : State) : (writeX r v s).inMSIP = s.inMSIP := rfl
@[simp] theorem writeX_mtime (r : Reg) (v : Word) (s : State) : (writeX r v s).mtime = s.mtime := rfl
@[simp] theorem writeX_mtimecmp (r : Reg) (v : Word) (s : State) : (writeX r v s).mtimecmp = s.mtimecmp := rfl
@[simp] theorem writeX_mem (r : Reg) (v : Word) (s : State) : (writeX r v s).mem = s.mem := rfl
@[simp] theorem writeX_fenceOut (r : Reg) (v : Word) (s : State) : (writeX r v s).fenceOut = s.fenceOut := rfl
@[simp] theorem writeX_inputs (r : Reg) (v : Word) (s : State) : (writeX r v s).inputs = s.inputs := rfl
@[simp] theorem writeX_tick (r : Reg) (v : Word) (s : State) : (writeX r v s).tick = s.tick := rfl

/-! ### `retire` -/

@[simp] theorem retire_pc (b : Bool) (s : State) : (retire b s).pc = s.pc := rfl
@[simp] theorem retire_priv (b : Bool) (s : State) : (retire b s).priv = s.priv := rfl
@[simp] theorem retire_x (b : Bool) (s : State) : (retire b s).x = s.x := rfl
@[simp] theorem retire_f (b : Bool) (s : State) : (retire b s).f = s.f := rfl
@[simp] theorem retire_status (b : Bool) (s : State) : (retire b s).status = s.status := rfl
@[simp] theorem retire_medeleg (b : Bool) (s : State) : (retire b s).medeleg = s.medeleg := rfl
@[simp] theorem retire_mideleg (b : Bool) (s : State) : (retire b s).mideleg = s.mideleg := rfl
@[simp] theorem retire_mie (b : Bool) (s : State) : (retire b s).mie = s.mie := rfl
@[simp] theorem retire_pend (b : Bool) (s : State) : (retire b s).pend = s.pend := rfl
@[simp] theorem retire_mtvec (b : Bool) (s : State) : (retire b s).mtvec = s.mtvec := rfl
@[simp] theorem retire_stvec (b : Bool) (s : State) : (retire b s).stvec = s.stvec := rfl
@[simp] theorem retire_mcounteren (b : Bool) (s : State) : (retire b s).mcounteren = s.mcounteren := rfl
@[simp] theorem retire_scounteren (b : Bool) (s : State) : (retire b s).scounteren = s.scounteren := rfl
@[simp] theorem retire_mcountinhibit (b : Bool) (s : State) : (retire b s).mcountinhibit = s.mcountinhibit := rfl
@[simp] theorem retire_mTrap (b : Bool) (s : State) : (retire b s).mTrap = s.mTrap := rfl
@[simp] theorem retire_sTrap (b : Bool) (s : State) : (retire b s).sTrap = s.sTrap := rfl
@[simp] theorem retire_mFIOM (b : Bool) (s : State) : (retire b s).mFIOM = s.mFIOM := rfl
@[simp] theorem retire_sFIOM (b : Bool) (s : State) : (retire b s).sFIOM = s.sFIOM := rfl
@[simp] theorem retire_mcycle (b : Bool) (s : State) : (retire b s).mcycle = s.mcycle := rfl
@[simp] theorem retire_mhpmcounter (b : Bool) (s : State) : (retire b s).mhpmcounter = s.mhpmcounter := rfl
@[simp] theorem retire_satp (b : Bool) (s : State) : (retire b s).satp = s.satp := rfl
@[simp] theorem retire_fflags (b : Bool) (s : State) : (retire b s).fflags = s.fflags := rfl
@[simp] theorem retire_frm (b : Bool) (s : State) : (retire b s).frm = s.frm := rfl
@[simp] theorem retire_wfiWaiting (b : Bool) (s : State) : (retire b s).wfiWaiting = s.wfiWaiting := rfl
@[simp] theorem retire_reservation (b : Bool) (s : State) : (retire b s).reservation = s.reservation := rfl
@[simp] theorem retire_tlb (b : Bool) (s : State) : (retire b s).tlb = s.tlb := rfl
@[simp] theorem retire_staleCode (b : Bool) (s : State) : (retire b s).staleCode = s.staleCode := rfl
@[simp] theorem retire_held (b : Bool) (s : State) : (retire b s).held = s.held := rfl
@[simp] theorem retire_cfg (b : Bool) (s : State) : (retire b s).cfg = s.cfg := rfl
@[simp] theorem retire_inMEIP (b : Bool) (s : State) : (retire b s).inMEIP = s.inMEIP := rfl
@[simp] theorem retire_inSEIP (b : Bool) (s : State) : (retire b s).inSEIP = s.inSEIP := rfl
@[simp] theorem retire_inMSIP (b : Bool) (s : State) : (retire b s).inMSIP = s.inMSIP := rfl
@[simp] theorem retire_mtime (b : Bool) (s : State) : (retire b s).mtime = s.mtime := rfl
@[simp] theorem retire_mtimecmp (b : Bool) (s : State) : (retire b s).mtimecmp = s.mtimecmp := rfl
@[simp] theorem retire_mem (b : Bool) (s : State) : (retire b s).mem = s.mem := rfl
@[simp] theorem retire_fenceOut (b : Bool) (s : State) : (retire b s).fenceOut = s.fenceOut := rfl
@[simp] theorem retire_inputs (b : Bool) (s : State) : (retire b s).inputs = s.inputs := rfl
@[simp] theorem retire_tick (b : Bool) (s : State) : (retire b s).tick = s.tick := rfl

/-! ### `dirtyFcsr` -/

@[simp] theorem dirtyFcsr_pc (s : State) : (dirtyFcsr s).pc = s.pc := rfl
@[simp] theorem dirtyFcsr_priv (s : State) : (dirtyFcsr s).priv = s.priv := rfl
@[simp] theorem dirtyFcsr_x (s : State) : (dirtyFcsr s).x = s.x := rfl
@[simp] theorem dirtyFcsr_f (s : State) : (dirtyFcsr s).f = s.f := rfl
@[simp] theorem dirtyFcsr_medeleg (s : State) : (dirtyFcsr s).medeleg = s.medeleg := rfl
@[simp] theorem dirtyFcsr_mideleg (s : State) : (dirtyFcsr s).mideleg = s.mideleg := rfl
@[simp] theorem dirtyFcsr_mie (s : State) : (dirtyFcsr s).mie = s.mie := rfl
@[simp] theorem dirtyFcsr_pend (s : State) : (dirtyFcsr s).pend = s.pend := rfl
@[simp] theorem dirtyFcsr_mtvec (s : State) : (dirtyFcsr s).mtvec = s.mtvec := rfl
@[simp] theorem dirtyFcsr_stvec (s : State) : (dirtyFcsr s).stvec = s.stvec := rfl
@[simp] theorem dirtyFcsr_mcounteren (s : State) : (dirtyFcsr s).mcounteren = s.mcounteren := rfl
@[simp] theorem dirtyFcsr_scounteren (s : State) : (dirtyFcsr s).scounteren = s.scounteren := rfl
@[simp] theorem dirtyFcsr_mcountinhibit (s : State) : (dirtyFcsr s).mcountinhibit = s.mcountinhibit := rfl
@[simp] theorem dirtyFcsr_mTrap (s : State) : (dirtyFcsr s).mTrap = s.mTrap := rfl
@[simp] theorem dirtyFcsr_sTrap (s : State) : (dirtyFcsr s).sTrap = s.sTrap := rfl
@[simp] theorem dirtyFcsr_mFIOM (s : State) : (dirtyFcsr s).mFIOM = s.mFIOM := rfl
@[simp] theorem dirtyFcsr_sFIOM (s : State) : (dirtyFcsr s).sFIOM = s.sFIOM := rfl
@[simp] theorem dirtyFcsr_mcycle (s : State) : (dirtyFcsr s).mcycle = s.mcycle := rfl
@[simp] theorem dirtyFcsr_minstret (s : State) : (dirtyFcsr s).minstret = s.minstret := rfl
@[simp] theorem dirtyFcsr_mhpmcounter (s : State) : (dirtyFcsr s).mhpmcounter = s.mhpmcounter := rfl
@[simp] theorem dirtyFcsr_satp (s : State) : (dirtyFcsr s).satp = s.satp := rfl
@[simp] theorem dirtyFcsr_fflags (s : State) : (dirtyFcsr s).fflags = s.fflags := rfl
@[simp] theorem dirtyFcsr_frm (s : State) : (dirtyFcsr s).frm = s.frm := rfl
@[simp] theorem dirtyFcsr_wfiWaiting (s : State) : (dirtyFcsr s).wfiWaiting = s.wfiWaiting := rfl
@[simp] theorem dirtyFcsr_reservation (s : State) : (dirtyFcsr s).reservation = s.reservation := rfl
@[simp] theorem dirtyFcsr_tlb (s : State) : (dirtyFcsr s).tlb = s.tlb := rfl
@[simp] theorem dirtyFcsr_staleCode (s : State) : (dirtyFcsr s).staleCode = s.staleCode := rfl
@[simp] theorem dirtyFcsr_held (s : State) : (dirtyFcsr s).held = s.held := rfl
@[simp] theorem dirtyFcsr_cfg (s : State) : (dirtyFcsr s).cfg = s.cfg := rfl
@[simp] theorem dirtyFcsr_inMEIP (s : State) : (dirtyFcsr s).inMEIP = s.inMEIP := rfl
@[simp] theorem dirtyFcsr_inSEIP (s : State) : (dirtyFcsr s).inSEIP = s.inSEIP := rfl
@[simp] theorem dirtyFcsr_inMSIP (s : State) : (dirtyFcsr s).inMSIP = s.inMSIP := rfl
@[simp] theorem dirtyFcsr_mtime (s : State) : (dirtyFcsr s).mtime = s.mtime := rfl
@[simp] theorem dirtyFcsr_mtimecmp (s : State) : (dirtyFcsr s).mtimecmp = s.mtimecmp := rfl
@[simp] theorem dirtyFcsr_mem (s : State) : (dirtyFcsr s).mem = s.mem := rfl
@[simp] theorem dirtyFcsr_fenceOut (s : State) : (dirtyFcsr s).fenceOut = s.fenceOut := rfl
@[simp] theorem dirtyFcsr_inputs (s : State) : (dirtyFcsr s).inputs = s.inputs := rfl
@[simp] theorem dirtyFcsr_tick (s : State) : (dirtyFcsr s).tick = s.tick := rfl

/-! ### `cacheLeaf` -/

@[simp] theorem cacheLeaf_pc (e : TlbEntry) (s : State) : (cacheLeaf e s).pc = s.pc := rfl
@[simp] theorem cacheLeaf_priv (e : TlbEntry) (s : State) : (cacheLeaf e s).priv = s.priv := rfl
@[simp] theorem cacheLeaf_x (e : TlbEntry) (s : State) : (cacheLeaf e s).x = s.x := rfl
@[simp] theorem cacheLeaf_f (e : TlbEntry) (s : State) : (cacheLeaf e s).f = s.f := rfl
@[simp] theorem cacheLeaf_status (e : TlbEntry) (s : State) : (cacheLeaf e s).status = s.status := rfl
@[simp] theorem cacheLeaf_medeleg (e : TlbEntry) (s : State) : (cacheLeaf e s).medeleg = s.medeleg := rfl
@[simp] theorem cacheLeaf_mideleg (e : TlbEntry) (s : State) : (cacheLeaf e s).mideleg = s.mideleg := rfl
@[simp] theorem cacheLeaf_mie (e : TlbEntry) (s : State) : (cacheLeaf e s).mie = s.mie := rfl
@[simp] theorem cacheLeaf_pend (e : TlbEntry) (s : State) : (cacheLeaf e s).pend = s.pend := rfl
@[simp] theorem cacheLeaf_mtvec (e : TlbEntry) (s : State) : (cacheLeaf e s).mtvec = s.mtvec := rfl
@[simp] theorem cacheLeaf_stvec (e : TlbEntry) (s : State) : (cacheLeaf e s).stvec = s.stvec := rfl
@[simp] theorem cacheLeaf_mcounteren (e : TlbEntry) (s : State) : (cacheLeaf e s).mcounteren = s.mcounteren := rfl
@[simp] theorem cacheLeaf_scounteren (e : TlbEntry) (s : State) : (cacheLeaf e s).scounteren = s.scounteren := rfl
@[simp] theorem cacheLeaf_mcountinhibit (e : TlbEntry) (s : State) : (cacheLeaf e s).mcountinhibit = s.mcountinhibit := rfl
@[simp] theorem cacheLeaf_mTrap (e : TlbEntry) (s : State) : (cacheLeaf e s).mTrap = s.mTrap := rfl
@[simp] theorem cacheLeaf_sTrap (e : TlbEntry) (s : State) : (cacheLeaf e s).sTrap = s.sTrap := rfl
@[simp] theorem cacheLeaf_mFIOM (e : TlbEntry) (s : State) : (cacheLeaf e s).mFIOM = s.mFIOM := rfl
@[simp] theorem cacheLeaf_sFIOM (e : TlbEntry) (s : State) : (cacheLeaf e s).sFIOM = s.sFIOM := rfl
@[simp] theorem cacheLeaf_mcycle (e : TlbEntry) (s : State) : (cacheLeaf e s).mcycle = s.mcycle := rfl
@[simp] theorem cacheLeaf_minstret (e : TlbEntry) (s : State) : (cacheLeaf e s).minstret = s.minstret := rfl
@[simp] theorem cacheLeaf_mhpmcounter (e : TlbEntry) (s : State) : (cacheLeaf e s).mhpmcounter = s.mhpmcounter := rfl
@[simp] theorem cacheLeaf_satp (e : TlbEntry) (s : State) : (cacheLeaf e s).satp = s.satp := rfl
@[simp] theorem cacheLeaf_fflags (e : TlbEntry) (s : State) : (cacheLeaf e s).fflags = s.fflags := rfl
@[simp] theorem cacheLeaf_frm (e : TlbEntry) (s : State) : (cacheLeaf e s).frm = s.frm := rfl
@[simp] theorem cacheLeaf_wfiWaiting (e : TlbEntry) (s : State) : (cacheLeaf e s).wfiWaiting = s.wfiWaiting := rfl
@[simp] theorem cacheLeaf_reservation (e : TlbEntry) (s : State) : (cacheLeaf e s).reservation = s.reservation := rfl
@[simp] theorem cacheLeaf_staleCode (e : TlbEntry) (s : State) : (cacheLeaf e s).staleCode = s.staleCode := rfl
@[simp] theorem cacheLeaf_held (e : TlbEntry) (s : State) : (cacheLeaf e s).held = s.held := rfl
@[simp] theorem cacheLeaf_cfg (e : TlbEntry) (s : State) : (cacheLeaf e s).cfg = s.cfg := rfl
@[simp] theorem cacheLeaf_inMEIP (e : TlbEntry) (s : State) : (cacheLeaf e s).inMEIP = s.inMEIP := rfl
@[simp] theorem cacheLeaf_inSEIP (e : TlbEntry) (s : State) : (cacheLeaf e s).inSEIP = s.inSEIP := rfl
@[simp] theorem cacheLeaf_inMSIP (e : TlbEntry) (s : State) : (cacheLeaf e s).inMSIP = s.inMSIP := rfl
@[simp] theorem cacheLeaf_mtime (e : TlbEntry) (s : State) : (cacheLeaf e s).mtime = s.mtime := rfl
@[simp] theorem cacheLeaf_mtimecmp (e : TlbEntry) (s : State) : (cacheLeaf e s).mtimecmp = s.mtimecmp := rfl
@[simp] theorem cacheLeaf_mem (e : TlbEntry) (s : State) : (cacheLeaf e s).mem = s.mem := rfl
@[simp] theorem cacheLeaf_fenceOut (e : TlbEntry) (s : State) : (cacheLeaf e s).fenceOut = s.fenceOut := rfl
@[simp] theorem cacheLeaf_inputs (e : TlbEntry) (s : State) : (cacheLeaf e s).inputs = s.inputs := rfl
@[simp] theorem cacheLeaf_tick (e : TlbEntry) (s : State) : (cacheLeaf e s).tick = s.tick := rfl

/-! ### `applyFill` -/

@[simp] theorem applyFill_pc (e : Option TlbEntry) (s : State) : (applyFill e s).pc = s.pc := rfl
@[simp] theorem applyFill_priv (e : Option TlbEntry) (s : State) : (applyFill e s).priv = s.priv := rfl
@[simp] theorem applyFill_x (e : Option TlbEntry) (s : State) : (applyFill e s).x = s.x := rfl
@[simp] theorem applyFill_f (e : Option TlbEntry) (s : State) : (applyFill e s).f = s.f := rfl
@[simp] theorem applyFill_status (e : Option TlbEntry) (s : State) : (applyFill e s).status = s.status := rfl
@[simp] theorem applyFill_medeleg (e : Option TlbEntry) (s : State) : (applyFill e s).medeleg = s.medeleg := rfl
@[simp] theorem applyFill_mideleg (e : Option TlbEntry) (s : State) : (applyFill e s).mideleg = s.mideleg := rfl
@[simp] theorem applyFill_mie (e : Option TlbEntry) (s : State) : (applyFill e s).mie = s.mie := rfl
@[simp] theorem applyFill_pend (e : Option TlbEntry) (s : State) : (applyFill e s).pend = s.pend := rfl
@[simp] theorem applyFill_mtvec (e : Option TlbEntry) (s : State) : (applyFill e s).mtvec = s.mtvec := rfl
@[simp] theorem applyFill_stvec (e : Option TlbEntry) (s : State) : (applyFill e s).stvec = s.stvec := rfl
@[simp] theorem applyFill_mcounteren (e : Option TlbEntry) (s : State) : (applyFill e s).mcounteren = s.mcounteren := rfl
@[simp] theorem applyFill_scounteren (e : Option TlbEntry) (s : State) : (applyFill e s).scounteren = s.scounteren := rfl
@[simp] theorem applyFill_mcountinhibit (e : Option TlbEntry) (s : State) : (applyFill e s).mcountinhibit = s.mcountinhibit := rfl
@[simp] theorem applyFill_mTrap (e : Option TlbEntry) (s : State) : (applyFill e s).mTrap = s.mTrap := rfl
@[simp] theorem applyFill_sTrap (e : Option TlbEntry) (s : State) : (applyFill e s).sTrap = s.sTrap := rfl
@[simp] theorem applyFill_mFIOM (e : Option TlbEntry) (s : State) : (applyFill e s).mFIOM = s.mFIOM := rfl
@[simp] theorem applyFill_sFIOM (e : Option TlbEntry) (s : State) : (applyFill e s).sFIOM = s.sFIOM := rfl
@[simp] theorem applyFill_mcycle (e : Option TlbEntry) (s : State) : (applyFill e s).mcycle = s.mcycle := rfl
@[simp] theorem applyFill_minstret (e : Option TlbEntry) (s : State) : (applyFill e s).minstret = s.minstret := rfl
@[simp] theorem applyFill_mhpmcounter (e : Option TlbEntry) (s : State) : (applyFill e s).mhpmcounter = s.mhpmcounter := rfl
@[simp] theorem applyFill_satp (e : Option TlbEntry) (s : State) : (applyFill e s).satp = s.satp := rfl
@[simp] theorem applyFill_fflags (e : Option TlbEntry) (s : State) : (applyFill e s).fflags = s.fflags := rfl
@[simp] theorem applyFill_frm (e : Option TlbEntry) (s : State) : (applyFill e s).frm = s.frm := rfl
@[simp] theorem applyFill_wfiWaiting (e : Option TlbEntry) (s : State) : (applyFill e s).wfiWaiting = s.wfiWaiting := rfl
@[simp] theorem applyFill_reservation (e : Option TlbEntry) (s : State) : (applyFill e s).reservation = s.reservation := rfl
@[simp] theorem applyFill_staleCode (e : Option TlbEntry) (s : State) : (applyFill e s).staleCode = s.staleCode := rfl
@[simp] theorem applyFill_held (e : Option TlbEntry) (s : State) : (applyFill e s).held = s.held := rfl
@[simp] theorem applyFill_cfg (e : Option TlbEntry) (s : State) : (applyFill e s).cfg = s.cfg := rfl
@[simp] theorem applyFill_inMEIP (e : Option TlbEntry) (s : State) : (applyFill e s).inMEIP = s.inMEIP := rfl
@[simp] theorem applyFill_inSEIP (e : Option TlbEntry) (s : State) : (applyFill e s).inSEIP = s.inSEIP := rfl
@[simp] theorem applyFill_inMSIP (e : Option TlbEntry) (s : State) : (applyFill e s).inMSIP = s.inMSIP := rfl
@[simp] theorem applyFill_mtime (e : Option TlbEntry) (s : State) : (applyFill e s).mtime = s.mtime := rfl
@[simp] theorem applyFill_mtimecmp (e : Option TlbEntry) (s : State) : (applyFill e s).mtimecmp = s.mtimecmp := rfl
@[simp] theorem applyFill_mem (e : Option TlbEntry) (s : State) : (applyFill e s).mem = s.mem := rfl
@[simp] theorem applyFill_fenceOut (e : Option TlbEntry) (s : State) : (applyFill e s).fenceOut = s.fenceOut := rfl
@[simp] theorem applyFill_inputs (e : Option TlbEntry) (s : State) : (applyFill e s).inputs = s.inputs := rfl
@[simp] theorem applyFill_tick (e : Option TlbEntry) (s : State) : (applyFill e s).tick = s.tick := rfl

/-! ### `retire` and `writeX` -/

/-- What retiring does to the count (R441). -/
@[simp] theorem retire_minstret (b : Bool) (s : State) :
    (retire b s).minstret = if !b && countingEnabled 2 s then s.minstret + 1 else s.minstret := by
  unfold retire; split <;> rfl

/-- What a suppressed retirement is. -/
@[simp] theorem retire_true (s : State) : retire true s = s := rfl

/-- What a marking write does to `FS` (R323). -/
@[simp] theorem dirtyFcsr_status (s : State) :
    (dirtyFcsr s).status = if s.cfg.fcsrDirtiesFs then { s.status with fs := 3 } else s.status := by
  unfold dirtyFcsr; split <;> rfl

/-- `x0` reads 0 (R21). -/
@[simp] theorem readX_zero (s : State) : readX 0#5 s = 0 := rfl

/-- A general register depends on the register file alone. -/
theorem readX_congr (r : Reg) (s t : State) (h : t.x = s.x) : readX r t = readX r s := by
  unfold readX; simp [h]

/-- Reading a register after writing one (R21): the written value, except for `x0`. -/
theorem readX_writeX (r w : Reg) (v : Word) (s : State) :
    readX r (writeX w v s) = if r = w ∧ r ≠ 0#5 then v else readX r s := by
  by_cases hr : r = 0#5
  · subst hr
    rw [if_neg (fun h => h.2 rfl), readX_zero, readX_zero]
  · have hrn : r.toNat ≠ 0 := fun h => hr (BitVec.eq_of_toNat_eq h)
    by_cases hw : w.toNat = 0
    · have e : writeX w v s = s := by unfold writeX; rw [dif_pos hw]
      have hne : ¬(r = w ∧ r ≠ 0#5) := fun h => hrn (h.1 ▸ hw)
      rw [e, if_neg hne]
    · unfold readX
      rw [dif_neg hrn, dif_neg hrn]
      have hx : (writeX w v s).x = s.x.set (w.toNat - 1) v (by have := w.isLt; omega) := by
        unfold writeX; rw [dif_neg hw]
      simp only [hx, Vector.getElem_set]
      by_cases e : r = w
      · subst e; rw [if_pos rfl, if_pos ⟨rfl, hr⟩]
      · have hi : ¬(w.toNat - 1 = r.toNat - 1) := fun h => e (BitVec.eq_of_toNat_eq (by omega))
        rw [if_neg hi, if_neg (fun h => e h.1)]

end Sys2Proof.Machine
end

