-- ==== Sys2Proof/Laws/Csr.lean ====
section
/-! SUPPORT. The CSR map, the legality of an access, what a CSR instruction answers, and what no CSR write changes. -/

namespace Sys2Proof.Machine

/-! ### The CSR map -/

/-- The register that the map gives for an address has that address. -/
theorem csrAddr_of_csrOfAddr (a : CsrAddr) (c : Csr) (h : csrOfAddr a = some c) : csrAddr c = a := by
  have := List.find?_some h
  simpa using this

/-- The map finds every numbered event selector. -/
theorem csrOfAddr_mhpmevent : ∀ i : Fin 29, csrOfAddr (csrAddr (.mhpmevent i)) = some (.mhpmevent i) := by
  decide +kernel

/-- The map finds every numbered machine counter. -/
theorem csrOfAddr_mhpmcounter : ∀ i : Fin 29, csrOfAddr (csrAddr (.mhpmcounter i)) = some (.mhpmcounter i) := by
  decide +kernel

/-- The map finds every numbered user counter. -/
theorem csrOfAddr_hpmcounter : ∀ i : Fin 29, csrOfAddr (csrAddr (.hpmcounter i)) = some (.hpmcounter i) := by
  decide +kernel

/-- The map finds every register that stands alone. -/
theorem csrOfAddr_single : ∀ c ∈ singleCsrs, csrOfAddr (csrAddr c) = some c := by decide +kernel

/-- Every register stands alone or is numbered. -/
theorem csr_cases (c : Csr) :
    c ∈ singleCsrs ∨ (∃ i, c = .mhpmevent i) ∨ (∃ i, c = .mhpmcounter i) ∨ ∃ i, c = .hpmcounter i := by
  cases c <;> simp [singleCsrs]

/-! ### The legality of an access -/

/-- When an access is legal, and what it reaches (R160 to R165). -/
theorem csrAccess_eq_some (a : CsrAddr) (w : Bool) (s : State) (c : Csr) :
    csrAccess a w s = some c ↔
      csrOfAddr a = some c ∧ csrLevel a ≤ privCode s.priv ∧ (w && csrReadOnly a) = false ∧ csrGate c s = true := by
  unfold csrAccess
  cases h : csrOfAddr a with
  | none => simp
  | some d =>
    simp only
    split
    · rename_i hc
      constructor
      · intro e
        cases e
        exact ⟨rfl, hc⟩
      · rintro ⟨e, -⟩
        rw [e]
    · rename_i hc
      constructor
      · intro e
        cases e
      · rintro ⟨e, he⟩
        cases e
        exact absurd he hc

/-! ### A CSR instruction -/

/-- What an illegal CSR instruction answers (R175). -/
theorem csrInstr_illegal (op : CsrOp) (rd : Reg) (a : CsrAddr) (src : Word) (z : Bool) (bits : Word) (s : State)
    (h : csrAccess a (csrDoesWrite op z) s = none) :
    csrInstr op rd a src z bits s = .next (takeTrap (.exc .illegalInstr) bits s) := by
  unfold csrInstr
  rw [h]
  rfl

/-- What a legal CSR instruction answers (R160). -/
theorem csrInstr_legal (op : CsrOp) (rd : Reg) (a : CsrAddr) (src : Word) (z : Bool) (bits : Word) (s : State) (c : Csr)
    (h : csrAccess a (csrDoesWrite op z) s = some c) :
    csrInstr op rd a src z bits s =
      .next (retire (csrDoesWrite op z && c == .minstret)
        (advancePc 4 (writeX rd (csrRead c s)
          (if csrDoesWrite op z then csrWrite c (csrNewValue op c src s) s else s)))) := by
  unfold csrInstr
  rw [h]

/-- A CSR instruction always answers a next state. -/
theorem csrInstr_next (op : CsrOp) (rd : Reg) (a : CsrAddr) (src : Word) (z : Bool) (bits : Word) (s : State) :
    ∃ t, csrInstr op rd a src z bits s = .next t := by
  cases h : csrAccess a (csrDoesWrite op z) s with
  | none => exact ⟨_, csrInstr_illegal op rd a src z bits s h⟩
  | some c => exact ⟨_, csrInstr_legal op rd a src z bits s c h⟩

/-! ### What no CSR write changes -/

@[simp] theorem csrWrite_pc (c : Csr) (v : Word) (s : State) : (csrWrite c v s).pc = s.pc := by
  cases c <;> rfl
@[simp] theorem csrWrite_priv (c : Csr) (v : Word) (s : State) : (csrWrite c v s).priv = s.priv := by
  cases c <;> rfl
@[simp] theorem csrWrite_x (c : Csr) (v : Word) (s : State) : (csrWrite c v s).x = s.x := by
  cases c <;> rfl
@[simp] theorem csrWrite_f (c : Csr) (v : Word) (s : State) : (csrWrite c v s).f = s.f := by
  cases c <;> rfl
@[simp] theorem csrWrite_wfiWaiting (c : Csr) (v : Word) (s : State) : (csrWrite c v s).wfiWaiting = s.wfiWaiting := by
  cases c <;> rfl
@[simp] theorem csrWrite_reservation (c : Csr) (v : Word) (s : State) : (csrWrite c v s).reservation = s.reservation := by
  cases c <;> rfl
@[simp] theorem csrWrite_tlb (c : Csr) (v : Word) (s : State) : (csrWrite c v s).tlb = s.tlb := by
  cases c <;> rfl
@[simp] theorem csrWrite_staleCode (c : Csr) (v : Word) (s : State) : (csrWrite c v s).staleCode = s.staleCode := by
  cases c <;> rfl
@[simp] theorem csrWrite_held (c : Csr) (v : Word) (s : State) : (csrWrite c v s).held = s.held := by
  cases c <;> rfl
@[simp] theorem csrWrite_cfg (c : Csr) (v : Word) (s : State) : (csrWrite c v s).cfg = s.cfg := by
  cases c <;> rfl
@[simp] theorem csrWrite_inMEIP (c : Csr) (v : Word) (s : State) : (csrWrite c v s).inMEIP = s.inMEIP := by
  cases c <;> rfl
@[simp] theorem csrWrite_inSEIP (c : Csr) (v : Word) (s : State) : (csrWrite c v s).inSEIP = s.inSEIP := by
  cases c <;> rfl
@[simp] theorem csrWrite_inMSIP (c : Csr) (v : Word) (s : State) : (csrWrite c v s).inMSIP = s.inMSIP := by
  cases c <;> rfl
@[simp] theorem csrWrite_mtime (c : Csr) (v : Word) (s : State) : (csrWrite c v s).mtime = s.mtime := by
  cases c <;> rfl
@[simp] theorem csrWrite_mtimecmp (c : Csr) (v : Word) (s : State) : (csrWrite c v s).mtimecmp = s.mtimecmp := by
  cases c <;> rfl
@[simp] theorem csrWrite_mem (c : Csr) (v : Word) (s : State) : (csrWrite c v s).mem = s.mem := by
  cases c <;> rfl
@[simp] theorem csrWrite_fenceOut (c : Csr) (v : Word) (s : State) : (csrWrite c v s).fenceOut = s.fenceOut := by
  cases c <;> rfl
@[simp] theorem csrWrite_inputs (c : Csr) (v : Word) (s : State) : (csrWrite c v s).inputs = s.inputs := by
  cases c <;> rfl
@[simp] theorem csrWrite_tick (c : Csr) (v : Word) (s : State) : (csrWrite c v s).tick = s.tick := by
  cases c <;> rfl

/-- No CSR write changes the latched timer interrupt (R37, R233). -/
@[simp] theorem csrWrite_mtip (c : Csr) (v : Word) (s : State) : (csrWrite c v s).pend.mtip = s.pend.mtip := by
  cases c <;> rfl

/-- `minstret` is written at its own address alone. -/
theorem csrWrite_minstret (c : Csr) (v : Word) (s : State) :
    (csrWrite c v s).minstret = if c = .minstret then v else s.minstret := by
  cases c <;> simp <;> rfl

end Sys2Proof.Machine
end

