-- ==== Sys2Proof/Laws/Access.lean ====
section
/-! SUPPORT. What a CSR write stores into and a read view depends on, and the legality of an access in the spec's
terms. -/

namespace Sys2Proof.Machine

/-- A CSR write changes no storage but its own (R60, R172). -/
theorem csrWrite_sameStorage (c : Csr) (v : Word) (s : State) (x : Storage) (h : x ∉ writesTo c) :
    SameStorage x s (csrWrite c v s) := by
  cases x with
  | constant => exact csrWrite_cfg c v s
  | time => exact csrWrite_mtime c v s
  | hpm i =>
    cases c with
    | mhpmcounter j =>
      have hij : j ≠ i := by
        rintro rfl
        exact h (by simp [writesTo, readsFrom])
      simp only [SameStorage, csrWrite]
      exact Vector.getElem_set_ne _ _ (by
        intro e
        exact hij (Fin.ext e))
    | _ => rfl
  | fpu =>
    cases c <;> first | exact absurd (by decide) h | exact ⟨rfl, rfl⟩
  | _ =>
    simp only [SameStorage]
    cases c <;> first | exact absurd (by decide) h | rfl

/-- A read view depends on its own storage, the parameters, the input lines and the draw number (R60). -/
theorem csrRead_congr (c : Csr) (s t : State) (h : ∀ x ∈ readsFrom c, SameStorage x s t) (hc : t.cfg = s.cfg)
    (h1 : t.inMEIP = s.inMEIP) (h2 : t.inSEIP = s.inSEIP) (h3 : t.inMSIP = s.inMSIP) (h4 : t.tick = s.tick) :
    csrRead c t = csrRead c s := by
  cases c <;> simp only [readsFrom, List.forall_mem_cons, List.not_mem_nil, false_implies, implies_true, and_true,
    SameStorage] at h <;>
    simp [csrRead, mstatusView, mieView, mipView, mipWith, sieSipMask, tvecView, satpView, causeView, fcsrView, h, hc,
      h1, h2, h3, h4]

/-! ### The legality of an access -/

/-- The map finds every register at its address (R29). -/
theorem csrOfAddr_csrAddr (c : Csr) : csrOfAddr (csrAddr c) = some c := by
  rcases csr_cases c with h | ⟨i, rfl⟩ | ⟨i, rfl⟩ | ⟨i, rfl⟩
  · exact csrOfAddr_single c h
  · exact csrOfAddr_mhpmevent i
  · exact csrOfAddr_mhpmcounter i
  · exact csrOfAddr_hpmcounter i

/-- Support as a check of the ranges. -/
theorem supported_iff (a : CsrAddr) :
    Supported a ↔ (supportedRanges.any fun r => decide (r.1 ≤ a.toNat) && decide (a.toNat ≤ r.2)) = true := by
  unfold Supported
  simp only [List.any_eq_true, Bool.and_eq_true, decide_eq_true_eq]

/-- The address of a register is supported. -/
theorem supported_csrAddr (c : Csr) : Supported (csrAddr c) := by
  rw [supported_iff]
  rcases csr_cases c with h | ⟨i, rfl⟩ | ⟨i, rfl⟩ | ⟨i, rfl⟩
  · revert c
    decide +kernel
  · revert i
    decide +kernel
  · revert i
    decide +kernel
  · revert i
    decide +kernel

/-- The extra gates of a register in terms of its address (R165, R213, R323, R329). -/
theorem csrGate_iff (c : Csr) (s : State) :
    csrGate c s = true ↔
      (csrAddr c = 0x180#12 → s.priv = .supervisor → s.status.tvm = false) ∧
      (0xC00 ≤ (csrAddr c).toNat → (csrAddr c).toNat ≤ 0xC1F → CounterReadable ((csrAddr c).toNat - 0xC00) s) ∧
      (1 ≤ (csrAddr c).toNat → (csrAddr c).toNat ≤ 3 → s.cfg.fsOffTraps = true → s.status.fs ≠ 0#2) := by
  have counter : ∀ b, counterAllowed b s = true ↔ CounterReadable b s := by
    intro b
    unfold counterAllowed CounterReadable
    cases s.priv <;> simp
  cases c with
  | satp => cases h : s.priv <;> simp [csrGate, csrAddr, h]
  | fflags => cases h : s.cfg.fsOffTraps <;> simp [csrGate, csrAddr, h]
  | frm => cases h : s.cfg.fsOffTraps <;> simp [csrGate, csrAddr, h]
  | fcsr => cases h : s.cfg.fsOffTraps <;> simp [csrGate, csrAddr, h]
  | mhpmevent i =>
    have far : ∀ i : Fin 29, csrAddr (.mhpmevent i) ≠ 0x180#12 ∧ (csrAddr (.mhpmevent i)).toNat < 0xC00 ∧
        3 < (csrAddr (.mhpmevent i)).toNat := by decide +kernel
    obtain ⟨h1, h2, h3⟩ := far i
    simp only [csrGate, true_iff]
    exact ⟨fun h => absurd h h1, fun h => by omega, fun _ h => by omega⟩
  | mhpmcounter i =>
    have far : ∀ i : Fin 29, csrAddr (.mhpmcounter i) ≠ 0x180#12 ∧ (csrAddr (.mhpmcounter i)).toNat < 0xC00 ∧
        3 < (csrAddr (.mhpmcounter i)).toNat := by decide +kernel
    obtain ⟨h1, h2, h3⟩ := far i
    simp only [csrGate, true_iff]
    exact ⟨fun h => absurd h h1, fun h => by omega, fun _ h => by omega⟩
  | hpmcounter i =>
    have at_ : ∀ i : Fin 29, csrAddr (.hpmcounter i) ≠ 0x180#12 ∧
        (csrAddr (.hpmcounter i)).toNat = 0xC03 + i.val := by decide +kernel
    obtain ⟨h1, h2⟩ := at_ i
    have e : 0xC03 + i.val - 0xC00 = i.val + 3 := by omega
    simp only [csrGate, counter, h2, e]
    exact ⟨fun h => ⟨fun k => absurd k h1, fun _ _ => h, fun _ k => by omega⟩,
      fun h => h.2.1 (by omega) (by omega)⟩
  | _ => simp [csrGate, csrAddr, counter]

/-- A legal access in the spec's terms reaches its register, and no other access does. -/
theorem accessible_iff (c : Csr) (w : Bool) (s : State) :
    Accessible (csrAddr c) w s ↔ csrAccess (csrAddr c) w s = some c := by
  rw [csrAccess_eq_some, csrGate_iff]
  have level : (csrLevel (csrAddr c) ≤ privCode s.priv) ↔
      ((csrAddr c).extractLsb' 8 2).toNat ≤ (privCode s.priv).toNat := by
    unfold csrLevel
    exact BitVec.le_def
  have writable : ((w && csrReadOnly (csrAddr c)) = false) ↔
      (w = true → (csrAddr c).extractLsb' 10 2 ≠ 3#2) := by
    unfold csrReadOnly
    cases w <;> simp
  rw [level, writable]
  unfold Accessible
  simp only [csrOfAddr_csrAddr c, supported_csrAddr c, true_and]

/-- An illegal access in the spec's terms reaches no register. -/
theorem csrAccess_none_of_not_accessible (a : CsrAddr) (w : Bool) (s : State) (h : ¬Accessible a w s) :
    csrAccess a w s = none := by
  cases hc : csrAccess a w s with
  | none => rfl
  | some c =>
    have e := csrAddr_of_csrOfAddr a c ((csrAccess_eq_some a w s c).mp hc).1
    subst e
    exact absurd ((accessible_iff c w s).mpr hc) h

end Sys2Proof.Machine
end

