-- ==== Sys2Proof/Laws/Bits.lean ====
section
/-! SUPPORT. Words as bytes and bytes as words, the bits of fields, and how the decoder reads a 32-bit word. -/

namespace Sys2Proof.Machine

/-- The four bytes of a word, lowest first (R82). -/
theorem leBytes_four (w : BitVec 32) :
    leBytes 4 (w.setWidth 64) =
      [w.extractLsb' 0 8, w.extractLsb' 8 8, w.extractLsb' 16 8, w.extractLsb' 24 8] := by
  simp only [leBytes, List.cons.injEq, and_true]
  refine ⟨?_, ?_, ?_, ?_⟩ <;> (apply BitVec.eq_of_getLsbD_eq; intro i hi; simp [hi])
  all_goals omega

/-- The value of a word's four bytes is the word. -/
theorem leValue_leBytes_four (w : BitVec 32) : leValue (leBytes 4 (w.setWidth 64)) = w.setWidth 64 := by
  apply BitVec.eq_of_getLsbD_eq
  intro i hi
  simp [leBytes, leValue]
  interval_cases i <;> simp

/-- The four bytes of a word, joined again. -/
theorem word_of_bytes (w : BitVec 32) :
    w.extractLsb' 24 8 ++ w.extractLsb' 16 8 ++ (w.extractLsb' 8 8 ++ w.extractLsb' 0 8) = w := by
  apply BitVec.eq_of_getLsbD_eq
  intro i hi
  simp only [BitVec.getLsbD_append, BitVec.getLsbD_extractLsb']
  interval_cases i <;> simp

/-- A bit of a one-bit field. -/
theorem getLsbD_bitAt (b : Bool) (i j : Nat) (hi : i < 64) : (bitAt b i).getLsbD j = (b && decide (j = i)) := by
  unfold bitAt
  cases b
  · simp
  · simp only [if_true, BitVec.getLsbD_shiftLeft, Bool.true_and]
    by_cases h : j = i
    · subst h; simp [hi]
    · by_cases h2 : j < i
      · simp [h2, h]
      · have : j - i ≠ 0 := by omega
        simp [h, this]

/-- A bit of a field. -/
theorem getLsbD_fieldAt {w : Nat} (v : BitVec w) (i j : Nat) :
    (fieldAt v i).getLsbD j = (decide (j < 64) && decide (i ≤ j) && v.getLsbD (j - i)) := by
  unfold fieldAt
  simp only [BitVec.getLsbD_shiftLeft, BitVec.getLsbD_setWidth]
  by_cases h : j < 64
  · by_cases h2 : i ≤ j
    · have : ¬ j < i := by omega
      have : j - i < 64 := by omega
      simp [*]
    · have : j < i := by omega
      simp [*]
  · simp [h]

/-- The address kept by an `xepc` register, bit 0 dropped (R228). -/
theorem pcOfHigh_pcHigh (a : Word) : pcOfHigh (pcHigh a) = a &&& 0xFFFFFFFFFFFFFFFE := by
  apply BitVec.eq_of_getLsbD_eq
  intro i hi
  simp only [pcOfHigh, pcHigh, BitVec.getLsbD_append, BitVec.getLsbD_and, BitVec.getLsbD_extractLsb']
  interval_cases i <;> simp

/-- An even address is kept whole. -/
theorem pcOfHigh_pcHigh_even (a : Word) (h : a.getLsbD 0 = false) : pcOfHigh (pcHigh a) = a := by
  rw [pcOfHigh_pcHigh]
  apply BitVec.eq_of_getLsbD_eq
  intro i hi
  simp only [BitVec.getLsbD_and]
  interval_cases i <;> first | (simp; done) | simpa using h

/-- The address in an `xepc` register is even (R23, R82). -/
theorem pcOfHigh_even (h : BitVec 63) : (pcOfHigh h).getLsbD 0 = false := by
  unfold pcOfHigh
  rw [BitVec.getLsbD_append]
  rfl

end Sys2Proof.Machine

namespace Sys2Proof

/-- The first parcel of a word with a 32-bit length prefix says 4 bytes (R122). -/
theorem parcelLength_word (w : BitVec 32) (h1 : w.extractLsb' 0 2 = 3#2) (h2 : w.extractLsb' 2 3 ≠ 7#3) :
    parcelLength (w.extractLsb' 8 8 ++ w.extractLsb' 0 8) = some 4 := by
  have e1 : (w.extractLsb' 8 8 ++ w.extractLsb' 0 8 : BitVec 16).extractLsb' 0 2 = w.extractLsb' 0 2 := by
    apply BitVec.eq_of_getLsbD_eq
    intro i hi
    simp only [BitVec.getLsbD_append, BitVec.getLsbD_extractLsb']
    interval_cases i <;> simp
  have e2 : (w.extractLsb' 8 8 ++ w.extractLsb' 0 8 : BitVec 16).extractLsb' 2 3 = w.extractLsb' 2 3 := by
    apply BitVec.eq_of_getLsbD_eq
    intro i hi
    simp only [BitVec.getLsbD_append, BitVec.getLsbD_extractLsb']
    interval_cases i <;> simp
  unfold parcelLength
  rw [e1, e2, h1, if_neg (by simp), if_pos h2]

/-- How the bytes of a 32-bit word decode: by `decodeWord` (R122). -/
theorem decode_word (w : BitVec 32) (rest : List Byte) (h1 : w.extractLsb' 0 2 = 3#2) (h2 : w.extractLsb' 2 3 ≠ 7#3) :
    decode (Machine.leBytes 4 (w.setWidth 64) ++ rest) =
      match decodeWord w with
      | .ok i => .ok (i, rest)
      | .error e => .error e := by
  rw [Machine.leBytes_four]
  simp only [List.cons_append, List.nil_append, decode]
  rw [parcelLength_word w h1 h2]
  cases h : decodeWord w <;> simp only [Machine.word_of_bytes, h]

end Sys2Proof
end

