-- ==== Sys2Proof/Laws/Trap.lean ====
section
/-! SUPPORT. Taking a trap: where it goes, what it changes, and what it leaves unchanged (R420 to R436). -/

namespace Sys2Proof.Machine

/-- When a trap goes to S-mode (R420, R421). -/
theorem trapsToS_iff (c : Cause) (s : State) :
    trapsToS c s = true ↔ s.priv ≠ .machine ∧
      (match c with
      | .irq i => s.mideleg.getLsbD (irqCode i)
      | .exc e => s.medeleg.getLsbD (excCode e)) = true := by
  unfold trapsToS
  cases c <;> simp

/-- A trap enters S-mode or M-mode, and only these. -/
theorem takeTrap_cases (c : Cause) (tval : Word) (s : State) :
    (trapsToS c s = true ∧ takeTrap c tval s = enterS c tval s) ∨
      (trapsToS c s = false ∧ takeTrap c tval s = enterM c tval s) := by
  unfold takeTrap
  cases trapsToS c s
  · exact .inr ⟨rfl, rfl⟩
  · exact .inl ⟨rfl, rfl⟩

/-- A trap from M-mode enters M-mode (R422). -/
theorem takeTrap_machine (c : Cause) (tval : Word) (s : State) (h : s.priv = .machine) :
    takeTrap c tval s = enterM c tval s := by
  rcases takeTrap_cases c tval s with ⟨ht, -⟩ | ⟨-, e⟩
  · exact absurd h ((trapsToS_iff c s).mp ht).1
  · exact e

/-- The mode after a trap. -/
theorem takeTrap_priv (c : Cause) (tval : Word) (s : State) :
    (takeTrap c tval s).priv = if trapsToS c s then .supervisor else .machine := by
  unfold takeTrap
  split <;> rfl

/-- A trap does not lower the privilege (R422). -/
theorem takeTrap_priv_le (c : Cause) (tval : Word) (s : State) :
    (privCode s.priv).toNat ≤ (privCode (takeTrap c tval s).priv).toNat := by
  rcases takeTrap_cases c tval s with ⟨ht, e⟩ | ⟨-, e⟩
  · have := ((trapsToS_iff c s).mp ht).1
    rw [e, enterS_priv]
    revert this
    cases s.priv <;> decide
  · rw [e, enterM_priv]
    cases s.priv <;> decide

/-- A handler's address is even (R431). -/
theorem tvecTarget_even (t : Tvec) (c : Cause) : (tvecTarget t c).getLsbD 0 = false := by
  have base : (t.base ++ 0#2 : Word).getLsbD 0 = false := by
    rw [BitVec.getLsbD_append]
    rfl
  have offset : (BitVec.ofNat 64 (4 * causeCode c)).getLsbD 0 = false := by
    rw [BitVec.getLsbD_ofNat, Nat.testBit_zero]
    simp only [Nat.reduceLT, decide_true, Bool.true_and, decide_eq_false_iff_not]
    omega
  unfold tvecTarget
  split
  · rw [BitVec.getLsbD_add (by decide), base, offset]
    simp
  · exact base

/-- The pc after a trap is even. -/
theorem takeTrap_pc_even (c : Cause) (tval : Word) (s : State) : (takeTrap c tval s).pc.getLsbD 0 = false := by
  unfold takeTrap
  split <;> exact tvecTarget_even _ _

/-- A trap leaves the parts of the status register that no trap entry names. -/
theorem takeTrap_status (c : Cause) (tval : Word) (s : State) :
    (takeTrap c tval s).status = { s.status with
      sie := (takeTrap c tval s).status.sie
      spie := (takeTrap c tval s).status.spie
      spp := (takeTrap c tval s).status.spp
      mie := (takeTrap c tval s).status.mie
      mpie := (takeTrap c tval s).status.mpie
      mpp := (takeTrap c tval s).status.mpp } := by
  unfold takeTrap
  split <;> rfl

/-- A trap ends a wait (R355). -/
@[simp] theorem takeTrap_wfiWaiting (c : Cause) (tval : Word) (s : State) :
    (takeTrap c tval s).wfiWaiting = false := by
  unfold takeTrap
  split <;> rfl

/-! ### What a trap leaves unchanged -/

@[simp] theorem takeTrap_x (c : Cause) (tval : Word) (s : State) : (takeTrap c tval s).x = s.x := by
  unfold takeTrap; split <;> rfl
@[simp] theorem takeTrap_f (c : Cause) (tval : Word) (s : State) : (takeTrap c tval s).f = s.f := by
  unfold takeTrap; split <;> rfl
@[simp] theorem takeTrap_medeleg (c : Cause) (tval : Word) (s : State) : (takeTrap c tval s).medeleg = s.medeleg := by
  unfold takeTrap; split <;> rfl
@[simp] theorem takeTrap_mideleg (c : Cause) (tval : Word) (s : State) : (takeTrap c tval s).mideleg = s.mideleg := by
  unfold takeTrap; split <;> rfl
@[simp] theorem takeTrap_mie (c : Cause) (tval : Word) (s : State) : (takeTrap c tval s).mie = s.mie := by
  unfold takeTrap; split <;> rfl
@[simp] theorem takeTrap_pend (c : Cause) (tval : Word) (s : State) : (takeTrap c tval s).pend = s.pend := by
  unfold takeTrap; split <;> rfl
@[simp] theorem takeTrap_mtvec (c : Cause) (tval : Word) (s : State) : (takeTrap c tval s).mtvec = s.mtvec := by
  unfold takeTrap; split <;> rfl
@[simp] theorem takeTrap_stvec (c : Cause) (tval : Word) (s : State) : (takeTrap c tval s).stvec = s.stvec := by
  unfold takeTrap; split <;> rfl
@[simp] theorem takeTrap_mcounteren (c : Cause) (tval : Word) (s : State) : (takeTrap c tval s).mcounteren = s.mcounteren := by
  unfold takeTrap; split <;> rfl
@[simp] theorem takeTrap_scounteren (c : Cause) (tval : Word) (s : State) : (takeTrap c tval s).scounteren = s.scounteren := by
  unfold takeTrap; split <;> rfl
@[simp] theorem takeTrap_mcountinhibit (c : Cause) (tval : Word) (s : State) : (takeTrap c tval s).mcountinhibit = s.mcountinhibit := by
  unfold takeTrap; split <;> rfl
@[simp] theorem takeTrap_mFIOM (c : Cause) (tval : Word) (s : State) : (takeTrap c tval s).mFIOM = s.mFIOM := by
  unfold takeTrap; split <;> rfl
@[simp] theorem takeTrap_sFIOM (c : Cause) (tval : Word) (s : State) : (takeTrap c tval s).sFIOM = s.sFIOM := by
  unfold takeTrap; split <;> rfl
@[simp] theorem takeTrap_mcycle (c : Cause) (tval : Word) (s : State) : (takeTrap c tval s).mcycle = s.mcycle := by
  unfold takeTrap; split <;> rfl
@[simp] theorem takeTrap_minstret (c : Cause) (tval : Word) (s : State) : (takeTrap c tval s).minstret = s.minstret := by
  unfold takeTrap; split <;> rfl
@[simp] theorem takeTrap_mhpmcounter (c : Cause) (tval : Word) (s : State) : (takeTrap c tval s).mhpmcounter = s.mhpmcounter := by
  unfold takeTrap; split <;> rfl
@[simp] theorem takeTrap_satp (c : Cause) (tval : Word) (s : State) : (takeTrap c tval s).satp = s.satp := by
  unfold takeTrap; split <;> rfl
@[simp] theorem takeTrap_fflags (c : Cause) (tval : Word) (s : State) : (takeTrap c tval s).fflags = s.fflags := by
  unfold takeTrap; split <;> rfl
@[simp] theorem takeTrap_frm (c : Cause) (tval : Word) (s : State) : (takeTrap c tval s).frm = s.frm := by
  unfold takeTrap; split <;> rfl
@[simp] theorem takeTrap_reservation (c : Cause) (tval : Word) (s : State) : (takeTrap c tval s).reservation = s.reservation := by
  unfold takeTrap; split <;> rfl
@[simp] theorem takeTrap_tlb (c : Cause) (tval : Word) (s : State) : (takeTrap c tval s).tlb = s.tlb := by
  unfold takeTrap; split <;> rfl
@[simp] theorem takeTrap_staleCode (c : Cause) (tval : Word) (s : State) : (takeTrap c tval s).staleCode = s.staleCode := by
  unfold takeTrap; split <;> rfl
@[simp] theorem takeTrap_held (c : Cause) (tval : Word) (s : State) : (takeTrap c tval s).held = s.held := by
  unfold takeTrap; split <;> rfl
@[simp] theorem takeTrap_cfg (c : Cause) (tval : Word) (s : State) : (takeTrap c tval s).cfg = s.cfg := by
  unfold takeTrap; split <;> rfl
@[simp] theorem takeTrap_inMEIP (c : Cause) (tval : Word) (s : State) : (takeTrap c tval s).inMEIP = s.inMEIP := by
  unfold takeTrap; split <;> rfl
@[simp] theorem takeTrap_inSEIP (c : Cause) (tval : Word) (s : State) : (takeTrap c tval s).inSEIP = s.inSEIP := by
  unfold takeTrap; split <;> rfl
@[simp] theorem takeTrap_inMSIP (c : Cause) (tval : Word) (s : State) : (takeTrap c tval s).inMSIP = s.inMSIP := by
  unfold takeTrap; split <;> rfl
@[simp] theorem takeTrap_mtime (c : Cause) (tval : Word) (s : State) : (takeTrap c tval s).mtime = s.mtime := by
  unfold takeTrap; split <;> rfl
@[simp] theorem takeTrap_mtimecmp (c : Cause) (tval : Word) (s : State) : (takeTrap c tval s).mtimecmp = s.mtimecmp := by
  unfold takeTrap; split <;> rfl
@[simp] theorem takeTrap_mem (c : Cause) (tval : Word) (s : State) : (takeTrap c tval s).mem = s.mem := by
  unfold takeTrap; split <;> rfl
@[simp] theorem takeTrap_fenceOut (c : Cause) (tval : Word) (s : State) : (takeTrap c tval s).fenceOut = s.fenceOut := by
  unfold takeTrap; split <;> rfl
@[simp] theorem takeTrap_inputs (c : Cause) (tval : Word) (s : State) : (takeTrap c tval s).inputs = s.inputs := by
  unfold takeTrap; split <;> rfl
@[simp] theorem takeTrap_tick (c : Cause) (tval : Word) (s : State) : (takeTrap c tval s).tick = s.tick := by
  unfold takeTrap; split <;> rfl

/-! ### Counting -/

/-- Whether a counter counts depends on its inhibit bit and the parameters alone (R443). -/
theorem countingEnabled_congr (b : Nat) (s t : State) (h1 : t.cfg = s.cfg) (h2 : t.mcountinhibit = s.mcountinhibit) :
    countingEnabled b t = countingEnabled b s := by
  unfold countingEnabled
  rw [h1, h2]

end Sys2Proof.Machine
end

