-- ==== Sys2Proof/Laws/Exec.lean ====
section
/-! SUPPORT. What each instruction can answer: its own effect where it is legal, the trap where it is not. -/

namespace Sys2Proof.Machine

/-! ### CSR instructions -/

/-- What a CSR instruction can answer: the illegal-instruction trap, or the access with its counting (R160, R175). -/
theorem csrInstr_cases (op : CsrOp) (rd : Reg) (a : CsrAddr) (src : Word) (z : Bool) (bits : Word) (s : State) :
    (csrAccess a (csrDoesWrite op z) s = none ∧
      csrInstr op rd a src z bits s = .next (takeTrap (.exc .illegalInstr) bits s)) ∨
    ∃ c, csrAccess a (csrDoesWrite op z) s = some c ∧
      csrInstr op rd a src z bits s =
        .next (retire (csrDoesWrite op z && c == .minstret)
          (advancePc 4 (writeX rd (csrRead c s)
            (if csrDoesWrite op z then csrWrite c (csrNewValue op c src s) s else s)))) := by
  cases h : csrAccess a (csrDoesWrite op z) s with
  | none => exact .inl ⟨rfl, csrInstr_illegal op rd a src z bits s h⟩
  | some c => exact .inr ⟨c, rfl, csrInstr_legal op rd a src z bits s c h⟩

/-! ### System instructions -/

/-- MRET in M-mode (R353). -/
theorem execMret_legal (s : State) (h : s.priv = .machine) : execMret s = .next (retire false (returnM s)) :=
  if_pos h

/-- MRET below M-mode (R353). -/
theorem execMret_illegal (s : State) (h : s.priv ≠ .machine) :
    execMret s = .next (takeTrap (.exc .illegalInstr) (instrBits .mret) s) :=
  if_neg h

/-- SRET where it is legal (R354). -/
theorem execSret_legal (s : State) (h : s.priv = .machine ∨ (s.priv = .supervisor ∧ s.status.tsr = false)) :
    execSret s = .next (retire false (returnS s)) := by
  apply if_neg
  rcases h with h | ⟨h, k⟩ <;> simp [*]

/-- SRET where it is illegal (R354). -/
theorem execSret_illegal (s : State) (h : s.priv = .user ∨ (s.priv = .supervisor ∧ s.status.tsr = true)) :
    execSret s = .next (takeTrap (.exc .illegalInstr) (instrBits .sret) s) :=
  if_pos h

/-- WFI where it is legal (R355). -/
theorem execWfi_legal (s : State) (h : s.priv = .machine ∨ (s.priv = .supervisor ∧ s.status.tw = false)) :
    execWfi s = .next (retire false (advancePc 4 { s with wfiWaiting := true })) := by
  apply if_neg
  rcases h with h | ⟨h, k⟩ <;> simp [*]

/-- WFI where it is illegal (R355). -/
theorem execWfi_illegal (s : State) (h : s.priv = .user ∨ (s.priv = .supervisor ∧ s.status.tw = true)) :
    execWfi s = .next (takeTrap (.exc .illegalInstr) (instrBits .wfi) s) :=
  if_pos h

/-! ### Fences -/

/-- SFENCE.VMA where it is legal (R356). -/
theorem execSfenceVma_legal (rs1 rs2 : Reg) (s : State)
    (h : s.priv = .machine ∨ (s.priv = .supervisor ∧ s.status.tvm = false)) :
    execSfenceVma rs1 rs2 s = .next (retire false (advancePc 4 (flushTlb (fenceVaddr rs1 s) (fenceAsid rs2 s) s))) := by
  apply if_neg
  rcases h with h | ⟨h, k⟩ <;> simp [*]

/-- SFENCE.VMA where it is illegal (R356). -/
theorem execSfenceVma_illegal (rs1 rs2 : Reg) (s : State)
    (h : s.priv = .user ∨ (s.priv = .supervisor ∧ s.status.tvm = true)) :
    execSfenceVma rs1 rs2 s = .next (takeTrap (.exc .illegalInstr) (instrBits (.sfenceVma rs1 rs2)) s) :=
  if_pos h

/-- FENCE, in every mode (R357). -/
theorem execFence_eq (fm pred succ : BitVec 4) (s : State) :
    execFence fm pred succ s =
      .next (retire false (advancePc 4 { s with fenceOut := some (fenceOrder fm pred succ s) })) :=
  rfl

/-- FENCE.I, in every mode (R358). -/
theorem execFenceI_eq (s : State) : execFenceI s = .next (retire false (advancePc 4 { s with staleCode := [] })) :=
  rfl

/-! ### Every instruction -/

/-- The mode decides whether a privileged instruction with a trap bit is legal. -/
theorem legal_or_illegal (p : Priv) (b : Bool) :
    (p = .machine ∨ (p = .supervisor ∧ b = false)) ∨ (p = .user ∨ (p = .supervisor ∧ b = true)) := by
  cases p <;> cases b <;> decide

/-- What any instruction of the table can answer: a trap, a CSR access, a return, or one of the instructions that only
wait or order. -/
theorem exec_cases (i : Instr) (s : State) :
    (∃ e v, exec i s = .next (takeTrap (.exc e) v s)) ∨
    (∃ op rd a src z c, csrAccess a (csrDoesWrite op z) s = some c ∧
      (∃ r, i = .csrrw rd a r ∨ i = .csrrs rd a r ∨ i = .csrrc rd a r ∨ i = .csrrwi rd a r ∨ i = .csrrsi rd a r ∨
        i = .csrrci rd a r) ∧
      exec i s = .next (retire (csrDoesWrite op z && c == .minstret)
        (advancePc 4 (writeX rd (csrRead c s)
          (if csrDoesWrite op z then csrWrite c (csrNewValue op c src s) s else s))))) ∨
    (i = .mret ∧ s.priv = .machine ∧ exec i s = .next (retire false (returnM s))) ∨
    (i = .sret ∧ (s.priv = .machine ∨ (s.priv = .supervisor ∧ s.status.tsr = false)) ∧
      exec i s = .next (retire false (returnS s))) ∨
    (∃ w tlb fence stale, exec i s = .next (retire false (advancePc 4
      { s with wfiWaiting := w, tlb := tlb, fenceOut := fence, staleCode := stale }))) := by
  have csr : ∀ (i : Instr) (op : CsrOp) (rd : Reg) (a : CsrAddr) (src : Word) (z : Bool) (bits : Word),
      exec i s = csrInstr op rd a src z bits s →
      (∃ e v, exec i s = .next (takeTrap (.exc e) v s)) ∨
      ∃ c, csrAccess a (csrDoesWrite op z) s = some c ∧
        exec i s = .next (retire (csrDoesWrite op z && c == .minstret)
          (advancePc 4 (writeX rd (csrRead c s)
            (if csrDoesWrite op z then csrWrite c (csrNewValue op c src s) s else s)))) := by
    intro i op rd a src z bits e
    rcases csrInstr_cases op rd a src z bits s with ⟨-, h⟩ | ⟨c, hc, h⟩
    · exact .inl ⟨_, _, e.trans h⟩
    · exact .inr ⟨c, hc, e.trans h⟩
  cases i with
  | csrrw rd a r =>
    exact (csr _ .write rd a _ _ _ rfl).imp id fun ⟨c, hc, h⟩ => .inl ⟨_, _, _, _, _, c, hc, ⟨r, by simp⟩, h⟩
  | csrrs rd a r =>
    exact (csr _ .set rd a _ _ _ rfl).imp id fun ⟨c, hc, h⟩ => .inl ⟨_, _, _, _, _, c, hc, ⟨r, by simp⟩, h⟩
  | csrrc rd a r =>
    exact (csr _ .clear rd a _ _ _ rfl).imp id fun ⟨c, hc, h⟩ => .inl ⟨_, _, _, _, _, c, hc, ⟨r, by simp⟩, h⟩
  | csrrwi rd a r =>
    exact (csr _ .write rd a _ _ _ rfl).imp id fun ⟨c, hc, h⟩ => .inl ⟨_, _, _, _, _, c, hc, ⟨r, by simp⟩, h⟩
  | csrrsi rd a r =>
    exact (csr _ .set rd a _ _ _ rfl).imp id fun ⟨c, hc, h⟩ => .inl ⟨_, _, _, _, _, c, hc, ⟨r, by simp⟩, h⟩
  | csrrci rd a r =>
    exact (csr _ .clear rd a _ _ _ rfl).imp id fun ⟨c, hc, h⟩ => .inl ⟨_, _, _, _, _, c, hc, ⟨r, by simp⟩, h⟩
  | ecall => exact .inl ⟨_, _, rfl⟩
  | ebreak => exact .inl ⟨_, _, rfl⟩
  | cEbreak => exact .inl ⟨_, _, rfl⟩
  | mret =>
    by_cases h : s.priv = .machine
    · exact .inr (.inr (.inl ⟨rfl, h, execMret_legal s h⟩))
    · exact .inl ⟨_, _, execMret_illegal s h⟩
  | sret =>
    rcases legal_or_illegal s.priv s.status.tsr with h | h
    · exact .inr (.inr (.inr (.inl ⟨rfl, h, execSret_legal s h⟩)))
    · exact .inl ⟨_, _, execSret_illegal s h⟩
  | wfi =>
    rcases legal_or_illegal s.priv s.status.tw with h | h
    · exact .inr (.inr (.inr (.inr ⟨_, _, _, _, execWfi_legal s h⟩)))
    · exact .inl ⟨_, _, execWfi_illegal s h⟩
  | sfenceVma rs1 rs2 =>
    rcases legal_or_illegal s.priv s.status.tvm with h | h
    · exact .inr (.inr (.inr (.inr ⟨_, _, _, _, execSfenceVma_legal rs1 rs2 s h⟩)))
    · exact .inl ⟨_, _, execSfenceVma_illegal rs1 rs2 s h⟩
  | fence fm pred succ => exact .inr (.inr (.inr (.inr ⟨_, _, _, _, execFence_eq fm pred succ s⟩)))
  | fenceI => exact .inr (.inr (.inr (.inr ⟨_, _, _, _, execFenceI_eq s⟩)))

end Sys2Proof.Machine
end

