-- ==== Sys2Proof/Laws/Memory.lean ====
section
/-! SUPPORT. What the memory operations do: reading after writing, and the canonical form. -/

namespace Sys2Proof.Machine

/-- Reading after a store: the stored byte at its address, the old byte elsewhere. -/
theorem memRead_memWrite (m : Memory) (a k : Nat) (b : Byte) :
    memRead (memWrite m a b) k = if k = a then some b else memRead m k := by
  induction m with
  | nil => simp [memWrite, memRead]
  | cons c rest ih =>
    obtain ⟨j, v⟩ := c
    unfold memWrite
    split
    · simp only [memRead]
    · split
      · subst_vars
        simp only [memRead]
        split <;> rfl
      · simp only [memRead, ih]
        split
        · subst_vars
          rw [if_neg (by omega)]
        · rfl

/-- A canonical memory read below its first address has no value. -/
theorem memRead_below (m : Memory) (lo a : Nat) (h : Memory.wfFrom lo m = true) (ha : a < lo) :
    memRead m a = none := by
  induction m generalizing lo with
  | nil => rfl
  | cons c rest ih =>
    obtain ⟨j, v⟩ := c
    simp only [Memory.wfFrom, Bool.and_eq_true, decide_eq_true_eq] at h
    simp only [memRead]
    rw [if_neg (by omega)]
    exact ih (j + 1) h.2 (by omega)

/-- A store keeps the canonical form, from any lower bound of its address. -/
theorem wfFrom_memWrite (m : Memory) (lo a : Nat) (b : Byte) (h : Memory.wfFrom lo m = true) (hlo : lo ≤ a)
    (ha : a < 2 ^ 64) : Memory.wfFrom lo (memWrite m a b) = true := by
  induction m generalizing lo with
  | nil =>
    simp only [memWrite, Memory.wfFrom, Bool.and_eq_true, decide_eq_true_eq]
    exact ⟨⟨hlo, ha⟩, trivial⟩
  | cons c rest ih =>
    obtain ⟨j, v⟩ := c
    simp only [Memory.wfFrom, Bool.and_eq_true, decide_eq_true_eq] at h
    unfold memWrite
    split
    · simp only [Memory.wfFrom, Bool.and_eq_true, decide_eq_true_eq]
      exact ⟨⟨hlo, ha⟩, ⟨by omega, h.1.2⟩, h.2⟩
    · split
      · subst_vars
        simp only [Memory.wfFrom, Bool.and_eq_true, decide_eq_true_eq]
        exact ⟨⟨hlo, ha⟩, h.2⟩
      · simp only [Memory.wfFrom, Bool.and_eq_true, decide_eq_true_eq]
        exact ⟨h.1, ih (j + 1) h.2 (by omega)⟩

/-- A store keeps the canonical form. -/
theorem wf_memWrite (m : Memory) (a : Nat) (b : Byte) (h : m.wf = true) (ha : a < 2 ^ 64) :
    Memory.wf (memWrite m a b) = true :=
  wfFrom_memWrite m 0 a b h (Nat.zero_le a) ha

/-- A store to a 64-bit address keeps the canonical form. -/
theorem wf_memWrite_word (m : Memory) (a : Word) (b : Byte) (h : m.wf = true) :
    Memory.wf (memWrite m a.toNat b) = true :=
  wf_memWrite m a.toNat b h a.isLt

/-- `storeByte` keeps the canonical form. -/
theorem wf_storeByte (a : Word) (b : Byte) (s : State) (h : s.mem.wf = true) :
    (storeByte a b s).mem.wf = true :=
  wf_memWrite_word s.mem a b h

/-- `placeWord` keeps the canonical form. -/
theorem wf_placeWord (w : Word) (s : State) (h : s.mem.wf = true) : (placeWord w s).mem.wf = true := by
  unfold placeWord
  exact wf_memWrite_word _ _ _ (wf_memWrite_word _ _ _ (wf_memWrite_word _ _ _ (wf_memWrite_word _ _ _ h)))

/-- The memory after reset has the canonical form. -/
theorem wf_reset : State.reset.mem.wf = true := rfl

/-- `storeBytes` keeps the canonical form if the agents between its bytes do. -/
theorem wf_storeBytes (pairs : List (Word × Byte)) (between : List (List (Word × Byte))) (s : State)
    (agents : ∀ as u, u.mem.wf = true → (agentStores as u).mem.wf = true) (h : s.mem.wf = true) :
    (storeBytes pairs between s).mem.wf = true := by
  induction pairs generalizing between s with
  | nil => exact h
  | cons p rest ih =>
    obtain ⟨a, b⟩ := p
    exact ih _ _ (wf_storeByte a b _ (agents _ _ h))

/-- What reading several bytes answers: the bytes, in order. -/
theorem memReadAll_eq_some (m : Memory) (as : List Word) (bs : List Byte) :
    memReadAll m as = some bs ↔ as.map (fun a => memRead m a.toNat) = bs.map some := by
  induction as generalizing bs with
  | nil => cases bs <;> simp [memReadAll]
  | cons a rest ih =>
    cases h1 : memRead m a.toNat with
    | none => cases bs <;> simp [memReadAll, h1]
    | some b =>
      cases h2 : memReadAll m rest with
      | none =>
        cases bs with
        | nil => simp [memReadAll, h1, h2]
        | cons c cs =>
          have := (ih cs).not.mp (by simp [h2])
          simp [memReadAll, h1, h2, this]
      | some bs' =>
        cases bs with
        | nil => simp [memReadAll, h1, h2]
        | cons c cs =>
          have := ih cs
          rw [h2] at this
          simp only [Option.some.injEq] at this
          simp [memReadAll, h1, h2, this]

end Sys2Proof.Machine
end

