-- ==== Sys2Proof/Laws/PerInstr.lean ====
section
/-! SUPPORT. Facts about each instruction as a term: its encoding has the length that its first parcel says (R122). -/

namespace Sys2Proof.Laws.ParcelLength

/-- The encoding of an instruction has `ilen` bytes, and the length prefix of its first parcel says so (R122). -/
def Statement (i : Instr) : Prop :=
  (encode i).length = ilen i ∧
    ∃ b0 b1 rest, encode i = b0 :: b1 :: rest ∧ parcelLength (b1 ++ b0) = some (ilen i)

/-- A word whose low bits are the 32-bit length prefix. -/
theorem of_word (i : Instr) (h : ilen i = 4) (h1 : (encodeWord i).extractLsb' 0 2 = 3#2)
    (h2 : (encodeWord i).extractLsb' 2 3 ≠ 7#3) : Statement i := by
  have e : encode i = [(encodeWord i).extractLsb' 0 8, (encodeWord i).extractLsb' 8 8,
      (encodeWord i).extractLsb' 16 8, (encodeWord i).extractLsb' 24 8] := by
    unfold encode
    rw [h, Machine.leBytes_four]
  refine ⟨by rw [e, h]; rfl, _, _, _, e, ?_⟩
  rw [h]
  exact parcelLength_word _ h1 h2

/-- The low bits of a word that ends in an opcode. -/
theorem low_bits (hi : BitVec 25) (op : BitVec 7) :
    (hi ++ op : BitVec 32).extractLsb' 0 2 = op.extractLsb' 0 2 ∧
      (hi ++ op : BitVec 32).extractLsb' 2 3 = op.extractLsb' 2 3 := by
  constructor <;>
    (apply BitVec.eq_of_getLsbD_eq
     intro j hj
     simp only [BitVec.getLsbD_append, BitVec.getLsbD_extractLsb']
     interval_cases j <;> simp)

theorem csrrw (rd : Reg) (csr : CsrAddr) (rs1 : Reg) : Statement (.csrrw rd csr rs1) := by
  have e := low_bits (csr ++ rs1 ++ 0b001#3 ++ rd) 0b1110011#7
  exact of_word _ rfl (e.1.trans (by decide)) fun h => absurd (e.2.symm.trans h) (by decide)

theorem csrrs (rd : Reg) (csr : CsrAddr) (rs1 : Reg) : Statement (.csrrs rd csr rs1) := by
  have e := low_bits (csr ++ rs1 ++ 0b010#3 ++ rd) 0b1110011#7
  exact of_word _ rfl (e.1.trans (by decide)) fun h => absurd (e.2.symm.trans h) (by decide)

theorem csrrc (rd : Reg) (csr : CsrAddr) (rs1 : Reg) : Statement (.csrrc rd csr rs1) := by
  have e := low_bits (csr ++ rs1 ++ 0b011#3 ++ rd) 0b1110011#7
  exact of_word _ rfl (e.1.trans (by decide)) fun h => absurd (e.2.symm.trans h) (by decide)

theorem csrrwi (rd : Reg) (csr : CsrAddr) (uimm : BitVec 5) : Statement (.csrrwi rd csr uimm) := by
  have e := low_bits (csr ++ uimm ++ 0b101#3 ++ rd) 0b1110011#7
  exact of_word _ rfl (e.1.trans (by decide)) fun h => absurd (e.2.symm.trans h) (by decide)

theorem csrrsi (rd : Reg) (csr : CsrAddr) (uimm : BitVec 5) : Statement (.csrrsi rd csr uimm) := by
  have e := low_bits (csr ++ uimm ++ 0b110#3 ++ rd) 0b1110011#7
  exact of_word _ rfl (e.1.trans (by decide)) fun h => absurd (e.2.symm.trans h) (by decide)

theorem csrrci (rd : Reg) (csr : CsrAddr) (uimm : BitVec 5) : Statement (.csrrci rd csr uimm) := by
  have e := low_bits (csr ++ uimm ++ 0b111#3 ++ rd) 0b1110011#7
  exact of_word _ rfl (e.1.trans (by decide)) fun h => absurd (e.2.symm.trans h) (by decide)

theorem ecall : Statement .ecall := of_word _ rfl (by decide) (by decide)

theorem ebreak : Statement .ebreak := of_word _ rfl (by decide) (by decide)

theorem cEbreak : Statement .cEbreak := ⟨rfl, _, _, _, rfl, by decide⟩

theorem mret : Statement .mret := of_word _ rfl (by decide) (by decide)

theorem sret : Statement .sret := of_word _ rfl (by decide) (by decide)

theorem wfi : Statement .wfi := of_word _ rfl (by decide) (by decide)

theorem sfenceVma (rs1 rs2 : Reg) : Statement (.sfenceVma rs1 rs2) := by
  have e := low_bits (0b0001001#7 ++ rs2 ++ rs1 ++ 0b000#3 ++ 0b00000#5) 0b1110011#7
  exact of_word _ rfl (e.1.trans (by decide)) fun h => absurd (e.2.symm.trans h) (by decide)

theorem fence (fm pred succ : BitVec 4) : Statement (.fence fm pred succ) := by
  have e := low_bits (fm ++ pred ++ succ ++ 0b00000#5 ++ 0b000#3 ++ 0b00000#5) 0b0001111#7
  exact of_word _ rfl (e.1.trans (by decide)) fun h => absurd (e.2.symm.trans h) (by decide)

theorem fenceI : Statement .fenceI := of_word _ rfl (by decide) (by decide)

end Sys2Proof.Laws.ParcelLength
end

