-- ==== Sys2Proof/Laws/Fetch.lean ====
section
/-! SUPPORT. What a fetch reads: the bytes of memory at the pc where nothing is translated and no older byte is
picked. -/

namespace Sys2Proof.Machine

/-- The newest value of a byte is the one in memory (R105). -/
theorem codeByte_newest (a : Word) (s : State) : codeByte 0 a s = memRead s.mem a.toNat := by
  simp [codeByte]

/-- Translation does not apply in M-mode (R92). -/
theorem translateAccess_machine (c : Choice) (kind : AccessKind) (va : Word) (s : State) (h : c.fault = none) :
    translateAccess c kind .machine va s = .ok va none := by
  simp [translateAccess, translationActive, pmaCheck, h]

/-- A choice of an input whose fetch choices fail no PMA check fails none either, beyond the list's end too. -/
theorem fetchChoice_noFault (inp : Input) (n : Nat) (h : ∀ c ∈ inp.fetchChoices, c.fault = none) :
    (inp.fetchChoices.getD n .plain).fault = none := by
  rw [List.getD_eq_getElem?_getD]
  cases hc : inp.fetchChoices[n]? with
  | none => rfl
  | some c => exact h c (List.mem_of_getElem? hc)

/-- A parcel fetched in M-mode, with no fault and no older byte picked. -/
theorem fetchParcel_machine (inp : Input) (va : Word) (n : Nat) (s : State) (b0 b1 : Byte) (h : s.priv = .machine)
    (hf : ∀ c ∈ inp.fetchChoices, c.fault = none) (hc : inp.codePick = []) (m0 : mmAt s.cfg va = none)
    (m1 : mmAt s.cfg (va + 1) = none) (r0 : memRead s.mem va.toNat = some b0)
    (r1 : memRead s.mem (va + 1).toNat = some b1) : fetchParcel inp va n s = .ok b0 b1 none := by
  unfold fetchParcel
  rw [h, translateAccess_machine _ _ _ _ (fetchChoice_noFault inp (n / 2) hf)]
  simp only [m0, m1, hc, List.getD_nil, codeByte_newest, r0, r1]

/-- A 16-bit instruction fetched in M-mode. -/
theorem fetch_machine_two (inp : Input) (s : State) (b0 b1 : Byte) (hh : inp.hardwareError = false)
    (h : fetchParcel inp s.pc 0 s = .ok b0 b1 none) (hl : parcelLength (b1 ++ b0) = some 2) :
    fetch inp s = .bytes [b0, b1] s := by
  unfold fetch
  rw [hh, h]
  simp only [hl]
  rfl

/-- A 32-bit instruction fetched in M-mode. -/
theorem fetch_machine_four (inp : Input) (s : State) (b0 b1 b2 b3 : Byte) (hh : inp.hardwareError = false)
    (h : fetchParcel inp s.pc 0 s = .ok b0 b1 none) (hl : parcelLength (b1 ++ b0) = some 4)
    (h' : fetchParcel inp (s.pc + 2) 2 s = .ok b2 b3 none) : fetch inp s = .bytes [b0, b1, b2, b3] s := by
  unfold fetch
  rw [hh, h]
  simp only [hl, h']
  rfl

end Sys2Proof.Machine
end

