-- ==== Sys2Proof/Laws/Interrupts.lean ====
section
/-! SUPPORT. The parts of interrupt selection in the spec's terms (R411, R412). -/

namespace Sys2Proof.Machine

/-- A bit of `m_pend` (R411). -/
theorem mPending_bit (i : Irq) (s : State) : (mPending s).getLsbD (irqCode i) = true ↔ ReadyFor .machine i s := by
  have : irqCode i < 64 := by cases i <;> decide
  unfold mPending ReadyFor Ready
  simp [csrRead, this]

/-- A bit of `s_pend` (R411). -/
theorem sPending_bit (i : Irq) (s : State) : (sPending s).getLsbD (irqCode i) = true ↔ ReadyFor .supervisor i s := by
  unfold sPending ReadyFor Ready
  simp [csrRead]

/-- Whether interrupts into M-mode are enabled (R411). -/
theorem mEnabled_iff (s : State) : mEnabled s = true ↔ EnabledFor .machine s := by
  unfold mEnabled EnabledFor
  cases s.priv <;> simp

/-- Whether interrupts into S-mode are enabled (R411). -/
theorem sEnabled_iff (s : State) : sEnabled s = true ↔ EnabledFor .supervisor s := by
  unfold sEnabled EnabledFor
  cases s.priv <;> simp

/-- The highest-priority interrupt is set, and no set one comes before it (R412). -/
theorem highestPriority_eq_some (v : Word) (i : Irq) :
    highestPriority v = some i ↔
      v.getLsbD (irqCode i) = true ∧ ∀ j, v.getLsbD (irqCode j) = true → irqRank i ≤ irqRank j := by
  unfold highestPriority irqPriority
  simp only [List.find?]
  constructor
  · intro h
    repeat' split at h
    all_goals cases h
    all_goals refine ⟨by assumption, ?_⟩
    all_goals
      intro j hj
      cases j <;> simp_all [irqRank]
  · rintro ⟨h1, h2⟩
    have a1 := h2 .mei
    have a2 := h2 .msi
    have a3 := h2 .mti
    have a4 := h2 .sei
    have a5 := h2 .ssi
    have a6 := h2 .sti
    repeat' split
    all_goals cases i <;> simp_all [irqRank]

/-- There is no highest-priority interrupt where none is set. -/
theorem highestPriority_eq_none (v : Word) : highestPriority v = none ↔ ∀ j, v.getLsbD (irqCode j) = false := by
  unfold highestPriority irqPriority
  constructor
  · intro h j
    cases j <;> simp_all
  · intro h
    simp [h]

end Sys2Proof.Machine
end

