-- ==== Sys2Proof/Laws/Step.lean ====
section
/-! SUPPORT. What a step can do: the agents and the platform, an instruction of `BaseStep`, a fetch, and the cases of a
whole step (R359, R413, R414). -/

namespace Sys2Proof.Machine

/-- The control state that agents, time and the instructions of `BaseStep` leave as it is; of the status register only
`FS` may change. -/
structure KeepsControl (s t : State) : Prop where
  priv : t.priv = s.priv
  medeleg : t.medeleg = s.medeleg
  mideleg : t.mideleg = s.mideleg
  mie : t.mie = s.mie
  mtvec : t.mtvec = s.mtvec
  stvec : t.stvec = s.stvec
  mcounteren : t.mcounteren = s.mcounteren
  scounteren : t.scounteren = s.scounteren
  mcountinhibit : t.mcountinhibit = s.mcountinhibit
  mTrap : t.mTrap = s.mTrap
  sTrap : t.sTrap = s.sTrap
  mFIOM : t.mFIOM = s.mFIOM
  sFIOM : t.sFIOM = s.sFIOM
  satp : t.satp = s.satp
  frm : t.frm = s.frm
  wfiWaiting : t.wfiWaiting = s.wfiWaiting
  cfg : t.cfg = s.cfg
  fenceOut : t.fenceOut = s.fenceOut
  inputs : t.inputs = s.inputs
  tick : t.tick = s.tick
  status : t.status = { s.status with fs := t.status.fs }

/-- Nothing changed. -/
theorem KeepsControl.refl (s : State) : KeepsControl s s := by
  constructor <;> rfl

/-- One change after another. -/
theorem KeepsControl.trans {s t u : State} (h1 : KeepsControl s t) (h2 : KeepsControl t u) : KeepsControl s u where
  priv := h2.priv.trans h1.priv
  medeleg := h2.medeleg.trans h1.medeleg
  mideleg := h2.mideleg.trans h1.mideleg
  mie := h2.mie.trans h1.mie
  mtvec := h2.mtvec.trans h1.mtvec
  stvec := h2.stvec.trans h1.stvec
  mcounteren := h2.mcounteren.trans h1.mcounteren
  scounteren := h2.scounteren.trans h1.scounteren
  mcountinhibit := h2.mcountinhibit.trans h1.mcountinhibit
  mTrap := h2.mTrap.trans h1.mTrap
  sTrap := h2.sTrap.trans h1.sTrap
  mFIOM := h2.mFIOM.trans h1.mFIOM
  sFIOM := h2.sFIOM.trans h1.sFIOM
  satp := h2.satp.trans h1.satp
  frm := h2.frm.trans h1.frm
  wfiWaiting := h2.wfiWaiting.trans h1.wfiWaiting
  cfg := h2.cfg.trans h1.cfg
  fenceOut := h2.fenceOut.trans h1.fenceOut
  inputs := h2.inputs.trans h1.inputs
  tick := h2.tick.trans h1.tick
  status := by
    rw [h2.status, h1.status]

/-! ### Agents and time -/

/-- A write of a memory-mapped CSR keeps the control state. -/
theorem mmWrite_keeps (r : MmReg) (v : Word) (s : State) : KeepsControl s (mmWrite r v s) := by
  cases r <;> constructor <;> rfl

/-- An agent keeps the control state. -/
theorem applyAgent_keeps (a : AgentAction) (s : State) : KeepsControl s (applyAgent a s) := by
  cases a with
  | storeByte pa b =>
    unfold applyAgent
    simp only
    split
    · exact .refl s
    · constructor <;> rfl
  | cacheTranslation va =>
    unfold applyAgent
    simp only
    split
    · split
      · constructor <;> rfl
      · exact .refl s
      · exact .refl s
    · exact .refl s
  | writeMtime v => exact mmWrite_keeps .mtime v s
  | writeMtimecmp h v => exact mmWrite_keeps (.mtimecmp (cmpIndex s.cfg h)) v s
  | _ => constructor <;> rfl

/-- An agent leaves the registers and counters of the hart. -/
theorem applyAgent_registers (a : AgentAction) (s : State) :
    (applyAgent a s).pc = s.pc ∧ (applyAgent a s).x = s.x ∧ (applyAgent a s).f = s.f ∧
      (applyAgent a s).status = s.status ∧ (applyAgent a s).mcycle = s.mcycle ∧
      (applyAgent a s).minstret = s.minstret ∧ (applyAgent a s).mhpmcounter = s.mhpmcounter ∧
      (applyAgent a s).reservation = s.reservation ∧ (applyAgent a s).fflags = s.fflags := by
  cases a with
  | storeByte pa b =>
    unfold applyAgent
    simp only
    split <;> refine ⟨rfl, rfl, rfl, rfl, rfl, rfl, rfl, rfl, rfl⟩
  | cacheTranslation va =>
    unfold applyAgent
    simp only
    split
    · split <;> refine ⟨rfl, rfl, rfl, rfl, rfl, rfl, rfl, rfl, rfl⟩
    · refine ⟨rfl, rfl, rfl, rfl, rfl, rfl, rfl, rfl, rfl⟩
  | _ => exact ⟨rfl, rfl, rfl, rfl, rfl, rfl, rfl, rfl, rfl⟩

/-- An agent keeps the canonical form of memory. -/
theorem wf_applyAgent (a : AgentAction) (s : State) (h : s.mem.wf = true) : (applyAgent a s).mem.wf = true := by
  cases a with
  | storeByte pa b =>
    unfold applyAgent
    simp only
    split
    · exact h
    · exact wf_storeByte pa b s h
  | cacheTranslation va =>
    unfold applyAgent
    simp only
    split
    · split <;> exact h
    · exact h
  | _ => exact h

/-- The agents keep the control state. -/
theorem applyAgents_keeps (as : List AgentAction) (s : State) : KeepsControl s (applyAgents as s) := by
  induction as generalizing s with
  | nil => exact .refl s
  | cons a rest ih => exact (applyAgent_keeps a s).trans (ih (applyAgent a s))

/-- The agents leave the registers and counters of the hart. -/
theorem applyAgents_registers (as : List AgentAction) (s : State) :
    (applyAgents as s).pc = s.pc ∧ (applyAgents as s).x = s.x ∧ (applyAgents as s).f = s.f ∧
      (applyAgents as s).status = s.status ∧ (applyAgents as s).mcycle = s.mcycle ∧
      (applyAgents as s).minstret = s.minstret ∧ (applyAgents as s).mhpmcounter = s.mhpmcounter ∧
      (applyAgents as s).reservation = s.reservation ∧ (applyAgents as s).fflags = s.fflags := by
  induction as generalizing s with
  | nil => exact ⟨rfl, rfl, rfl, rfl, rfl, rfl, rfl, rfl, rfl⟩
  | cons a rest ih =>
    obtain ⟨h1, h2, h3, h4, h5, h6, h7, h8, h9⟩ := applyAgent_registers a s
    obtain ⟨k1, k2, k3, k4, k5, k6, k7, k8, k9⟩ := ih (applyAgent a s)
    exact ⟨k1.trans h1, k2.trans h2, k3.trans h3, k4.trans h4, k5.trans h5, k6.trans h6, k7.trans h7, k8.trans h8,
      k9.trans h9⟩

/-- The agents keep the canonical form of memory. -/
theorem wf_applyAgents (as : List AgentAction) (s : State) (h : s.mem.wf = true) :
    (applyAgents as s).mem.wf = true := by
  induction as generalizing s with
  | nil => exact h
  | cons a rest ih => exact ih _ (wf_applyAgent a s h)

/-- Agents that do not write `mtime` leave it as it is (R444). -/
theorem applyAgents_mtime (as : List AgentAction) (s : State) (h : ∀ v, .writeMtime v ∉ as) :
    (applyAgents as s).mtime = s.mtime := by
  induction as generalizing s with
  | nil => rfl
  | cons a rest ih =>
    have one : (applyAgent a s).mtime = s.mtime := by
      cases a with
      | writeMtime v => exact absurd (List.mem_cons_self ..) (h v)
      | storeByte pa b =>
        unfold applyAgent
        simp only
        split <;> rfl
      | cacheTranslation va =>
        unfold applyAgent
        simp only
        split
        · split <;> rfl
        · rfl
      | _ => rfl
    exact (ih _ fun v hv => h v (List.mem_cons_of_mem _ hv)).trans one

/-- Time keeps the control state. -/
theorem advanceCounters_keeps (inp : Input) (s : State) : KeepsControl s (advanceCounters inp s) := by
  constructor <;> rfl

/-- The timer rule keeps the control state. -/
theorem updateMtip_keeps (s : State) : KeepsControl s (updateMtip s) := by
  constructor <;> rfl

/-- The platform keeps the control state. -/
theorem platformStep_keeps (inp : Input) (s : State) : KeepsControl s (platformStep inp s) :=
  ((applyAgents_keeps inp.actions s).trans (advanceCounters_keeps inp _)).trans (updateMtip_keeps _)

/-- The platform leaves the pc and the whole status register. -/
theorem platformStep_registers (inp : Input) (s : State) :
    (platformStep inp s).pc = s.pc ∧ (platformStep inp s).status = s.status ∧ (platformStep inp s).x = s.x ∧
      (platformStep inp s).f = s.f ∧ (platformStep inp s).minstret = s.minstret := by
  obtain ⟨h1, h2, h3, h4, -, h6, -⟩ := applyAgents_registers inp.actions s
  exact ⟨h1, h4, h2, h3, h6⟩

/-- The platform keeps the canonical form of memory. -/
theorem wf_platformStep (inp : Input) (s : State) (h : s.mem.wf = true) : (platformStep inp s).mem.wf = true :=
  wf_applyAgents inp.actions s h

/-! ### Instructions of `BaseStep` -/

/-- Writing general registers keeps the control state and memory. -/
theorem foldl_writeX_keeps (l : List (Reg × Word)) (s : State) :
    KeepsControl s (l.foldl (fun s w => writeX w.1 w.2 s) s) ∧
      (l.foldl (fun s w => writeX w.1 w.2 s) s).mem = s.mem ∧
      (l.foldl (fun s w => writeX w.1 w.2 s) s).pc = s.pc ∧
      l.foldl (fun s w => writeX w.1 w.2 s) s = { s with x := (l.foldl (fun s w => writeX w.1 w.2 s) s).x } := by
  induction l generalizing s with
  | nil => exact ⟨.refl s, rfl, rfl, rfl⟩
  | cons w rest ih =>
    obtain ⟨h1, h2, h3, h4⟩ := ih (writeX w.1 w.2 s)
    refine ⟨KeepsControl.trans (by constructor <;> rfl) h1, h2, h3, ?_⟩
    exact h4.trans rfl

/-- Writing floating-point registers keeps the control state and memory. -/
theorem foldl_writeF_keeps (l : List (Reg × Word)) (s : State) :
    KeepsControl s (l.foldl (fun s w => writeF w.1 w.2 s) s) ∧
      (l.foldl (fun s w => writeF w.1 w.2 s) s).mem = s.mem ∧
      (l.foldl (fun s w => writeF w.1 w.2 s) s).pc = s.pc ∧
      l.foldl (fun s w => writeF w.1 w.2 s) s = { s with f := (l.foldl (fun s w => writeF w.1 w.2 s) s).f } := by
  induction l generalizing s with
  | nil => exact ⟨.refl s, rfl, rfl, rfl⟩
  | cons w rest ih =>
    obtain ⟨h1, h2, h3, h4⟩ := ih (writeF w.1 w.2 s)
    refine ⟨KeepsControl.trans (by constructor <;> rfl) h1, h2, h3, ?_⟩
    exact h4.trans rfl

/-- What the rest of a retiring instruction changes (R359). -/
theorem applyRetire_eq (len : Nat) (r : BaseRetire) (s : State) :
    applyRetire len r s = { s with
      x := (applyRetire len r s).x
      f := (applyRetire len r s).f
      fflags := s.fflags ||| r.flags
      status := { s.status with fs := retiredFs r s }
      reservation := r.reservation.getD s.reservation
      pc :=
        match r.nextPc with
        | some t => t &&& ~~~(1 : Word)
        | none => s.pc + BitVec.ofNat 64 len } := by
  unfold applyRetire
  simp only
  rw [(foldl_writeF_keeps r.fWrites _).2.2.2, (foldl_writeX_keeps r.xWrites s).2.2.2]
  rfl

/-- The rest of a retiring instruction keeps the control state. -/
theorem applyRetire_keeps (len : Nat) (r : BaseRetire) (s : State) : KeepsControl s (applyRetire len r s) := by
  rw [applyRetire_eq]
  constructor <;> rfl

/-- The pc stays even (R23). -/
theorem applyRetire_pc_even (len : Nat) (r : BaseRetire) (s : State) (hl : len % 2 = 0)
    (h : s.pc.getLsbD 0 = false) : (applyRetire len r s).pc.getLsbD 0 = false := by
  rw [applyRetire_eq]
  simp only
  cases r.nextPc with
  | some t =>
    rw [BitVec.getLsbD_and]
    simp
  | none =>
    have : (BitVec.ofNat 64 len).getLsbD 0 = false := by
      rw [BitVec.getLsbD_ofNat, Nat.testBit_zero]
      simp [hl]
    simp only [BitVec.getLsbD_add (by decide : 0 < 64), h, this]
    simp

/-- Only memory changed, with the old values that a fetch may still see: no byte outside `touched`, no byte lost its
value, the canonical form kept. -/
structure StoresOnly (touched : Nat → Prop) (s t : State) : Prop where
  rest : t = { s with mem := t.mem, staleCode := t.staleCode }
  frame : ∀ k, ¬touched k → memRead t.mem k = memRead s.mem k
  valued : ∀ k, memRead s.mem k ≠ none → memRead t.mem k ≠ none
  wf : s.mem.wf = true → t.mem.wf = true

/-- Nothing stored. -/
theorem StoresOnly.refl (touched : Nat → Prop) (s : State) : StoresOnly touched s s where
  rest := rfl
  frame _ _ := rfl
  valued _ := id
  wf := id

/-- Stores after stores. -/
theorem StoresOnly.trans {touched : Nat → Prop} {s t u : State} (h1 : StoresOnly touched s t)
    (h2 : StoresOnly touched t u) : StoresOnly touched s u where
  rest := by
    have e := h2.rest
    rw [h1.rest] at e
    exact e
  frame k hk := (h2.frame k hk).trans (h1.frame k hk)
  valued k hk := h2.valued k (h1.valued k hk)
  wf hw := h2.wf (h1.wf hw)

/-- Stores touch no more than a larger set. -/
theorem StoresOnly.mono {A B : Nat → Prop} {s t : State} (h : StoresOnly A s t) (hab : ∀ k, A k → B k) :
    StoresOnly B s t :=
  { h with frame := fun k hk => h.frame k fun ha => hk (hab k ha) }

/-- Stores keep the control state. -/
theorem StoresOnly.keeps {touched : Nat → Prop} {s t : State} (h : StoresOnly touched s t) : KeepsControl s t := by
  rw [h.rest]
  constructor <;> rfl

/-- Stores keep the pc. -/
theorem StoresOnly.pc {touched : Nat → Prop} {s t : State} (h : StoresOnly touched s t) : t.pc = s.pc := by
  rw [h.rest]

/-- One byte stored. -/
theorem storeByte_storesOnly (a : Word) (b : Byte) (s : State) : StoresOnly (a.toNat = ·) s (storeByte a b s) where
  rest := rfl
  frame k hk := by
    rw [storeByte_mem, memRead_memWrite, if_neg (Ne.symm hk)]
  valued k hk := by
    rw [storeByte_mem, memRead_memWrite]
    split
    · exact Option.some_ne_none b
    · exact hk
  wf := wf_storeByte a b s

/-- What agents do between two bytes of an access (U12, R414). -/
theorem agentStores_storesOnly (l : List (Word × Byte)) (s : State) :
    StoresOnly (fun k => ∃ p ∈ l, p.1.toNat = k) s (agentStores l s) := by
  induction l generalizing s with
  | nil => exact .refl _ s
  | cons p rest ih =>
    have first : StoresOnly (fun k => ∃ q ∈ p :: rest, q.1.toNat = k) s (applyAgent (.storeByte p.1 p.2) s) := by
      unfold applyAgent
      simp only
      split
      · exact .refl _ s
      · exact (storeByte_storesOnly p.1 p.2 s).mono fun k hk => ⟨p, List.mem_cons_self .., hk⟩
    exact first.trans ((ih _).mono fun k ⟨q, hq, hk⟩ => ⟨q, List.mem_cons_of_mem _ hq, hk⟩)

/-- The addresses that a schedule of agents' stores touches. -/
def Scheduled (between : List (List (Word × Byte))) (k : Nat) : Prop := ∃ l ∈ between, ∃ p ∈ l, p.1.toNat = k

/-- The first entry of a schedule is part of it. -/
theorem scheduled_head (between : List (List (Word × Byte))) (k : Nat)
    (h : ∃ p ∈ between.headD [], p.1.toNat = k) : Scheduled between k := by
  cases between with
  | nil =>
    obtain ⟨p, hp, -⟩ := h
    cases hp
  | cons l rest => exact ⟨l, List.mem_cons_self .., h⟩

/-- The rest of a schedule is part of it. -/
theorem scheduled_tail (between : List (List (Word × Byte))) (k : Nat) (h : Scheduled between.tail k) :
    Scheduled between k := by
  cases between with
  | nil => exact h
  | cons l rest =>
    obtain ⟨m, hm, hk⟩ := h
    exact ⟨m, List.mem_cons_of_mem _ hm, hk⟩

/-- Reading bytes changes what the agents store in between and nothing else. -/
theorem loadBytes_storesOnly (pas : List Word) (between : List (List (Word × Byte))) (s t : State) (bs : List Byte)
    (h : loadBytes pas between s = some (bs, t)) : StoresOnly (Scheduled between) s t := by
  induction pas generalizing between s bs with
  | nil =>
    cases h
    exact .refl _ _
  | cons pa rest ih =>
    simp only [loadBytes] at h
    split at h
    · cases h
    · split at h
      · cases h
      · rename_i hr
        cases h
        exact ((agentStores_storesOnly _ s).mono (scheduled_head between)).trans
          ((ih _ _ _ hr).mono (scheduled_tail between))

/-- Reading bytes succeeds where each has a value. -/
theorem loadBytes_isSome (pas : List Word) (between : List (List (Word × Byte))) (s : State)
    (h : ∀ pa ∈ pas, memRead s.mem pa.toNat ≠ none) : loadBytes pas between s ≠ none := by
  induction pas generalizing between s with
  | nil => exact Option.some_ne_none _
  | cons pa rest ih =>
    have k := agentStores_storesOnly (between.headD []) s
    simp only [loadBytes]
    split
    · rename_i hn
      exact absurd hn (k.valued _ (h pa (List.mem_cons_self ..)))
    · split
      · rename_i hn
        exact absurd hn (ih _ _ fun q hq => k.valued _ (h q (List.mem_cons_of_mem _ hq)))
      · exact Option.some_ne_none _

/-- Storing bytes changes those bytes, what the agents store in between, and nothing else. -/
theorem storeBytes_storesOnly (l : List (Word × Byte)) (between : List (List (Word × Byte))) (s : State) :
    StoresOnly (fun k => (∃ p ∈ l, p.1.toNat = k) ∨ Scheduled between k) s (storeBytes l between s) := by
  induction l generalizing between s with
  | nil => exact .refl _ _
  | cons c rest ih =>
    have own : StoresOnly (fun k => (∃ p ∈ c :: rest, p.1.toNat = k) ∨ Scheduled between k) s
        (storeByte c.1 c.2 (agentStores (between.headD []) s)) :=
      ((agentStores_storesOnly _ s).mono fun k hk => .inr (scheduled_head between k hk)).trans
        ((storeByte_storesOnly _ _ _).mono fun k hk => .inl ⟨c, List.mem_cons_self .., hk⟩)
    refine own.trans ((ih between.tail _).mono ?_)
    rintro k (⟨p, hp, hk⟩ | hk)
    · exact .inl ⟨p, List.mem_cons_of_mem _ hp, hk⟩
    · exact .inr (scheduled_tail between k hk)

/-- Caching leaves changes the cache alone. -/
theorem foldl_applyFill_eq (fills : List (Option TlbEntry)) (s : State) :
    fills.foldl (fun s f => applyFill f s) s =
      { s with tlb := (fills.foldl (fun s f => applyFill f s) s).tlb } := by
  induction fills generalizing s with
  | nil => rfl
  | cons f rest ih => exact (ih (applyFill f s)).trans rfl

/-- Writing a loaded value changes the general registers alone. -/
theorem writeLoaded_eq (a : Access) (v : Word) (s : State) :
    writeLoaded a v s = { s with x := (writeLoaded a v s).x } := by
  unfold writeLoaded
  split <;> rfl

/-- Writing a loaded value keeps the control state, the pc and memory. -/
theorem writeLoaded_keeps (a : Access) (v : Word) (s : State) :
    KeepsControl s (writeLoaded a v s) ∧ (writeLoaded a v s).pc = s.pc ∧ (writeLoaded a v s).mem = s.mem := by
  unfold writeLoaded
  split
  · exact ⟨.refl s, rfl, rfl⟩
  · exact ⟨by constructor <;> rfl, rfl, rfl⟩

/-- The addresses that a data access may change: those it stores to, and, where it is misaligned, those that other
agents store to in between (U12). -/
def AccessTouches (a : Access) (pas : List Word) (k : Nat) : Prop :=
  (accessWrites a.op = true ∧ ∃ pa ∈ pas, pa.toNat = k) ∨ (accessAligned a = false ∧ Scheduled a.between k)

/-- The schedule of an access, which an aligned one ignores. -/
theorem accessSchedule (a : Access) (pas : List Word) (k : Nat)
    (h : Scheduled (if accessAligned a then [] else a.between) k) : AccessTouches a pas k := by
  cases ha : accessAligned a with
  | false =>
    rw [ha] at h
    exact .inr ⟨ha, h⟩
  | true =>
    rw [ha] at h
    obtain ⟨l, hl, -⟩ := h
    cases hl

/-- What reading memory changes. -/
theorem memoryLoad_storesOnly (a : Access) (pas : List Word) (s t : State) (v : Word)
    (h : memoryLoad a pas s = some (v, t)) : StoresOnly (AccessTouches a pas) s t := by
  unfold memoryLoad at h
  split at h
  · split at h
    · cases h
    · rename_i hl
      cases h
      exact (loadBytes_storesOnly _ _ _ _ _ hl).mono (accessSchedule a pas)
  · cases h
    exact .refl _ s

/-- Reading memory succeeds where each byte has a value. -/
theorem memoryLoad_isSome (a : Access) (pas : List Word) (s : State)
    (h : accessReads a.op = true → ∀ pa ∈ pas, memRead s.mem pa.toNat ≠ none) : memoryLoad a pas s ≠ none := by
  unfold memoryLoad
  split
  · rename_i hr
    split
    · rename_i hn
      exact absurd hn (loadBytes_isSome _ _ _ (h hr))
    · exact Option.some_ne_none _
  · exact Option.some_ne_none _

/-- What writing memory changes. -/
theorem memoryStore_storesOnly (a : Access) (pas : List Word) (s : State) :
    StoresOnly (AccessTouches a pas) s (memoryStore a pas s) := by
  unfold memoryStore
  split
  · rename_i hw
    refine (storeBytes_storesOnly _ _ s).mono ?_
    rintro k (⟨p, hp, hk⟩ | hk)
    · exact .inl ⟨hw, p.1, (List.of_mem_zip hp).1, hk⟩
    · exact accessSchedule a pas k hk
  · exact .refl _ s

/-- What a retiring instruction of `BaseStep` keeps (R359). -/
structure BaseKeeps (len : Nat) (s t : State) : Prop where
  control : KeepsControl s t
  pcEven : len % 2 = 0 → s.pc.getLsbD 0 = false → t.pc.getLsbD 0 = false
  memory : s.mem.wf = true → t.mem.wf = true

/-- A data access that reached its addresses, where it goes on. -/
theorem performAccess_keeps (len : Nat) (a : Access) (r : BaseRetire) (pas : List Word) (s t : State)
    (h : performAccess len a r pas s = .next t) : BaseKeeps len s t := by
  have finish : ∀ (v : Word) (u : State), KeepsControl s u → u.pc = s.pc → (s.mem.wf = true → u.mem.wf = true) →
      BaseKeeps len s (retire false (writeLoaded a v (applyRetire len r u))) := by
    intro v u hk hp hw
    obtain ⟨w1, w2, w3⟩ := writeLoaded_keeps a v (applyRetire len r u)
    refine ⟨((hk.trans (applyRetire_keeps len r u)).trans w1).trans (by constructor <;> rfl), ?_, ?_⟩
    · intro hl he
      rw [retire_pc, w2]
      exact applyRetire_pc_even len r u hl (by rw [hp]; exact he)
    · intro hm
      rw [retire_mem, w3, applyRetire_eq]
      exact hw hm
  unfold performAccess at h
  split at h
  · cases h
  · cases h
    apply finish
    · split
      · exact mmWrite_keeps _ _ s
      · exact .refl s
    · split
      · rename_i reg _ _ _
        cases reg <;> rfl
      · rfl
    · intro hm
      split
      · rename_i reg _ _ _
        cases reg <;> exact hm
      · exact hm
  · split at h
    · cases h
    · rename_i hl
      cases h
      have k := (memoryLoad_storesOnly _ _ _ _ _ hl).trans (memoryStore_storesOnly a pas _)
      exact finish _ _ k.keeps k.pc k.wf

/-- What an instruction of `BaseStep` can answer with a next state: a trap, or retirement within R359. -/
theorem baseStep_cases (inp : Input) (len : Nat) (bits : Word) (s t : State)
    (h : baseStep inp len bits s = .next t) :
    (∃ e v, t = takeTrap (.exc e) v s) ∨ BaseKeeps len s t := by
  unfold baseStep at h
  split at h
  · cases h
    exact .inl ⟨_, _, rfl⟩
  · cases h
    right
    refine ⟨(applyRetire_keeps len _ s).trans (by constructor <;> rfl), ?_, ?_⟩
    · intro hl he
      rw [retire_pc]
      exact applyRetire_pc_even len _ s hl he
    · intro hm
      rw [retire_mem, applyRetire_eq]
      exact hm
  · unfold baseAccess at h
    split at h
    · cases h
      exact .inl ⟨_, _, rfl⟩
    · split at h
      · cases h
        exact .inl ⟨_, _, rfl⟩
      · cases h
      · right
        rw [foldl_applyFill_eq] at h
        have k := performAccess_keeps _ _ _ _ _ _ h
        exact ⟨KeepsControl.trans (by constructor <;> rfl) k.control, k.pcEven, k.memory⟩

/-! ### Fetch -/

/-- A fetch changes the cache of translations alone. -/
theorem fetch_bytes_eq (inp : Input) (s v : State) (bs : List Byte) (h : fetch inp s = .bytes bs v) :
    v = { s with tlb := v.tlb } := by
  unfold fetch at h
  split at h
  · cases h
  · split at h
    · cases h
    · cases h
    · cases h
    · split at h
      · cases h
      · cases h
        rfl
      · split at h
        · cases h
        · cases h
        · cases h
        · cases h
          rfl

/-- The first parcel of a longer encoding changes the cache of translations alone. -/
theorem fetch_tooLong_eq (inp : Input) (s v : State) (h : fetch inp s = .tooLong v) : v = { s with tlb := v.tlb } := by
  unfold fetch at h
  split at h
  · cases h
  · split at h
    · cases h
    · cases h
    · cases h
    · split at h
      · cases h
        rfl
      · cases h
      · split at h <;> cases h

/-- What fetching and executing can answer with a next state. -/
theorem fetchExecute_cases (inp : Input) (s t : State) (h : fetchExecute inp s = .next t) :
    (∃ e val tlb, t = takeTrap (.exc e) val { s with tlb := tlb }) ∨
    (∃ bs v i rest, fetch inp s = .bytes bs v ∧ decode bs = .ok (i, rest) ∧ exec i v = .next t) ∨
    (∃ tlb len, len % 2 = 0 ∧ BaseKeeps len { s with tlb := tlb } t) := by
  unfold fetchExecute at h
  split at h
  · rename_i bs v hf
    have hv := fetch_bytes_eq inp s v bs hf
    unfold executeBytes at h
    split at h
    · rename_i hd
      exact .inr (.inl ⟨_, _, _, _, hf, hd, h⟩)
    · cases h
      rw [hv]
      exact .inl ⟨_, _, _, rfl⟩
    · cases h
      rw [hv]
      exact .inl ⟨_, _, _, rfl⟩
    · cases h
      rw [hv]
      exact .inl ⟨_, _, _, rfl⟩
    · rw [hv] at h
      rcases baseStep_cases _ _ _ _ _ h with ⟨e, val, ht⟩ | hk
      · exact .inl ⟨e, val, _, ht⟩
      · exact .inr (.inr ⟨_, 2, by decide, hk⟩)
    · rw [hv] at h
      rcases baseStep_cases _ _ _ _ _ h with ⟨e, val, ht⟩ | hk
      · exact .inl ⟨e, val, _, ht⟩
      · exact .inr (.inr ⟨_, 4, by decide, hk⟩)
    · cases h
      rw [hv]
      exact .inl ⟨_, _, _, rfl⟩
  · rename_i v hf
    cases h
    rw [fetch_tooLong_eq inp s v hf]
    exact .inl ⟨_, _, _, rfl⟩
  · cases h
    exact .inl ⟨_, _, s.tlb, rfl⟩
  · cases h
  · cases h

/-! ### The whole step -/

/-- The state after the platform has acted and any wait has ended: where an instruction is fetched. -/
def atBoundary (s : State) : State := { platformStep (nextInput s) (popInput s) with wfiWaiting := false }

/-- The boundary in which no reset and no interrupt comes between. -/
theorem boundary_ready (s u : State) (h : boundary s = .ready u) : u = atBoundary s := by
  unfold boundary hartBoundary at h
  split at h
  · cases h
  · split at h
    · cases h
    · split at h
      · cases h
      · cases h
        rfl

/-- The cases of a step that answers a next state (R414). -/
theorem step_cases (s t : State) (h : step s = .next t) :
    (∃ draw, (nextInput s).reset = some draw ∧ t = resetHart draw (platformStep (nextInput s) (popInput s))) ∨
    t = platformStep (nextInput s) (popInput s) ∨
    (∃ i, t = takeTrap (.irq i) 0 (atBoundary s)) ∨
    (boundary s = .ready (atBoundary s) ∧ fetchExecute (nextInput s) (atBoundary s) = .next t) := by
  unfold step at h
  cases hb : boundary s with
  | ready u =>
    rw [hb] at h
    have e := boundary_ready s u hb
    subst e
    exact .inr (.inr (.inr ⟨rfl, h⟩))
  | ended u =>
    rw [hb] at h
    cases h
    unfold boundary hartBoundary at hb
    split at hb
    · rename_i draw hr
      cases hb
      exact .inl ⟨draw, hr, rfl⟩
    · split at hb
      · cases hb
        exact .inr (.inl rfl)
      · split at hb
        · cases hb
          exact .inr (.inr (.inl ⟨_, rfl⟩))
        · cases hb

/-- The control state at the boundary, but for the end of a wait. -/
theorem atBoundary_keeps (s : State) :
    KeepsControl { s with wfiWaiting := false, inputs := s.inputs.tail, tick := s.tick + 1 } (atBoundary s) := by
  have k := platformStep_keeps (nextInput s) (popInput s)
  exact { k with wfiWaiting := rfl }

end Sys2Proof.Machine
end

