-- ==== Sys2Proof/Laws/Sound.lean ====
section
/-! SUPPORT. What keeps a state sound: changes outside the control state, and taking a trap. -/

namespace Sys2Proof.Machine

/-- A change that keeps the control state, an even pc and the memory's form keeps soundness. -/
theorem Sound.of_keeps {s t : State} (k : KeepsControl s t) (hp : s.pc.getLsbD 0 = false → t.pc.getLsbD 0 = false)
    (hm : s.mem.wf = true → t.mem.wf = true) (h : Sound s) : Sound t := by
  have mprv : t.status.mprv = s.status.mprv := by rw [k.status]
  have vs : t.status.vs = s.status.vs := by rw [k.status]
  exact {
    config := by rw [k.cfg]; exact h.config
    memory := hm h.memory
    pcEven := hp h.pcEven
    mprvMachine := by rw [mprv, k.priv]; exact h.mprvMachine
    vsZero := by rw [vs, k.cfg]; exact h.vsZero
    medelegMasked := by rw [k.cfg, k.medeleg]; exact h.medelegMasked
    medelegEcallM := by rw [k.medeleg]; exact h.medelegEcallM
    midelegMasked := by rw [k.cfg, k.mideleg]; exact h.midelegMasked
    inhibitTime := by rw [k.mcountinhibit]; exact h.inhibitTime
    mtvecMasked := by rw [k.cfg, k.mtvec]; exact h.mtvecMasked
    stvecMasked := by rw [k.cfg, k.stvec]; exact h.stvecMasked
    satpMasked := by rw [k.cfg, k.satp]; exact h.satpMasked }

/-- The state at the boundary is sound. -/
theorem Sound.atBoundary {s : State} (h : Sound s) : Sound (atBoundary s) :=
  Sound.of_keeps (s := { s with wfiWaiting := false, inputs := s.inputs.tail, tick := s.tick + 1 })
    (atBoundary_keeps s) (fun k => (platformStep_registers (nextInput s) (popInput s)).1 ▸ k)
    (fun k => wf_platformStep (nextInput s) (popInput s) k) { h with }

/-- Taking a trap keeps soundness. -/
theorem Sound.takeTrap {s : State} (c : Cause) (tval : Word) (h : Sound s) : Sound (takeTrap c tval s) where
  config := by simp only [takeTrap_cfg]; exact h.config
  memory := by simp only [takeTrap_mem]; exact h.memory
  pcEven := takeTrap_pc_even c tval s
  mprvMachine := by
    rw [takeTrap_status]
    intro k
    rw [takeTrap_machine c tval s (h.mprvMachine k)]
    rfl
  vsZero := by
    rw [takeTrap_status, takeTrap_cfg]
    exact h.vsZero
  medelegMasked := by simp only [takeTrap_cfg, takeTrap_medeleg]; exact h.medelegMasked
  medelegEcallM := by simp only [takeTrap_medeleg]; exact h.medelegEcallM
  midelegMasked := by simp only [takeTrap_cfg, takeTrap_mideleg]; exact h.midelegMasked
  inhibitTime := by simp only [takeTrap_mcountinhibit]; exact h.inhibitTime
  mtvecMasked := by simp only [takeTrap_cfg, takeTrap_mtvec]; exact h.mtvecMasked
  stvecMasked := by simp only [takeTrap_cfg, takeTrap_stvec]; exact h.stvecMasked
  satpMasked := by simp only [takeTrap_cfg, takeTrap_satp]; exact h.satpMasked

end Sys2Proof.Machine
end

