-- ==== Sys2Proof/Machine/Assembly.lean ====
section
/-! DEFINITION. The assembly language of the instructions (R131) and the pseudo-instructions (R132). No step reads it.
Both rules are general knowledge that the spec states (its item G1). -/

namespace Sys2Proof.Machine

/-- The name of a CSR (R29). -/
def csrName : Csr → String
  | .mvendorid => "mvendorid"
  | .marchid => "marchid"
  | .mimpid => "mimpid"
  | .mhartid => "mhartid"
  | .mconfigptr => "mconfigptr"
  | .mstatus => "mstatus"
  | .misa => "misa"
  | .medeleg => "medeleg"
  | .mideleg => "mideleg"
  | .mie => "mie"
  | .mtvec => "mtvec"
  | .mcounteren => "mcounteren"
  | .menvcfg => "menvcfg"
  | .mcountinhibit => "mcountinhibit"
  | .mhpmevent i => "mhpmevent" ++ toString (i.val + 3)
  | .mscratch => "mscratch"
  | .mepc => "mepc"
  | .mcause => "mcause"
  | .mtval => "mtval"
  | .mip => "mip"
  | .mcycle => "mcycle"
  | .minstret => "minstret"
  | .mhpmcounter i => "mhpmcounter" ++ toString (i.val + 3)
  | .sstatus => "sstatus"
  | .sie => "sie"
  | .stvec => "stvec"
  | .scounteren => "scounteren"
  | .senvcfg => "senvcfg"
  | .sscratch => "sscratch"
  | .sepc => "sepc"
  | .scause => "scause"
  | .stval => "stval"
  | .sip => "sip"
  | .satp => "satp"
  | .fflags => "fflags"
  | .frm => "frm"
  | .fcsr => "fcsr"
  | .cycle => "cycle"
  | .time => "time"
  | .instret => "instret"
  | .hpmcounter i => "hpmcounter" ++ toString (i.val + 3)

/-- A CSR operand: the register's name, or its number where the address has none (R131). -/
def csrText (a : CsrAddr) : String :=
  match csrOfAddr a with
  | some c => csrName c
  | none => toString a.toNat

/-- A register operand. -/
def regText (r : Reg) : String := "x" ++ toString r.toNat

/-- One of FENCE's sets: the letters of `iorw`, from bits 3 to 0 (R131). -/
def fenceSetText (v : BitVec 4) : String :=
  (if v.getLsbD 3 then "i" else "") ++ (if v.getLsbD 2 then "o" else "") ++ (if v.getLsbD 1 then "r" else "") ++
    (if v.getLsbD 0 then "w" else "")

/-- An instruction's text, the destination first (R131). A FENCE with an `fm` other than 0 or an empty set has no text
there. -/
def asmText : Instr → Option String
  | .csrrw rd csr rs1 => some ("csrrw " ++ regText rd ++ ", " ++ csrText csr ++ ", " ++ regText rs1)
  | .csrrs rd csr rs1 => some ("csrrs " ++ regText rd ++ ", " ++ csrText csr ++ ", " ++ regText rs1)
  | .csrrc rd csr rs1 => some ("csrrc " ++ regText rd ++ ", " ++ csrText csr ++ ", " ++ regText rs1)
  | .csrrwi rd csr uimm => some ("csrrwi " ++ regText rd ++ ", " ++ csrText csr ++ ", " ++ toString uimm.toNat)
  | .csrrsi rd csr uimm => some ("csrrsi " ++ regText rd ++ ", " ++ csrText csr ++ ", " ++ toString uimm.toNat)
  | .csrrci rd csr uimm => some ("csrrci " ++ regText rd ++ ", " ++ csrText csr ++ ", " ++ toString uimm.toNat)
  | .ecall => some "ecall"
  | .ebreak => some "ebreak"
  | .cEbreak => some "c.ebreak"
  | .mret => some "mret"
  | .sret => some "sret"
  | .wfi => some "wfi"
  | .sfenceVma rs1 rs2 => some ("sfence.vma " ++ regText rs1 ++ ", " ++ regText rs2)
  | .fence fm pred succ =>
    if fm = 0 ∧ pred ≠ 0 ∧ succ ≠ 0 then some ("fence " ++ fenceSetText pred ++ ", " ++ fenceSetText succ) else none
  | .fenceI => some "fence.i"

/-- The pseudo-instructions (R132), and the forms of R131 with operands left out. A form without `rd` has its own
constructor, whose name ends in `0`. -/
inductive Pseudo where
  | csrr (rd : Reg) (csr : CsrAddr)
  | csrw (csr : CsrAddr) (rs : Reg)
  | csrs (csr : CsrAddr) (rs : Reg)
  | csrc (csr : CsrAddr) (rs : Reg)
  | csrwi (csr : CsrAddr) (uimm : BitVec 5)
  | csrsi (csr : CsrAddr) (uimm : BitVec 5)
  | csrci (csr : CsrAddr) (uimm : BitVec 5)
  | frflags (rd : Reg)
  | fsflags (rd rs : Reg)
  | fsflags0 (rs : Reg)
  | fsflagsi (rd : Reg) (uimm : BitVec 5)
  | fsflagsi0 (uimm : BitVec 5)
  | frrm (rd : Reg)
  | fsrm (rd rs : Reg)
  | fsrm0 (rs : Reg)
  | fsrmi (rd : Reg) (uimm : BitVec 5)
  | fsrmi0 (uimm : BitVec 5)
  | frcsr (rd : Reg)
  | fscsr (rd rs : Reg)
  | fscsr0 (rs : Reg)
  | rdcycle (rd : Reg)
  | rdtime (rd : Reg)
  | rdinstret (rd : Reg)
  | sfenceVma0
  | fence0
  deriving DecidableEq, Repr

/-- What a pseudo-instruction stands for (R131, R132). -/
def expand : Pseudo → Instr
  | .csrr rd csr => .csrrs rd csr 0
  | .csrw csr rs => .csrrw 0 csr rs
  | .csrs csr rs => .csrrs 0 csr rs
  | .csrc csr rs => .csrrc 0 csr rs
  | .csrwi csr uimm => .csrrwi 0 csr uimm
  | .csrsi csr uimm => .csrrsi 0 csr uimm
  | .csrci csr uimm => .csrrci 0 csr uimm
  | .frflags rd => .csrrs rd (csrAddr .fflags) 0
  | .fsflags rd rs => .csrrw rd (csrAddr .fflags) rs
  | .fsflags0 rs => .csrrw 0 (csrAddr .fflags) rs
  | .fsflagsi rd uimm => .csrrwi rd (csrAddr .fflags) uimm
  | .fsflagsi0 uimm => .csrrwi 0 (csrAddr .fflags) uimm
  | .frrm rd => .csrrs rd (csrAddr .frm) 0
  | .fsrm rd rs => .csrrw rd (csrAddr .frm) rs
  | .fsrm0 rs => .csrrw 0 (csrAddr .frm) rs
  | .fsrmi rd uimm => .csrrwi rd (csrAddr .frm) uimm
  | .fsrmi0 uimm => .csrrwi 0 (csrAddr .frm) uimm
  | .frcsr rd => .csrrs rd (csrAddr .fcsr) 0
  | .fscsr rd rs => .csrrw rd (csrAddr .fcsr) rs
  | .fscsr0 rs => .csrrw 0 (csrAddr .fcsr) rs
  | .rdcycle rd => .csrrs rd (csrAddr .cycle) 0
  | .rdtime rd => .csrrs rd (csrAddr .time) 0
  | .rdinstret rd => .csrrs rd (csrAddr .instret) 0
  | .sfenceVma0 => .sfenceVma 0 0
  | .fence0 => .fence 0 0xF 0xF

end Sys2Proof.Machine
end

