-- ==== Sys2Proof/Tests/Slice0.lean ====
section
/-! SUPPORT. The model's own tests: the checks of WellFormed, words of the spec's encodings, vectors of
95_test_vectors.md (V numbers), and, for every statement with hypotheses, states and operands that meet them. -/

namespace Sys2Proof.Tests

set_option Elab.async false

open Sys2Proof Sys2Proof.Machine

/-! ### Helpers -/

/-- The zero state of 95_test_vectors.md in a given mode, with quiet inputs placed. -/
def zero (p : Priv) : State :=
  { State.reset with priv := p, mtimecmp := Vector.replicate 4 0xFFFFFFFFFFFFFFFF, inputs := [Input.quiet, Input.quiet] }

/-- Run the instruction of a 32-bit word. -/
def runWord (w : BitVec 32) (s : State) : Result := executeBytes Input.quiet (leBytes 4 (w.setWidth 64)) s

/-- A result is a next state with a property. -/
def gives (r : Result) (p : State → Bool) : Bool :=
  match r with
  | .next t => p t
  | .fault _ => false
  | .refused _ => false

/-- The word is an illegal instruction: from M-mode with `mtvec` 0, `mcause` 2 and the word in `mtval`. -/
def traps (w : BitVec 32) (s : State) : Bool :=
  gives (runWord w s) fun t => decide (t = takeTrap (.exc .illegalInstr) (w.setWidth 64) s)

theorem of_gives (r : Result) (p : State → Bool) (h : gives r p = true) : ∃ t, r = .next t ∧ p t = true := by
  unfold gives at h
  cases r with
  | next t => exact ⟨t, rfl, h⟩
  | fault f => cases h
  | refused f => cases h

/-! ### WellFormed refuses ill-formed parameters -/

theorem test_config_standard_wellFormed : Config.standard.wellFormed = true := by decide
theorem test_config_odd_reset_vector :
    ({ Config.standard with resetVector := 0x80000001 } : Config).wellFormed = false := by decide
theorem test_config_unaligned_mtime :
    ({ Config.standard with mtimeAddr := 0x10000004 } : Config).wellFormed = false := by decide
theorem test_config_shared_mmcsr_address :
    ({ Config.standard with mtimeAddr := 0x10000008 } : Config).wellFormed = false := by decide

/-! ### Decoding of words written out from the encodings of 30_encoding.md -/

theorem test_decode_csrrw : decodeTableWord 32 0x340312F3 = some (.csrrw 5 0x340 6) := by decide
theorem test_decode_csrrs : decodeTableWord 32 0x340022F3 = some (.csrrs 5 0x340 0) := by decide
theorem test_decode_csrrc : decodeTableWord 32 0x3005B073 = some (.csrrc 0 0x300 11) := by decide
theorem test_decode_csrrwi : decodeTableWord 32 0x340AD073 = some (.csrrwi 0 0x340 21) := by decide
theorem test_decode_csrrsi : decodeTableWord 32 0x340562F3 = some (.csrrsi 5 0x340 10) := by decide
theorem test_decode_csrrci : decodeTableWord 32 0x14417073 = some (.csrrci 0 0x144 2) := by decide
theorem test_decode_ecall : decodeTableWord 32 0x00000073 = some .ecall := by decide
theorem test_decode_ebreak : decodeTableWord 32 0x00100073 = some .ebreak := by decide
theorem test_decode_cEbreak : decodeTableWord 16 0x9002 = some .cEbreak := by decide
theorem test_decode_mret : decodeTableWord 32 0x30200073 = some .mret := by decide
theorem test_decode_sret : decodeTableWord 32 0x10200073 = some .sret := by decide
theorem test_decode_wfi : decodeTableWord 32 0x10500073 = some .wfi := by decide
theorem test_decode_sfenceVma : decodeTableWord 32 0x12628073 = some (.sfenceVma 5 6) := by decide
theorem test_decode_fence : decodeTableWord 32 0x0410000F = some (.fence 0 4 1) := by decide
theorem test_decode_fence_tso : decodeTableWord 32 0x8330000F = some (.fence 8 3 3) := by decide
theorem test_decode_fenceI : decodeTableWord 32 0x0000100F = some .fenceI := by decide
/-- V184: encodings that R129 makes illegal. -/
theorem test_decode_illegal_words :
    [0x70200073, 0x7B200073, 0x00200073, 0x00004073, 0x000000F3].all
      (fun w => decide (decodeTableWord 32 w = none)) = true := by decide
/-- R132: two expansions. -/
theorem test_expand_frcsr : expand (.frcsr 15) = .csrrs 15 0x003 0 ∧ encodeWord (expand (.frcsr 15)) = 0x003027F3 := by
  decide
/-- R131. -/
theorem test_asm_text : asmText (.csrrw 5 0x340 6) = some "csrrw x5, mscratch, x6" := by decide +kernel

/-! ### CSR instructions -/

/-- V21: a swap. -/
theorem test_csrrw_swap : gives (runWord 0x340292F3 (writeX 5 0xAAAA (csrWrite .mscratch 0x5555 (zero .machine))))
    (fun t => readX 5 t == 0x5555 && csrRead .mscratch t == 0xAAAA && t.pc == 0x80000004) = true := by decide +kernel
/-- V33: a set with a register other than `x0` counts as a write. -/
theorem test_csrrs_read_only : traps 0xF112A2F3 (zero .machine) = true := by decide +kernel
/-- V75: the PLIC's signal is not copied into the software bit. -/
theorem test_csrrs_mip : gives (runWord 0x34452073 (writeX 10 2 { zero .machine with inSEIP := true }))
    (fun t => t.pend.ssip && !t.pend.seip && csrRead .mip t == 0x202) = true := by decide +kernel
/-- V25. -/
theorem test_csrrc_mpp : gives (runWord 0x3005B073 (writeX 11 0x1000 (csrWrite .mstatus 0x1800 (zero .machine))))
    (fun t => t.status.mpp == .supervisor) = true := by decide +kernel
/-- V76. -/
theorem test_csrrc_mip : gives (runWord 0x344532F3 (writeX 10 0x200
    { csrWrite .mip 0x200 (zero .machine) with inSEIP := true }))
    (fun t => readX 5 t == 0x200 && !t.pend.seip && csrRead .mip t == 0x200) = true := by decide +kernel
/-- V27. -/
theorem test_csrrwi_zero_extends : gives (runWord 0x340FD073 (csrWrite .mscratch 0xFFFFFFFFFFFFFFFF (zero .machine)))
    (fun t => csrRead .mscratch t == 0x1F) = true := by decide +kernel
/-- V38. -/
theorem test_csrrwi_read_only : traps 0xC0005073 (zero .machine) = true := by decide +kernel
/-- V28. -/
theorem test_csrrsi : gives (runWord 0x340562F3 (csrWrite .mscratch 0x15 (zero .machine)))
    (fun t => readX 5 t == 0x15 && csrRead .mscratch t == 0x1F) = true := by decide +kernel
/-- V29. -/
theorem test_csrrci : gives (runWord 0x3401F373 (csrWrite .mscratch 0x1F (zero .machine)))
    (fun t => readX 6 t == 0x1F && csrRead .mscratch t == 0x1C) = true := by decide +kernel
/-- V110. -/
theorem test_csrrci_sip : gives (runWord 0x14417073 (csrWrite .mip 2 (zero .machine)))
    (fun t => csrRead .mip t == 0) = true := by decide +kernel

/-! ### CSR write effects -/

/-- V61, V100, V102. -/
theorem test_mstatus_all_ones : csrRead .mstatus (csrWrite .mstatus 0xFFFFFFFFFFFFFFFF (zero .machine)) =
    0x8000000A007E79AA := by decide +kernel
theorem test_sstatus_cleared : csrRead .mstatus (csrWrite .sstatus 0 (csrWrite .mstatus 0xFFFFFFFFFFFFFFFF
    (zero .machine))) = 0x0000000A00721888 := by decide +kernel
/-- V64: the reserved number of `MPP` (default of the parameter). -/
theorem test_mpp_reserved : csrRead .mstatus (csrWrite .mstatus 0x1000 (zero .machine)) = 0xA00000000 := by
  decide +kernel
/-- V78. -/
theorem test_mtvec_reserved_mode : csrRead .mtvec (csrWrite .mtvec 0x90000002 (csrWrite .mtvec 0x80000101
    (zero .machine))) = 0x90000001 := by decide +kernel
/-- V89: a write of `minstret` suppresses its own count. -/
theorem test_minstret_write : gives (runWord 0xB0251073 (writeX 10 100 { zero .machine with mcountinhibit := 4 }))
    (fun t => t.minstret == 100) = true := by decide +kernel
/-- V141: `fcsr` takes eight bits and marks `FS` Dirty. -/
theorem test_fcsr_write : csrRead .fcsr (csrWrite .fcsr 0xFFFFFFFFFFFFFFFF (zero .user)) = 0xFF ∧
    (csrRead .mstatus (csrWrite .fcsr 0xFFFFFFFFFFFFFFFF (zero .user))).getLsbD 63 = true := by decide +kernel
/-- V147: `time` is gated below M-mode. -/
theorem test_time_gated : csrAccess 0xC01 false { zero .supervisor with mcounteren := 5 } = none ∧
    csrAccess 0xC00 false { zero .supervisor with mcounteren := 5 } = some .cycle := by decide +kernel
/-- V115, V116. -/
theorem test_satp : csrRead .satp (csrWrite .satp 0x9000000000000001 (csrWrite .satp 0x8000100000080000
    (zero .machine))) = 0x8000100000080000 := by decide +kernel

/-! ### System instructions and fences -/

/-- Handlers and delegation of V160 to V176. -/
def sys (p : Priv) (deleg pc : Word) : State :=
  { csrWrite .stvec 0x80400000 (csrWrite .mtvec 0x80000100 (zero p)) with medeleg := deleg, pc := pc }

/-- V160. -/
theorem test_ecall_delegated : gives (exec .ecall (csrWrite .sstatus 2 (sys .user 0x100 0x10000)))
    (fun t => csrRead .scause t == 8 && csrRead .sepc t == 0x10000 && !t.status.spp && t.status.spie &&
      !t.status.sie && t.priv == .supervisor && t.pc == 0x80400000 && csrRead .mcause t == 0) = true := by decide +kernel
/-- V163. -/
theorem test_ecall_machine : gives (exec .ecall (sys .machine 0xFFFFFFFFFFFFF7FF 0x80000008))
    (fun t => csrRead .mcause t == 11 && csrRead .mepc t == 0x80000008 && t.status.mpp == .machine &&
      t.priv == .machine && t.pc == 0x80000100) = true := by decide +kernel
/-- V164. -/
theorem test_ebreak : gives (exec .ebreak (sys .machine 0 0x80000010))
    (fun t => csrRead .mcause t == 3 && csrRead .mepc t == 0x80000010 && csrRead .mtval t == 0x80000010) = true := by
  decide +kernel
/-- V165. -/
theorem test_cEbreak : gives (executeBytes Input.quiet [0x02, 0x90] (sys .user 8 0x10002))
    (fun t => csrRead .scause t == 3 && csrRead .sepc t == 0x10002 && csrRead .stval t == 0x10002) = true := by
  decide +kernel
/-- V166. -/
theorem test_mret : gives (exec .mret (csrWrite .mepc 0x80200000 (csrWrite .mstatus 0x20880 (zero .machine))))
    (fun t => t.priv == .supervisor && t.status.mie && t.status.mpie && t.status.mpp == .user && !t.status.mprv &&
      t.pc == 0x80200000) = true := by decide +kernel
/-- V169. -/
theorem test_mret_supervisor : traps 0x30200073 (zero .supervisor) = true := by decide +kernel
/-- V172. -/
theorem test_sret_machine : gives (exec .sret (csrWrite .sepc 0x80200000 (csrWrite .mstatus 0x420102 (zero .machine))))
    (fun t => t.priv == .supervisor && !t.status.sie && t.status.spie && !t.status.spp && !t.status.mprv &&
      t.pc == 0x80200000) = true := by decide +kernel
/-- V171. -/
theorem test_sret_tsr : traps 0x10200073 { csrWrite .mstatus 0x400000 (zero .machine) with priv := .supervisor } =
    true := by decide +kernel
/-- V176. -/
theorem test_wfi : gives (exec .wfi (zero .supervisor)) (fun t => t.wfiWaiting && t.pc == 0x80000004) = true := by
  decide +kernel
/-- V175. -/
theorem test_wfi_tw : traps 0x10500073 { csrWrite .mstatus 0x200000 (zero .machine) with priv := .supervisor } =
    true := by decide +kernel
/-- R108: a fence for one address space leaves a global mapping. -/
theorem test_sfenceVma_keeps_global : gives (exec (.sfenceVma 0 6) (writeX 6 1
    { zero .supervisor with tlb := [⟨1, 0, 0, 0x21⟩, ⟨1, 0, 0, 0x01⟩] }))
    (fun t => decide (t.tlb = [⟨1, 0, 0, 0x21⟩])) = true := by decide +kernel
/-- V180. -/
theorem test_sfenceVma_tvm : traps 0x12628073 { csrWrite .mstatus 0x100000 (zero .machine) with priv := .supervisor } =
    true := by decide +kernel
/-- R104, V183: FIOM widens O to W. -/
theorem test_fence_fiom : gives (runWord 0x0410000F { zero .user with sFIOM := true })
    (fun t => t.fenceOut == some ⟨false, 5, 1⟩ && t.pc == 0x80000004) = true := by decide +kernel
/-- V183. -/
theorem test_fenceI : gives (runWord 0x0000100F { zero .user with staleCode := [(0, some 0)] })
    (fun t => decide (t.staleCode = []) && t.pc == 0x80000004) = true := by decide +kernel

/-! ### Interrupts, handlers, the timer, reset -/

/-- V215: the M group is tested first. -/
theorem test_select_machine_first : selectInterrupt
    { csrWrite .mie 0xAAA (csrWrite .mip 0x220 (zero .machine)) with
      priv := .supervisor, mideleg := 0x222, pend := ⟨false, true, true, true⟩
      status := { (zero .machine).status with sie := true } } = some (.machine, .mti) := by decide +kernel
/-- V217. -/
theorem test_select_ssi_above_sti : selectInterrupt
    { csrWrite .mie 0x022 (csrWrite .mip 0x022 (zero .user)) with mideleg := 0x022 } = some (.supervisor, .ssi) := by
  decide +kernel
/-- V233: a vectored handler wraps. -/
theorem test_vectored_wraps : tvecTarget ⟨0x3FFFFFFFFFFFFFFF, true⟩ (.irq .mti) = 0x18 := by decide +kernel
/-- V131, V132. -/
theorem test_timer_equal_holds : (updateMtip { zero .machine with mtime := 200, mtimecmp := Vector.replicate 4 200 }
    ).pend.mtip = false := by decide +kernel
theorem test_timer_above : (updateMtip { zero .machine with mtime := 201, mtimecmp := Vector.replicate 4 200 }
    ).pend.mtip = true := by decide +kernel
/-- V260, V262. -/
theorem test_reset : State.reset.priv = .machine ∧ State.reset.pc = State.reset.cfg.resetVector ∧
    (csrRead .mstatus State.reset).extractLsb' 32 4 = 0xA#4 := by decide +kernel
/-- The placed instruction is the next one that runs: MRET from reset. -/
theorem test_withFetchWord : gives (Sys2Proof.core.step (State.reset.withFetchWord 32 0x30200073))
    (fun t => t.priv == .user && t.pc == 0 && t.status.mpie) = true := by decide +kernel
/-- R97: a 1 GiB leaf. -/
theorem test_walk_gigapage : leafAddr 2 0x2000002F 0x12345678 = 0x92345678 := by decide +kernel
/-- R83, R85: half of `mtimecmp`. -/
theorem test_mmcsr_half : mmMerge 0x1FFFFFFFF 0 4 0 = 0x100000000 := by decide +kernel

/-! ### Witnesses: the hypotheses of each statement can be met -/

/-- A state in M-mode that runs a placed word. -/
def placed (w : Nat) : State := (zero .machine).withFetchWord 32 w

/-- O1, O2. -/
theorem witness_decodeEncode : (Instr.fence 8 15 0).wellFormed = true ∧ (Instr.csrrci 31 0xFFF 31).wellFormed = true := by
  decide
theorem witness_keepsEveryBit : decodeWord 0x8330000F = .ok (.fence 8 3 3) ∧ decodeWord 0x0000100F = .ok .fenceI ∧
    decodeWord 0xFFFFFFF3 = .ok (.csrrci 31 0xFFF 31) := ⟨rfl, rfl, rfl⟩

/-- O4: each kind of illegal encoding. -/
theorem witness_illegalEncodings : (0x70200073 : BitVec 32).extractLsb' 0 7 = 0b1110011#7 ∧
    (∀ r ∈ systemRows, 0x70200073 &&& r.2 ≠ r.1) ∧ (0x3F : Byte) &&& 0x1F = 0x1F :=
  ⟨by decide, by simp [systemRows], by decide⟩

/-- O4: a fetch that finds an encoding longer than 32 bits. -/
theorem witness_tooLong : fetch (nextInput (placed 0x1F)) (atBoundary (placed 0x1F)) =
    .tooLong (atBoundary (placed 0x1F)) := by decide +kernel

/-- O5 to O7: a supported, a vetoed and an unlisted address, at the ends of a range. -/
theorem witness_supported : Supported 0x323 ∧ Supported 0x33F ∧ ¬Supported 0x322 ∧ ¬Supported 0x7C0 ∧
    ¬Supported 0x34B ∧ csrVetoed 0x34B = true := by
  simp only [supported_iff]
  decide +kernel

theorem witness_csrForms : Instr.csrrsi 1 0x7C0 0 ∈ csrForms 1 0x7C0 0 := by decide

/-- O7 to O13: legal and illegal accesses. -/
theorem witness_accessible_write : Accessible (csrAddr .mscratch) true (zero .machine) ∧
    Accessible (csrAddr .minstret) true (zero .machine) ∧ Accessible (csrAddr .fcsr) true
      { zero .user with status := { (zero .user).status with fs := 1 } } := by
  simp only [accessible_iff]
  decide +kernel
theorem witness_accessible_read : Accessible (csrAddr .mvendorid) ((0 : Reg) != 0#5) (zero .machine) ∧
    Accessible (csrAddr (.hpmcounter 28)) ((0 : Reg) != 0#5)
      { zero .user with mcounteren := 0x80000000, scounteren := 0x80000000 } := by
  simp only [accessible_iff]
  decide +kernel
theorem witness_not_accessible : ¬Accessible (csrAddr .mvendorid) true (zero .machine) ∧
    ¬Accessible (csrAddr .mscratch) false (zero .supervisor) ∧ ¬Accessible (csrAddr .fflags) false (zero .machine) := by
  simp only [accessible_iff]
  decide +kernel

/-- O14. -/
theorem witness_rmwBase : (zero .machine).priv = .machine ∧ (readX 0 (zero .machine)).getLsbD 9 = false ∧
    Csr.mstatus ≠ .mip ∧ Csr.mstatus ≠ .sip := by decide +kernel

/-- O15: each mode, `TVM` set in S-mode. -/
theorem witness_satpTvm : Instr.csrrw 5 0x180 6 ∈ csrForms 5 0x180 6 ∧
    { csrWrite .mstatus 0x100000 (zero .machine) with priv := .supervisor }.status.tvm = true := by decide +kernel

/-- O16: CSRs that share no storage. -/
theorem witness_csrWriteFrame : (∀ x ∈ writesTo .mscratch, x ∉ readsFrom .mepc) ∧
    (∀ x ∈ writesTo .mcycle, x ∉ readsFrom .instret) := by decide

/-- O18, O19: `VS` 0 and unwritable, a legal `MPP`. -/
theorem witness_statusWrites : (zero .machine).cfg.vsWritable = false ∧ (zero .machine).status.vs = 0#2 ∧
    (0x1800 : Word).extractLsb' 11 2 ≠ 2#2 := by decide +kernel

/-- O20, O21: both values of the parameter. -/
theorem witness_windows :
    (0x222 : Word) = (if (zero .machine).cfg.sieSipGated then 0x222 &&& (zero .machine).mideleg else 0x222) ∧
    (0x020 : Word) = (if ({ zero .machine with
        cfg := { Config.standard with sieSipGated := true }, mideleg := 0x020 } : State).cfg.sieSipGated
      then 0x222 &&& 0x020 else 0x222) := by decide +kernel

/-- O22, O24, O28: a mode below 2, a cause that can reach S-mode, the modes of `satp`. -/
theorem witness_fieldWrites : (0x80000101 : Word).getLsbD 1 = false ∧ Cause.irq .ssi ≠ .irq .msi ∧
    (0x8000000000000001 : Word).extractLsb' 60 4 = 8#4 ∧ (0x0FFFFFFFFFFFFFFF : Word).extractLsb' 60 4 = 0#4 := by
  decide

/-- O28: modes that are neither 0 nor 8, next to each of them. -/
theorem witness_satpOtherMode : ∀ v ∈ [(0x1000000000000000 : Word), 0x7000000000000001, 0x9000000000000001,
    0xF000000000000000], v.extractLsb' 60 4 ≠ 0#4 ∧ v.extractLsb' 60 4 ≠ 8#4 := by
  simp

/-- O31, O32: a delegated trap from S-mode, and one that is not. -/
theorem witness_trapEntry : (zero .supervisor).priv ≠ .machine ∧
    true = ({ zero .supervisor with medeleg := 4 } : State).medeleg.getLsbD (excCode .illegalInstr) ∧
    false = (zero .supervisor).medeleg.getLsbD (excCode .illegalInstr) := by decide +kernel

/-- O34 to O37, O39, O40: each mode, with and without the trap bit. -/
theorem witness_modes : (zero .user).priv = .user ∧ (zero .supervisor).priv = .supervisor ∧
    (zero .machine).priv = .machine ∧ (zero .supervisor).status.tsr = false ∧
    ({ csrWrite .mstatus 0x700000 (zero .machine) with priv := .supervisor } : State).status.tsr = true ∧
    (zero .supervisor).status.tw = false ∧ (zero .supervisor).status.tvm = false := by decide +kernel

/-- O38: a trap into each level. -/
theorem witness_returnUndoesTrap : (zero .user).pc.getLsbD 0 = false ∧
    (takeTrap (.exc .ecallU) 0 (zero .user)).priv = .machine ∧
    (takeTrap (.exc .ecallU) 0 { zero .user with medeleg := 0x100 }).priv = .supervisor := by decide +kernel

/-- O43: an interrupt of each level is selected. -/
theorem witness_selection : selectInterrupt (csrWrite .mie 2 (csrWrite .mip 2 (zero .user))) = some (.machine, .ssi) ∧
    selectInterrupt { csrWrite .mie 2 (csrWrite .mip 2 (zero .user)) with mideleg := 2 } =
      some (.supervisor, .ssi) := by decide +kernel

/-- O44: an interrupt at a boundary, and none. -/
theorem witness_interruptTaken : (nextInput (zero .user)).reset = none ∧
    (platformStep (nextInput (zero .user)) (popInput (zero .user))).held = false ∧
    staysWaiting (nextInput (zero .user)) (platformStep (nextInput (zero .user)) (popInput (zero .user))) = false ∧
    selectInterrupt (platformStep (nextInput (zero .user)) (popInput (zero .user))) = none := by decide +kernel
theorem witness_interruptTaken_some :
    selectInterrupt (platformStep Input.quiet (popInput (csrWrite .mie 2 (csrWrite .mip 2 (zero .user))))) =
      some (.machine, .ssi) := by decide +kernel

/-- O45, O57: a state that a reset leaves. -/
theorem witness_resetState : ResetState State.reset ∧ State.reset.cfg.wellFormed = true ∧
    State.reset.mem.wf = true ∧ State.reset.status.mie = false :=
  ⟨⟨Hart.zero, rfl⟩, by decide, rfl, rfl⟩

/-- O57: a step with a reset. -/
theorem witness_resetStep :
    (nextInput { zero .user with inputs := [{ Input.quiet with reset := some Hart.zero }] }).reset = some Hart.zero :=
  rfl

/-- O46: a hart that waits, and one that an interrupt wakes. -/
theorem witness_waiting : staysWaiting Input.quiet { zero .machine with wfiWaiting := true } = true ∧
    csrRead .mip (csrWrite .mie 2 (csrWrite .mip 2 (zero .user))) &&&
      csrRead .mie (csrWrite .mie 2 (csrWrite .mip 2 (zero .user))) ≠ 0 := by decide +kernel

/-- O47: agents that act without writing `mtime`. -/
theorem witness_agentsWithoutMtime : ∀ v, AgentAction.writeMtime v ∉ [.setMEIP true, .writeMtimecmp 0 5] := by
  simp

/-- O48: a platform step at, above and below equality; at equality the bit is held. -/
theorem witness_platformTimer :
    (platformStep { Input.quiet with actions := [.writeMtimecmp 0 7], mtimeDelta := 7 } (zero .machine)).pend.mtip =
      false ∧
    (platformStep { Input.quiet with actions := [.writeMtimecmp 0 6], mtimeDelta := 7 } (zero .machine)).pend.mtip =
      true ∧
    (platformStep { Input.quiet with actions := [.writeMtimecmp 0 7, .writeMtime 8, .writeMtime 7] }
      (zero .machine)).pend.mtip = true := by decide +kernel

/-- O48: `mtime` below, at and above `mtimecmp`, under each value of the parameter. -/
theorem witness_timer :
    ownCmp (mmWrite .mtime 201 (mmWrite (.mtimecmp 0) 200 (zero .machine))) <
      (mmWrite .mtime 201 (mmWrite (.mtimecmp 0) 200 (zero .machine))).mtime ∧
    (zero .machine).mtime < ownCmp (zero .machine) ∧
    (mmWrite .mtime 200 (mmWrite (.mtimecmp 0) 200 (zero .machine))).mtime =
      ownCmp (mmWrite .mtime 200 (mmWrite (.mtimecmp 0) 200 (zero .machine))) ∧
    ({ zero .machine with cfg := { Config.standard with mtipAtEqual := .clear } } : State).cfg.mtipAtEqual = .clear ∧
    ({ zero .machine with cfg := { Config.standard with mtipAtEqual := .set } } : State).cfg.mtipAtEqual = .set := by
  decide +kernel

/-- O49: a canonical memory, written at both ends of the address space. -/
theorem witness_memory : Memory.wf [(0, 1), (2 ^ 64 - 1, 2)] = true ∧
    memRead (memWrite [(0, 1)] (0xFFFFFFFFFFFFFFFF : Word).toNat 2) (2 ^ 64 - 1) = some 2 := by decide +kernel

/-- O50: an instruction that changes a register. -/
theorem witness_execFrame : gives (exec (.csrrs 5 0x301 0) (zero .machine))
    (fun t => decide (readX 5 t ≠ readX 5 (zero .machine))) = true := by decide +kernel

/-- O51, O52: misaligned accesses, and the modes of translation. -/
theorem witness_misaligned : (0x80000001 : Word).toNat % widthBytes .half ≠ 0 ∧
    (0x80000007 : Word).toNat % widthBytes .double ≠ 0 ∧ (0x80000008 : Word).toNat % widthBytes .double = 0 := by decide
theorem witness_accessRules :
    ({ csrWrite .mstatus 0x20000 (zero .machine) with priv := .machine } : State).status.mprv = true ∧
    translationActive .user (csrWrite .satp 0x8000000000000001 (zero .user)) = true ∧
    leafPermits .load .supervisor true false 0x13 = true ∧ leafPermits .fetch .supervisor true false 0x1F = false := by
  decide +kernel

/-- O53: an exception, and retirement without a data access. -/
theorem witness_baseStep : Input.quiet.base = .raise .illegalInstr 0 ∧
    gives (baseStep { Input.quiet with base := .retire ⟨none, [(5, 7)], [], 1, true, none⟩ } 4 0 (zero .user))
      (fun t => readX 5 t == 7 && t.fflags == 1 && t.status.fs == 3#2) = true := ⟨rfl, by decide +kernel⟩

/-- R323: without the parameter, and without a floating-point write, FS stays. -/
theorem test_retire_keeps_fs :
    gives (baseStep { Input.quiet with base := .retire ⟨none, [], [(1, 7)], 1, true, none⟩ } 4 0
      { zero .user with cfg := { Config.standard with fcsrDirtiesFs := false } }) (fun t => t.status.fs == 0#2) = true ∧
    gives (baseStep { Input.quiet with base := .retire ⟨none, [(5, 7)], [], 0, true, none⟩ } 4 0 (zero .user))
      (fun t => t.status.fs == 0#2) = true := by decide +kernel

/-- A data access that retires with nothing else. -/
def doAccess (a : Access) (s : State) : Result :=
  baseStep { Input.quiet with base := .access a ⟨none, [], [], 0, false, none⟩ } 4 0 s

/-- O53: a store, a misaligned load with an agent's store inside, an access to a memory-mapped CSR, one that traps. -/
theorem witness_dataAccess :
    gives (doAccess ⟨.store, .half, 0x80000010, 0xABCD, none, 0, []⟩ (zero .machine))
      (fun t => memRead t.mem 0x80000011 == some 0xAB && memRead t.mem 0x80000012 == none) = true ∧
    gives (doAccess ⟨.load, .half, 1, 0, some (5, false), 0, [[], [(2, 9)]]⟩
        { zero .machine with mem := [(1, 3), (2, 4)] })
      (fun t => readX 5 t == 0x903) = true ∧
    gives (doAccess ⟨.store, .double, 0x10000000, 77, none, 0, []⟩ (zero .machine)) (fun t => t.mtime == 77) = true ∧
    gives (doAccess ⟨.amo, .word, 2, 0, none, 0, []⟩ (zero .machine)) (fun t => readX 0 t == 0 &&
      t.mTrap.cause.value == 6) = true := by decide +kernel

/-- R100: each byte of a misaligned access has its own choice, here between a new and an old leaf. -/
theorem test_choices_differ : dataPath ⟨.load, .half, 0xFFF, 0, none, 0, []⟩
    { zero .supervisor with satp := ⟨.sv39, 0, 0⟩, tlb := [⟨0, 0, 0, 0x443⟩, ⟨0, 0, 0, 0x843⟩, ⟨0, 1, 0, 0xC43⟩] }
    [⟨some 1, none⟩, ⟨some 0, none⟩] [0xFFF, 0x1000] = .ok [0x2FFF, 0x3000] [none, none] := by decide +kernel

/-- R105: after the first store to a byte, a fetch may see what it held before: no value here. -/
theorem test_stale_first_store : codeByte 1 8 (storeByte 8 5 (zero .machine)) = none ∧
    codeByte 0 8 (storeByte 8 5 (zero .machine)) = some 5 := by decide +kernel

/-- R481: a drawn `scause` that no trap could leave becomes a legal one. -/
theorem test_drawn_scause : drawnScause .binary 10 = 1 ∧ drawnScause .binary 9 = 9 ∧
    csrRead .scause State.reset = 1 := by decide +kernel

/-- O54: a placed instruction is fetched and decoded. -/
theorem witness_stepRunsDecoded : boundary (placed 0x30200073) = .ready (atBoundary (placed 0x30200073)) ∧
    fetch (nextInput (placed 0x30200073)) (atBoundary (placed 0x30200073)) =
      .bytes [0x73, 0x00, 0x20, 0x30] (atBoundary (placed 0x30200073)) := by decide +kernel

/-- O55: the bytes of a 32-bit and of a 16-bit instruction in memory, from a quiet M-mode boundary. -/
theorem witness_stepRunsMemoryBytes : (atBoundary (placed 0x30200073)).priv = .machine ∧
    (nextInput (placed 0x30200073)).hardwareError = false ∧ (∀ c ∈ (nextInput (placed 0x30200073)).fetchChoices, c.fault = none) ∧
    (nextInput (placed 0x30200073)).codePick = [] ∧
    (∀ n, n < 4 → mmAt (atBoundary (placed 0x30200073)).cfg
      ((atBoundary (placed 0x30200073)).pc + BitVec.ofNat 64 n) = none) ∧
    memReadAll (atBoundary (placed 0x30200073)).mem (addrRange (atBoundary (placed 0x30200073)).pc (ilen .mret)) =
      some (encode .mret) ∧
    memReadAll (atBoundary (placed 0x9002)).mem (addrRange (atBoundary (placed 0x9002)).pc (ilen .cEbreak)) =
      some (encode .cEbreak) := by decide +kernel

/-- O56, O59: sound states, in each mode. -/
theorem sound_zero (p : Priv) : Sound (zero p) := by
  cases p <;> constructor <;> decide +kernel

theorem witness_stepKeepsSound : ∃ t, step (zero .machine |>.withFetchWord 32 0x10500073) = .next t ∧ t.pc = 0x80000004 := by
  have h := of_gives (step (zero .machine |>.withFetchWord 32 0x10500073)) (fun t => t.pc == 0x80000004)
    (by decide +kernel)
  simpa using h

/-- O58: a return lowers the privilege, a trap raises it, a reset ends in M-mode. -/
theorem witness_transition_return : ∃ t, step (placed 0x30200073) = .next t ∧ t.priv ≠ (placed 0x30200073).priv := by
  have h := of_gives (step (placed 0x30200073)) (fun t => t.priv != (placed 0x30200073).priv) (by decide +kernel)
  simpa using h
theorem witness_transition_trap : ∃ t, step (zero .user |>.withFetchWord 32 0x00000073) = .next t ∧ t.priv = .machine := by
  have h := of_gives (step (zero .user |>.withFetchWord 32 0x00000073)) (fun t => t.priv == .machine) (by decide +kernel)
  simpa using h
theorem witness_transition_reset : ∃ t, step { zero .user with inputs := [{ Input.quiet with reset := some Hart.zero }] } =
    .next t ∧ t.priv = .machine := by
  have h := of_gives (step { zero .user with inputs := [{ Input.quiet with reset := some Hart.zero }] })
    (fun t => t.priv == .machine) (by decide +kernel)
  simpa using h

/-- O59, O60: instructions that run below M-mode without a trap into it, and in U-mode without a trap. -/
theorem witness_isolation : ∃ t, exec (.csrrw 0 0x140 0) (zero .supervisor) = .next t ∧ t.priv ≠ .machine := by
  have h := of_gives (exec (.csrrw 0 0x140 0) (zero .supervisor)) (fun t => t.priv != .machine) (by decide +kernel)
  simpa using h
theorem witness_isolation_user : ∃ t, exec .fenceI (zero .user) = .next t ∧ t.priv = .user := by
  have h := of_gives (exec .fenceI (zero .user)) (fun t => t.priv == .user) (by decide +kernel)
  simpa using h

end Sys2Proof.Tests
end

section
/-! PROOF. Every step keeps the state sound (O56), and how a step may change the mode (O58). -/

namespace Sys2Proof.Machine

/-! ### The pieces of soundness -/

/-- The next instruction's address is even where the instruction has an even length (R23, R82). -/
theorem pc_add_even (pc : Word) (len : Nat) (hl : len % 2 = 0) (h : pc.getLsbD 0 = false) :
    (pc + BitVec.ofNat 64 len).getLsbD 0 = false := by
  have even : (BitVec.ofNat 64 len).getLsbD 0 = false := by
    rw [BitVec.getLsbD_ofNat, Nat.testBit_zero]
    simp [hl]
  rw [BitVec.getLsbD_add (by decide), h, even]
  simp

/-- A word under a mask has no bit outside it. -/
theorem and_mask_idem {w : Nat} (v m : BitVec w) : v &&& m &&& m = v &&& m := by
  rw [BitVec.and_assoc, BitVec.and_self]

/-- The stored bits of `medeleg` lie under the parameter's mask (R222). -/
theorem medeleg_masked (v m : Word) : v &&& m &&& ~~~(0x800 : Word) &&& m = v &&& m &&& ~~~(0x800 : Word) := by
  rw [BitVec.and_assoc (v &&& m), BitVec.and_comm (~~~_) m, ← BitVec.and_assoc, and_mask_idem]

/-- Bit 11 of `medeleg` is never stored (R222). -/
theorem medeleg_ecallM (v : Word) : (v &&& ~~~(0x800 : Word)).getLsbD 11 = false := by
  simp

/-- Bit 1 of `mcountinhibit` is never stored (R246). -/
theorem inhibit_time (v : BitVec 32) : (v &&& 0xFFFFFFFD).getLsbD 1 = false := by
  simp

/-- `mstatus` is reached from M-mode alone (R120, R162). -/
theorem priv_of_csrAccess_mstatus (a : CsrAddr) (w : Bool) (s : State) (h : csrAccess a w s = some .mstatus) :
    s.priv = .machine := by
  obtain ⟨hc, hl, -⟩ := (csrAccess_eq_some a w s .mstatus).mp h
  rw [← csrAddr_of_csrOfAddr a .mstatus hc] at hl
  revert hl
  cases s.priv <;> decide

/-- A CSR write leaves `MPRV` as it is unless it is one of `mstatus` (R206, R281). -/
theorem csrWrite_mprv (c : Csr) (v : Word) (s : State) (hc : c ≠ .mstatus) :
    (csrWrite c v s).status.mprv = s.status.mprv := by
  cases c with
  | mstatus => exact absurd rfl hc
  | _ => rfl

/-- No CSR write changes `VS` where it is not writable (R218). -/
theorem csrWrite_vs (c : Csr) (v : Word) (s : State) (h : s.cfg.vsWritable = false) :
    (csrWrite c v s).status.vs = s.status.vs := by
  cases c with
  | mstatus => simp [csrWrite, writeMstatus, writeVs, h]
  | sstatus => simp [csrWrite, writeSstatus, writeVs, h]
  | _ => rfl

/-- A write of `satp` stores under the mask, or nothing (R300). -/
theorem writeSatp_masked (v : Word) (s : State) (h : s.satp.ppn &&& s.cfg.satpPpnMask = s.satp.ppn) :
    (writeSatp v s).satp.ppn &&& s.cfg.satpPpnMask = (writeSatp v s).satp.ppn := by
  unfold writeSatp
  dsimp only
  split
  · exact and_mask_idem _ _
  · split
    · exact and_mask_idem _ _
    · exact h

/-! ### What keeps a state sound -/

/-- A CSR write keeps soundness; `mstatus`, which holds `MPRV`, is written from M-mode alone (R209). -/
theorem Sound.csrWrite {s : State} (c : Csr) (v : Word) (hp : c = .mstatus → s.priv = .machine) (h : Sound s) :
    Sound (csrWrite c v s) where
  config := by rw [csrWrite_cfg]; exact h.config
  memory := by rw [csrWrite_mem]; exact h.memory
  pcEven := by rw [csrWrite_pc]; exact h.pcEven
  mprvMachine := by
    rw [csrWrite_priv]
    by_cases hc : c = .mstatus
    · exact fun _ => hp hc
    · rw [csrWrite_mprv c v s hc]
      exact h.mprvMachine
  vsZero := by
    rw [csrWrite_cfg]
    intro hv
    rw [csrWrite_vs c v s hv]
    exact h.vsZero hv
  medelegMasked := by
    cases c with
    | medeleg => exact medeleg_masked v s.cfg.medelegMask
    | _ => exact h.medelegMasked
  medelegEcallM := by
    cases c with
    | medeleg => exact medeleg_ecallM (v &&& s.cfg.medelegMask)
    | _ => exact h.medelegEcallM
  midelegMasked := by
    cases c with
    | mideleg => exact and_mask_idem v s.cfg.midelegMask
    | _ => exact h.midelegMasked
  inhibitTime := by
    cases c with
    | mcountinhibit => exact inhibit_time (v.setWidth 32)
    | _ => exact h.inhibitTime
  mtvecMasked := by
    cases c with
    | mtvec => exact and_mask_idem (v.extractLsb' 2 62) s.cfg.tvecBaseMask
    | _ => exact h.mtvecMasked
  stvecMasked := by
    cases c with
    | stvec => exact and_mask_idem (v.extractLsb' 2 62) s.cfg.tvecBaseMask
    | _ => exact h.stvecMasked
  satpMasked := by
    cases c with
    | satp => exact writeSatp_masked v s h.satpMasked
    | _ => exact h.satpMasked

/-- Completing an instruction of even length keeps soundness (R23). -/
theorem Sound.complete {s : State} (b : Bool) (len : Nat) (hl : len % 2 = 0) (h : Sound s) :
    Sound (retire b (advancePc len s)) :=
  { h with pcEven := pc_add_even s.pc len hl h.pcEven }

/-- The accepted CSR access of an instruction keeps soundness (R160). -/
theorem Sound.csrAccess {s : State} (op : CsrOp) (rd : Reg) (a : CsrAddr) (src : Word) (z b : Bool) (c : Csr)
    (hc : csrAccess a (csrDoesWrite op z) s = some c) (h : Sound s) :
    Sound (retire b (advancePc 4 (writeX rd (csrRead c s)
      (if csrDoesWrite op z then Machine.csrWrite c (csrNewValue op c src s) s else s)))) := by
  have written : Sound (if csrDoesWrite op z then Machine.csrWrite c (csrNewValue op c src s) s else s) := by
    split
    · exact h.csrWrite c _ fun e => priv_of_csrAccess_mstatus a _ s (e ▸ hc)
    · exact h
  have stored : Sound (writeX rd (csrRead c s)
      (if csrDoesWrite op z then Machine.csrWrite c (csrNewValue op c src s) s else s)) := { written with }
  exact stored.complete b 4 rfl

/-- MRET keeps soundness: `MPRV` is cleared unless the new mode is M (R209, R353). -/
theorem Sound.returnM {s : State} (h : Sound s) : Sound (returnM s) :=
  { h with
    pcEven := pcOfHigh_even s.mTrap.epc
    mprvMachine := by
      intro k
      rw [returnM_status] at k
      by_contra hp
      simp only [if_neg (show s.status.mpp ≠ .machine from hp), Bool.false_eq_true] at k
    vsZero := h.vsZero }

/-- SRET keeps soundness: it clears `MPRV` (R209, R354). -/
theorem Sound.returnS {s : State} (h : Sound s) : Sound (returnS s) :=
  { h with
    pcEven := pcOfHigh_even s.sTrap.epc
    mprvMachine := fun k => absurd k Bool.false_ne_true
    vsZero := h.vsZero }

/-- A reset keeps soundness, whatever is drawn (R481). -/
theorem Sound.resetHart {s : State} (draw : Hart) (h : Sound s) : Sound (resetHart draw s) where
  config := h.config
  memory := h.memory
  pcEven := by
    have aligned := h.config
    simp only [Config.wellFormed, Config.resetVectorAligned, Bool.and_eq_true, beq_iff_eq] at aligned
    exact aligned.1.1
  mprvMachine _ := rfl
  vsZero hv := by
    change (if s.cfg.vsWritable then draw.status.vs else 0) = 0
    rw [show s.cfg.vsWritable = false from hv]
    rfl
  medelegMasked := medeleg_masked draw.medeleg s.cfg.medelegMask
  medelegEcallM := medeleg_ecallM (draw.medeleg &&& s.cfg.medelegMask)
  midelegMasked := and_mask_idem draw.mideleg s.cfg.midelegMask
  inhibitTime := inhibit_time draw.mcountinhibit
  mtvecMasked := and_mask_idem draw.mtvec.base s.cfg.tvecBaseMask
  stvecMasked := and_mask_idem draw.stvec.base s.cfg.tvecBaseMask
  satpMasked := and_mask_idem draw.satp.ppn s.cfg.satpPpnMask

/-- The platform's part of a step keeps soundness (R414). -/
theorem Sound.platformStep {s : State} (h : Sound s) : Sound (platformStep (nextInput s) (popInput s)) :=
  Sound.of_keeps (platformStep_keeps _ _) (fun k => (platformStep_registers (nextInput s) (popInput s)).1 ▸ k)
    (wf_platformStep _ _) { h with }

/-- Every instruction of the table keeps soundness. -/
theorem Sound.exec {s t : State} (i : Instr) (ht : exec i s = .next t) (h : Sound s) : Sound t := by
  rcases exec_cases i s with ⟨e, v, he⟩ | ⟨op, rd, a, src, z, c, hc, -, he⟩ | ⟨-, -, he⟩ | ⟨-, -, he⟩ |
    ⟨w, tlb, fence, stale, he⟩ <;> cases he.symm.trans ht
  · exact h.takeTrap _ _
  · exact h.csrAccess op rd a src z _ c hc
  · exact { h.returnM with }
  · exact { h.returnS with }
  · exact Sound.complete (s := { s with wfiWaiting := w, tlb := tlb, fenceOut := fence, staleCode := stale }) false 4 rfl
      { h with }

/-- Fetching and executing keeps soundness. -/
theorem Sound.fetchExecute {s t : State} (inp : Input) (ht : fetchExecute inp s = .next t) (h : Sound s) : Sound t := by
  rcases fetchExecute_cases inp s t ht with ⟨e, val, tlb, rfl⟩ | ⟨bs, v, i, rest, hf, -, he⟩ | ⟨tlb, len, hl, hk⟩
  · exact Sound.takeTrap (s := { s with tlb := tlb }) _ _ { h with }
  · have hv : Sound v := by
      rw [fetch_bytes_eq inp s v bs hf]
      exact { h with }
    exact hv.exec i he
  · exact Sound.of_keeps hk.control (hk.pcEven hl) hk.memory { h with }

/-- Every step keeps soundness (R414). -/
theorem Sound.step {s t : State} (ht : step s = .next t) (h : Sound s) : Sound t := by
  rcases step_cases s t ht with ⟨draw, -, rfl⟩ | rfl | ⟨i, rfl⟩ | ⟨-, he⟩
  · exact h.platformStep.resetHart draw
  · exact h.platformStep
  · exact h.atBoundary.takeTrap _ _
  · exact h.atBoundary.fetchExecute _ he

/-! ### The parameters -/

/-- No instruction of the table changes a parameter (R8). -/
theorem exec_cfg (i : Instr) (s t : State) (ht : exec i s = .next t) : t.cfg = s.cfg := by
  rcases exec_cases i s with ⟨e, v, he⟩ | ⟨op, rd, a, src, z, c, -, -, he⟩ | ⟨-, -, he⟩ | ⟨-, -, he⟩ |
    ⟨w, tlb, fence, stale, he⟩ <;> cases he.symm.trans ht
  · exact takeTrap_cfg _ _ _
  · rw [retire_cfg, advancePc_cfg, writeX_cfg]
    split
    · exact csrWrite_cfg _ _ _
    · rfl
  · rfl
  · rfl
  · rfl

/-- Fetching and executing changes no parameter (R8). -/
theorem fetchExecute_cfg (inp : Input) (s t : State) (ht : fetchExecute inp s = .next t) : t.cfg = s.cfg := by
  rcases fetchExecute_cases inp s t ht with ⟨e, val, tlb, rfl⟩ | ⟨bs, v, i, rest, hf, -, he⟩ | ⟨tlb, len, -, hk⟩
  · exact takeTrap_cfg _ _ _
  · rw [exec_cfg i v t he, fetch_bytes_eq inp s v bs hf]
  · exact hk.control.cfg

/-- No step changes a parameter (R8). -/
theorem step_cfg (s t : State) (ht : step s = .next t) : t.cfg = s.cfg := by
  have platform : (platformStep (nextInput s) (popInput s)).cfg = s.cfg := (platformStep_keeps _ _).cfg
  rcases step_cases s t ht with ⟨draw, -, rfl⟩ | rfl | ⟨i, rfl⟩ | ⟨-, he⟩
  · exact platform
  · exact platform
  · exact (takeTrap_cfg _ _ _).trans platform
  · exact (fetchExecute_cfg _ _ _ he).trans platform

/-- Settles O56: the parameters by `step_cfg`, soundness by `Sound.step`, both along the cases of a step. -/
theorem stepKeepsSound : Obligations.StepKeepsSound :=
  fun s t ht => ⟨step_cfg s t ht, Sound.step ht⟩

/-! ### How the mode changes -/

/-- A trap that changes the mode raises it (R436). -/
theorem takeTrap_raises (c : Cause) (tval : Word) (s : State) (h : (takeTrap c tval s).priv ≠ s.priv) :
    (privCode s.priv).toNat < (privCode (takeTrap c tval s).priv).toNat := by
  refine Nat.lt_of_le_of_ne (takeTrap_priv_le c tval s) fun e => h ?_
  revert e
  cases s.priv <;> cases (takeTrap c tval s).priv <;> decide

/-- An instruction of the table that changes the mode takes a trap or is MRET or SRET (R353, R354, R436). -/
theorem exec_priv_cases (i : Instr) (s t : State) (ht : exec i s = .next t) (h : t.priv ≠ s.priv) :
    (∃ c v, t = takeTrap c v s) ∨ (i = .mret ∧ s.priv = .machine ∧ t.priv = s.status.mpp) ∨
      (i = .sret ∧ s.priv ≠ .user ∧ t.priv = if s.status.spp then .supervisor else .user) := by
  rcases exec_cases i s with ⟨e, v, he⟩ | ⟨op, rd, a, src, z, c, -, -, he⟩ | ⟨hi, hp, he⟩ | ⟨hi, hp, he⟩ |
    ⟨w, tlb, fence, stale, he⟩ <;> cases he.symm.trans ht
  · exact .inl ⟨_, _, rfl⟩
  · refine absurd ?_ h
    rw [retire_priv, advancePc_priv, writeX_priv]
    split
    · exact csrWrite_priv _ _ _
    · rfl
  · exact .inr (.inl ⟨hi, hp, rfl⟩)
  · refine .inr (.inr ⟨hi, ?_, rfl⟩)
    rcases hp with hp | ⟨hp, -⟩ <;> simp [hp]
  · exact absurd rfl h

/-- Settles O58, along the cases of a step: the platform and the instructions outside the table keep the mode, a trap
raises it, and of the instructions of the table only the two returns set it otherwise. -/
theorem privilegeTransitions : Obligations.PrivilegeTransitions := by
  intro s t ht hne
  have ready : (atBoundary s).priv = s.priv := (atBoundary_keeps s).priv
  have trap : ∀ c v u, u.priv = s.priv → t = takeTrap c v u →
      (privCode s.priv).toNat < (privCode t.priv).toNat ∧ ∃ c v u, u.priv = s.priv ∧ t = takeTrap c v u := by
    rintro c v u hu rfl
    exact ⟨hu ▸ takeTrap_raises c v u (hu ▸ hne), c, v, u, hu, rfl⟩
  rcases step_cases s t ht with ⟨draw, hr, rfl⟩ | rfl | ⟨i, h⟩ | ⟨hb, he⟩
  · exact .inl ⟨by rw [hr]; exact Option.some_ne_none draw, rfl⟩
  · exact absurd (platformStep_keeps (nextInput s) (popInput s)).priv hne
  · exact .inr (.inl (trap _ _ _ ready h))
  · rcases fetchExecute_cases _ _ _ he with ⟨e, val, tlb, h⟩ | ⟨bs, v, i, rest, hf, hd, hx⟩ | ⟨tlb, len, -, hk⟩
    · exact .inr (.inl (trap _ _ { atBoundary s with tlb := tlb } ready h))
    · have hv : v.priv = s.priv := by
        rw [fetch_bytes_eq _ _ _ _ hf]
        exact ready
      rcases exec_priv_cases i v t hx (hv ▸ hne) with ⟨c, w, h⟩ | ⟨rfl, hp, h⟩ | ⟨rfl, hp, h⟩
      · exact .inr (.inl (trap c w v hv h))
      · exact .inr (.inr ⟨_, v, bs, rest, hb, hf, hv, .inl ⟨hd, hv ▸ hp, h⟩⟩)
      · exact .inr (.inr ⟨_, v, bs, rest, hb, hf, hv, .inr ⟨hd, hv ▸ hp, h⟩⟩)
    · exact absurd (hk.control.priv.trans ready) hne

end Sys2Proof.Machine
end

section
/-! PROOF. The CSR map (O5), and what a CSR write and an instruction leave unchanged (O16, O50). -/

namespace Sys2Proof.Machine

/-! ### The CSR map -/

/-- Every address in a row of R29 names a register: at most 29 addresses a row. -/
theorem csrOfAddr_of_row : ∀ r ∈ supportedRanges, ∀ k < r.2 + 1 - r.1,
    (csrOfAddr (BitVec.ofNat 12 (r.1 + k))).isSome = true := by
  decide +kernel

/-- A supported address names a register (R29, R161). -/
theorem csrOfAddr_of_supported (a : CsrAddr) (h : Supported a) : ∃ c, csrOfAddr a = some c := by
  obtain ⟨r, hr, hlo, hhi⟩ := h
  have named := csrOfAddr_of_row r hr (a.toNat - r.1) (by omega)
  rw [Nat.add_sub_cancel' hlo, BitVec.ofNat_toNat, BitVec.setWidth_eq] at named
  exact Option.isSome_iff_exists.mp named

/-- Settles O5: the map finds each register at its own address, and R29's rows hold those addresses and no other. -/
theorem csrMap : Obligations.CsrMap := by
  refine ⟨csrOfAddr_csrAddr, fun a => ⟨?_, csrOfAddr_of_supported a⟩, csrAddr_of_csrOfAddr⟩
  rintro ⟨c, hc⟩
  exact csrAddr_of_csrOfAddr a c hc ▸ supported_csrAddr c

/-! ### What a CSR write leaves unchanged -/

/-- A CSR write does not change the read view of a register that shares no storage with it (R60, R172). -/
theorem csrRead_csrWrite_of_disjoint (c c' : Csr) (v : Word) (s : State) (h : ∀ x ∈ writesTo c, x ∉ readsFrom c') :
    csrRead c' (csrWrite c v s) = csrRead c' s :=
  csrRead_congr c' s (csrWrite c v s) (fun x hx => csrWrite_sameStorage c v s x fun hw => h x hw hx)
    (csrWrite_cfg c v s) (csrWrite_inMEIP c v s) (csrWrite_inSEIP c v s) (csrWrite_inMSIP c v s) (csrWrite_tick c v s)

/-- A floating-point register depends on the register file alone (R22). -/
theorem readF_congr (r : Reg) (s t : State) (h : t.f = s.f) : readF r t = readF r s := by
  simp only [readF, h]

/-- Settles O16: the read views by the storage that a write and a read view name, the rest field by field. -/
theorem csrWriteFrame : Obligations.CsrWriteFrame := by
  intro c v s
  exact ⟨fun c' h => csrRead_csrWrite_of_disjoint c c' v s h,
    fun r => ⟨readX_congr r s _ (csrWrite_x c v s), readF_congr r s _ (csrWrite_f c v s)⟩,
    fun a => by rw [csrWrite_mem], by simp⟩

/-! ### What no instruction changes -/

/-- What no instruction of the table changes: the floating-point registers, memory, the platform, the parameters, the
reservation and the placed inputs. -/
structure KeepsOutside (s t : State) : Prop where
  mem : t.mem = s.mem
  f : t.f = s.f
  mtime : t.mtime = s.mtime
  mtimecmp : t.mtimecmp = s.mtimecmp
  inMEIP : t.inMEIP = s.inMEIP
  inSEIP : t.inSEIP = s.inSEIP
  inMSIP : t.inMSIP = s.inMSIP
  cfg : t.cfg = s.cfg
  mtip : t.pend.mtip = s.pend.mtip
  reservation : t.reservation = s.reservation
  inputs : t.inputs = s.inputs
  tick : t.tick = s.tick

/-- A trap keeps it (R430). -/
theorem takeTrap_keepsOutside (c : Cause) (tval : Word) (s : State) : KeepsOutside s (takeTrap c tval s) := by
  constructor <;> simp

/-- The CSR access of an instruction keeps it (R160, R172). -/
theorem csrAccess_keepsOutside (c : Csr) (v w : Word) (b k : Bool) (rd : Reg) (s : State) :
    KeepsOutside s (retire k (advancePc 4 (writeX rd w (if b then csrWrite c v s else s)))) := by
  cases b <;> constructor <;> simp

/-- The register file after the CSR access of an instruction: only the destination can differ (R160, R172). -/
theorem readX_csrAccess (c : Csr) (v w : Word) (b k : Bool) (rd r : Reg) (s : State) (hr : r ≠ rd) :
    readX r (retire k (advancePc 4 (writeX rd w (if b then csrWrite c v s else s)))) = readX r s := by
  have written : readX r (if b then csrWrite c v s else s) = readX r s :=
    readX_congr r s _ (by cases b <;> simp)
  calc readX r (retire k (advancePc 4 (writeX rd w (if b then csrWrite c v s else s))))
      = readX r (writeX rd w (if b then csrWrite c v s else s)) := readX_congr r _ _ rfl
    _ = readX r (if b then csrWrite c v s else s) := by rw [readX_writeX, if_neg (fun h => hr h.1)]
    _ = readX r s := written

/-- Every instruction of the table answers a next state that keeps what is outside it, and the general registers but for
the destination of a CSR instruction (R160, R172, R356 to R358, R430). -/
theorem exec_frame (i : Instr) (s : State) : ∃ t, exec i s = .next t ∧ KeepsOutside s t ∧
    (∀ r, readX r t ≠ readX r s → ∃ a src, i ∈ csrForms r a src) := by
  have same : ∀ t : State, t.x = s.x → ∀ r, readX r t ≠ readX r s → ∃ a src, i ∈ csrForms r a src :=
    fun t h r hr => absurd (readX_congr r s t h) hr
  rcases exec_cases i s with ⟨e, v, he⟩ | ⟨op, rd, a, src, z, c, -, ⟨r₀, hi⟩, he⟩ | ⟨-, -, he⟩ | ⟨-, -, he⟩ |
    ⟨w, tlb, fence, stale, he⟩
  · exact ⟨_, he, takeTrap_keepsOutside _ _ _, same _ (takeTrap_x _ _ _)⟩
  · refine ⟨_, he, csrAccess_keepsOutside _ _ _ _ _ _ _, fun r hr => ⟨a, r₀, ?_⟩⟩
    have hd : r = rd := by_contra fun h => hr (readX_csrAccess _ _ _ _ _ _ _ _ h)
    subst hd
    simpa [csrForms] using hi
  · exact ⟨_, he, by constructor <;> rfl, same _ rfl⟩
  · exact ⟨_, he, by constructor <;> rfl, same _ rfl⟩
  · exact ⟨_, he, by constructor <;> rfl, same _ rfl⟩

/-- Settles O50, from the cases of an instruction (`exec_frame`). -/
theorem execFrame : Obligations.ExecFrame := by
  intro i s
  obtain ⟨t, he, hk, hx⟩ := exec_frame i s
  exact ⟨t, he, fun a => by rw [hk.mem], fun r => readF_congr r s t hk.f, hx, hk.mtime, hk.mtimecmp, hk.inMEIP,
    hk.inSEIP, hk.inMSIP, hk.cfg, hk.mtip, hk.reservation, hk.inputs, hk.tick⟩

end Sys2Proof.Machine
end

section
/-! PROOF. The interrupt registers: `mie`, `sie` (O20) and `mip`, `sip` (O21). -/

namespace Sys2Proof.Machine

/-! ### Words of interrupt bits -/

/-- Masking a join of two words. -/
theorem or_and_mask (x y m : Word) : (x ||| y) &&& m = (x &&& m) ||| (y &&& m) := by
  apply BitVec.eq_of_getLsbD_eq
  intro k _
  simp only [BitVec.getLsbD_and, BitVec.getLsbD_or, Bool.and_or_distrib_right]

/-- A word with no bit but those of the six interrupts (R401). -/
def IrqWord (x : Word) : Prop := x &&& 0xAAA = x

/-- Interrupt bits joined with interrupt bits. -/
theorem IrqWord.or {x y : Word} (hx : IrqWord x) (hy : IrqWord y) : IrqWord (x ||| y) := by
  unfold IrqWord at *
  rw [or_and_mask, hx, hy]

/-- Some of a word's interrupt bits. -/
theorem IrqWord.and_left {x : Word} (hx : IrqWord x) (y : Word) : IrqWord (x &&& y) := by
  unfold IrqWord at *
  rw [BitVec.and_assoc, BitVec.and_comm y, ← BitVec.and_assoc, hx]

/-- Any word under a mask of interrupt bits. -/
theorem IrqWord.and_right {y : Word} (x : Word) (hy : IrqWord y) : IrqWord (x &&& y) :=
  BitVec.and_comm y x ▸ hy.and_left x

/-- One interrupt's bit. -/
theorem irqWord_bitAt (i : Irq) (b : Bool) : IrqWord (bitAt b (irqCode i)) := by
  unfold IrqWord
  cases b <;> cases i <;> decide

/-- The bits of the six interrupts are the bits of the mask `0xAAA`. -/
theorem exists_irqCode_of_bit : ∀ k < 64, (0xAAA : Word).getLsbD k = true → ∃ i ∈ irqPriority, irqCode i = k := by
  decide

/-- Two words of interrupt bits are equal if they agree on each interrupt. -/
theorem IrqWord.ext {x y : Word} (hx : IrqWord x) (hy : IrqWord y)
    (h : ∀ i, x.getLsbD (irqCode i) = y.getLsbD (irqCode i)) : x = y := by
  unfold IrqWord at hx hy
  rw [← hx, ← hy]
  apply BitVec.eq_of_getLsbD_eq
  intro k hk
  rw [BitVec.getLsbD_and, BitVec.getLsbD_and]
  cases hm : (0xAAA : Word).getLsbD k with
  | false => simp
  | true =>
    obtain ⟨i, -, rfl⟩ := exists_irqCode_of_bit k hk hm
    rw [h i]

/-! ### The read views, bit by bit -/

/-- The enable bit of an interrupt (R36). -/
def enableOf (e : IrqEnable) : Irq → Bool
  | .ssi => e.ssie
  | .msi => e.msie
  | .sti => e.stie
  | .mti => e.mtie
  | .sei => e.seie
  | .mei => e.meie

/-- The pending bit of an interrupt, bit 9 being given (R37). -/
def pendingOf (bit9 : Bool) (s : State) : Irq → Bool
  | .ssi => s.pend.ssip
  | .msi => s.inMSIP
  | .sti => s.pend.stip
  | .mti => s.pend.mtip
  | .sei => bit9
  | .mei => s.inMEIP

/-- `mie` holds interrupt bits alone (R224). -/
theorem irqWord_mieView (s : State) : IrqWord (mieView s) :=
  (((((irqWord_bitAt .ssi _).or (irqWord_bitAt .msi _)).or (irqWord_bitAt .sti _)).or (irqWord_bitAt .mti _)).or
    (irqWord_bitAt .sei _)).or (irqWord_bitAt .mei _)

/-- `mip` holds interrupt bits alone (R231). -/
theorem irqWord_mipWith (bit9 : Bool) (s : State) : IrqWord (mipWith bit9 s) :=
  (((((irqWord_bitAt .ssi _).or (irqWord_bitAt .msi _)).or (irqWord_bitAt .sti _)).or (irqWord_bitAt .mti _)).or
    (irqWord_bitAt .sei _)).or (irqWord_bitAt .mei _)

/-- The S-level mask names interrupt bits alone (R282). -/
theorem irqWord_sieSipMask (s : State) : IrqWord (sieSipMask s) := by
  have level : IrqWord 0x222 := by unfold IrqWord; decide
  unfold sieSipMask
  split
  · exact level.and_left _
  · exact level

/-- `mie` shows each interrupt's enable bit (R224). -/
theorem getLsbD_mieView (i : Irq) (s : State) : (mieView s).getLsbD (irqCode i) = enableOf s.mie i := by
  simp only [mieView, BitVec.getLsbD_or, getLsbD_bitAt _ _ _ (by decide : 1 < 64),
    getLsbD_bitAt _ _ _ (by decide : 3 < 64), getLsbD_bitAt _ _ _ (by decide : 5 < 64),
    getLsbD_bitAt _ _ _ (by decide : 7 < 64), getLsbD_bitAt _ _ _ (by decide : 9 < 64),
    getLsbD_bitAt _ _ _ (by decide : 11 < 64)]
  cases i <;> simp [irqCode, enableOf]

/-- `mip` shows each interrupt's pending bit (R231). -/
theorem getLsbD_mipWith (i : Irq) (bit9 : Bool) (s : State) :
    (mipWith bit9 s).getLsbD (irqCode i) = pendingOf bit9 s i := by
  simp only [mipWith, BitVec.getLsbD_or, getLsbD_bitAt _ _ _ (by decide : 1 < 64),
    getLsbD_bitAt _ _ _ (by decide : 3 < 64), getLsbD_bitAt _ _ _ (by decide : 5 < 64),
    getLsbD_bitAt _ _ _ (by decide : 7 < 64), getLsbD_bitAt _ _ _ (by decide : 9 < 64),
    getLsbD_bitAt _ _ _ (by decide : 11 < 64)]
  cases i <;> simp [irqCode, pendingOf]

/-- The M-level interrupts are never seen through `sie` or `sip` (R282, R291). -/
theorem getLsbD_sieSipMask_machine (i : Irq) (s : State) (h : i = .msi ∨ i = .mti ∨ i = .mei) :
    (sieSipMask s).getLsbD (irqCode i) = false := by
  have low : (0x222 : Word).getLsbD (irqCode i) = false := by rcases h with rfl | rfl | rfl <;> decide
  unfold sieSipMask
  split
  · rw [BitVec.getLsbD_and, low, Bool.false_and]
  · exact low

/-! ### The write effects, bit by bit -/

/-- A write of `mie` stores each interrupt's bit (R224). -/
theorem enableOf_writeMie (v : Word) (s : State) (i : Irq) :
    enableOf (writeMie v s).mie i = v.getLsbD (irqCode i) := by
  cases i <;> rfl

/-- A write of `sie` stores the bits under the mask and keeps the others (R282). -/
theorem enableOf_writeSie (v : Word) (s : State) (i : Irq) :
    enableOf (writeSie v s).mie i =
      if (sieSipMask s).getLsbD (irqCode i) then v.getLsbD (irqCode i) else enableOf s.mie i := by
  cases i with
  | ssi => rfl
  | sti => rfl
  | sei => rfl
  | msi => rw [getLsbD_sieSipMask_machine .msi s (by simp)]; rfl
  | mti => rw [getLsbD_sieSipMask_machine .mti s (by simp)]; rfl
  | mei => rw [getLsbD_sieSipMask_machine .mei s (by simp)]; rfl

/-- A bit of one word merged into another under a mask. -/
theorem getLsbD_merge (x v m : Word) (k : Nat) (hk : k < 64) :
    ((x &&& ~~~m) ||| (v &&& m)).getLsbD k = if m.getLsbD k then v.getLsbD k else x.getLsbD k := by
  simp only [BitVec.getLsbD_or, BitVec.getLsbD_and, BitVec.getLsbD_not, hk, decide_true, Bool.true_and]
  cases m.getLsbD k <;> simp

/-- The code of an interrupt is the number of a bit. -/
theorem irqCode_lt (i : Irq) : irqCode i < 64 := by
  cases i <;> decide

/-- A write of `mie` reads back under `0xAAA` (R224). -/
theorem mieView_writeMie (v : Word) (s : State) : mieView (writeMie v s) = v &&& 0xAAA := by
  refine (irqWord_mieView _).ext (IrqWord.and_right v (by unfold IrqWord; decide)) fun i => ?_
  rw [getLsbD_mieView, enableOf_writeMie, BitVec.getLsbD_and]
  cases i <;> simp [irqCode]

/-- A write of `sie` replaces the bits of `mie` under the mask (R282). -/
theorem mieView_writeSie (v : Word) (s : State) :
    mieView (writeSie v s) = (mieView s &&& ~~~(sieSipMask s)) ||| (v &&& sieSipMask s) := by
  refine (irqWord_mieView _).ext
    (((irqWord_mieView s).and_left _).or (IrqWord.and_right v (irqWord_sieSipMask s))) fun i => ?_
  rw [getLsbD_mieView, enableOf_writeSie, getLsbD_merge _ _ _ _ (irqCode_lt i), getLsbD_mieView]

/-- A write of `mip` stores bits 1, 5 and 9; the other bits and the PLIC's signal stay (R232, R234). -/
theorem mipView_writeMip (v : Word) (s : State) :
    mipView (writeMip v s) = (mipView s &&& 0x888) ||| (v &&& 0x222) ||| (if s.inSEIP then 0x200 else 0) := by
  have signal : IrqWord (if s.inSEIP then 0x200 else 0) := by
    unfold IrqWord
    cases s.inSEIP <;> decide
  refine IrqWord.ext (irqWord_mipWith _ _)
    ((((irqWord_mipWith _ s).and_left _).or (IrqWord.and_right v (by unfold IrqWord; decide))).or signal) fun i => ?_
  rw [BitVec.getLsbD_or, BitVec.getLsbD_or, BitVec.getLsbD_and, BitVec.getLsbD_and]
  unfold mipView
  rw [getLsbD_mipWith, getLsbD_mipWith]
  cases i <;> cases h : s.inSEIP <;> simp [pendingOf, writeMip, irqCode, h]

/-! ### The statements -/

/-- Settles O20: `mie` and `sie` bit by bit, one bit an interrupt. -/
theorem enableWindows : Obligations.EnableWindows := by
  intro v m s hm
  obtain rfl : m = sieSipMask s := hm
  exact ⟨mieView_writeMie v s, irqWord_mieView s, rfl, mieView_writeSie v s⟩

/-- Settles O21: `mip` and `sip` bit by bit, one bit an interrupt. -/
theorem pendingWindows : Obligations.PendingWindows := by
  intro v m s hm
  obtain rfl : m = sieSipMask s := hm
  have bit : ∀ i, (mipView s).getLsbD (irqCode i) = pendingOf (s.pend.seip || s.inSEIP) s i :=
    fun i => getLsbD_mipWith i _ s
  exact ⟨⟨bit .ssi, bit .msi, bit .sti, bit .mti, bit .sei, bit .mei⟩, irqWord_mipWith _ s, rfl, mipView_writeMip v s,
    rfl, rfl⟩

end Sys2Proof.Machine
end

section
/-! PROOF. What single CSRs read back after a write: trap vectors (O22), trap registers (O23, O24), delegation (O25),
counters and their control (O26, O27), `satp` (O28), the floating-point CSRs (O29) and the constants (O30). -/

namespace Sys2Proof.Machine

/-! ### Trap vectors -/

/-- The base bits of a trap-vector register (R225, R283). -/
theorem tvecView_base (t : Tvec) : (tvecView t).extractLsb' 2 62 = t.base := by
  apply BitVec.eq_of_getLsbD_eq
  intro i hi
  simp only [tvecView, BitVec.getLsbD_extractLsb', BitVec.getLsbD_append]
  simp [hi]

/-- Bit 1 of a trap-vector register reads 0 (R225, R283). -/
theorem tvecView_bit1 (t : Tvec) : (tvecView t).getLsbD 1 = false := by
  rw [tvecView, BitVec.getLsbD_append, BitVec.getLsbD_append]
  rfl

/-- Bit 0 of a trap-vector register is the mode (R225, R283). -/
theorem tvecView_bit0 (t : Tvec) : (tvecView t).getLsbD 0 = t.vectored := by
  rw [tvecView, BitVec.getLsbD_append]
  simp

/-- A mode 0 or 1 is stored as written (R225). -/
theorem warlTvecMode_legal (w : WarlTvec) (old : Bool) (v : Word) (h : v.getLsbD 1 = false) :
    warlTvecMode w old (v.extractLsb' 0 2) = v.getLsbD 0 := by
  have mode : v.extractLsb' 0 2 = BitVec.setWidth 2 (BitVec.ofBool (v.getLsbD 0)) := by
    apply BitVec.eq_of_getLsbD_eq
    intro i hi
    interval_cases i <;> simp_all
  rw [mode]
  cases v.getLsbD 0 <;> rfl

/-- Settles O22: the fields of the read view, and the storage that the two registers do not share. -/
theorem trapVectorWrite : Obligations.TrapVectorWrite := by
  intro v s
  exact ⟨tvecView_base _, tvecView_base _, tvecView_bit1 _, tvecView_bit1 _,
    fun h => ⟨(tvecView_bit0 _).trans (warlTvecMode_legal _ _ v h),
      (tvecView_bit0 _).trans (warlTvecMode_legal _ _ v h)⟩,
    csrRead_csrWrite_of_disjoint _ _ v s (by decide), csrRead_csrWrite_of_disjoint _ _ v s (by decide)⟩

/-! ### Trap registers -/

/-- Settles O23: only `mepc` and `sepc` drop a bit. -/
theorem trapRegistersReadBack : Obligations.TrapRegistersReadBack :=
  fun v _ => ⟨rfl, rfl, rfl, rfl, pcOfHigh_pcHigh v, pcOfHigh_pcHigh v⟩

/-- The hardware can give `mcause` every cause (R229). -/
theorem mem_mCauses (k : Cause) : k ∈ mCauses := by
  cases k with
  | exc e => cases e <;> decide
  | irq i => cases i <;> decide

/-- The hardware can give `scause` every cause but ECALL from M-mode and the M-level interrupts (R289). -/
theorem mem_sCauses (k : Cause) (h1 : k ≠ .exc .ecallM) (h2 : k ≠ .irq .msi) (h3 : k ≠ .irq .mti)
    (h4 : k ≠ .irq .mei) : k ∈ sCauses := by
  cases k with
  | exc e =>
    have he : e ≠ .ecallM := fun h => h1 (congrArg Cause.exc h)
    have : e ∈ allExcs := by cases e <;> decide
    simp [sCauses, this, he]
  | irq i => cases i <;> simp_all [sCauses]

/-- A cause register reads back a cause that the hardware can give it (R27, D15). -/
theorem causeView_writeCause (enc : CauseEncoding) (legal : List Cause) (k : Cause) (free : Word) (hk : k ∈ legal) :
    causeView (writeCause enc legal (causeValue enc k)) free = causeValue enc k := by
  have given : isCauseValue enc legal (causeValue enc k) = true := List.any_eq_true.mpr ⟨k, hk, by simp⟩
  simp [causeView, writeCause, given]

/-- The cause register of the level that a trap enters reads the trap's cause (R402, R430). -/
theorem csrRead_cause_takeTrap (k : Cause) (tval : Word) (s : State) :
    csrRead (if trapsToS k s then .scause else .mcause) (takeTrap k tval s) = causeValue s.cfg.causeEncoding k := by
  rcases takeTrap_cases k tval s with ⟨ht, e⟩ | ⟨ht, e⟩
  · rw [if_pos ht, e]
    rfl
  · rw [if_neg (by simp [ht]), e]
    rfl

/-- Settles O24: each cause is in its register's list of causes, and a trap writes the register of the level it enters. -/
theorem causeReadBack : Obligations.CauseReadBack :=
  fun s tval => ⟨fun k => causeView_writeCause _ _ k _ (mem_mCauses k),
    fun k h1 h2 h3 h4 => causeView_writeCause _ _ k _ (mem_sCauses k h1 h2 h3 h4),
    fun k => csrRead_cause_takeTrap k tval s⟩

/-! ### Delegation -/

/-- Settles O25: the stored word is the read view. -/
theorem delegationWrite : Obligations.DelegationWrite :=
  fun v s => ⟨rfl, medeleg_ecallM (v &&& s.cfg.medelegMask), rfl⟩

/-! ### Counters and their control -/

/-- The low half of a word, kept in 32 bits and read as 64 (R226, R284). -/
theorem setWidth_low_half (v : Word) : (v.setWidth 32).setWidth 64 = v &&& 0xFFFFFFFF := by
  apply BitVec.eq_of_toNat_eq
  rw [BitVec.toNat_setWidth, BitVec.toNat_setWidth, BitVec.toNat_and,
    show (0xFFFFFFFF : Word).toNat = 2 ^ 32 - 1 from rfl, Nat.and_two_pow_sub_one_eq_mod]
  omega

/-- `mcountinhibit` keeps the low half but for bit 1 (R246). -/
theorem setWidth_inhibit (v : Word) : (v.setWidth 32 &&& 0xFFFFFFFD).setWidth 64 = v &&& 0xFFFFFFFD := by
  rw [BitVec.setWidth_and, setWidth_low_half, BitVec.and_assoc]
  rfl

/-- A one-bit register at bit 0 reads back bit 0 alone (R237, R285). -/
theorem bitAt_zero (v : Word) : bitAt (v.getLsbD 0) 0 = v &&& 1 := by
  apply BitVec.eq_of_getLsbD_eq
  intro i hi
  rw [getLsbD_bitAt _ _ _ (by decide), BitVec.getLsbD_and, show (1 : Word) = 1#64 from rfl, BitVec.getLsbD_one]
  by_cases h : i = 0 <;> simp [h]

/-- Settles O26: what each register reads back, and, for the two pairs, that the storage is not shared. -/
theorem counterControlWrite : Obligations.CounterControlWrite :=
  fun v s => ⟨setWidth_low_half v, setWidth_low_half v, setWidth_inhibit v, bitAt_zero v, bitAt_zero v,
    csrRead_csrWrite_of_disjoint _ _ v s (by decide), csrRead_csrWrite_of_disjoint _ _ v s (by decide),
    csrRead_csrWrite_of_disjoint _ _ v s (by decide), csrRead_csrWrite_of_disjoint _ _ v s (by decide)⟩

/-- An event counter after a write of one of them (R244). -/
theorem csrRead_mhpmcounter_csrWrite (i j : Fin 29) (v : Word) (s : State) :
    csrRead (.mhpmcounter j) (csrWrite (.mhpmcounter i) v s) = if i = j then v else csrRead (.mhpmcounter j) s := by
  simp only [csrRead, csrWrite, Fin.getElem_fin, Vector.getElem_set, Fin.ext_iff]

/-- Settles O27: a user view reads the storage of its machine counter. -/
theorem counterViews : Obligations.CounterViews :=
  fun v s i j => ⟨rfl, rfl, rfl, rfl, csrRead_mhpmcounter_csrWrite i j v s, rfl, rfl, rfl, rfl⟩

/-! ### `satp` -/

/-- A word is its `MODE`, `ASID` and `PPN` fields (R300). -/
theorem satp_fields (v : Word) : v.extractLsb' 60 4 ++ v.extractLsb' 44 16 ++ v.extractLsb' 0 44 = v := by
  apply BitVec.eq_of_getLsbD_eq
  intro i hi
  simp only [BitVec.getLsbD_append, BitVec.getLsbD_extractLsb']
  by_cases h1 : i < 44
  · simp [h1]
  · by_cases h2 : i < 60
    · simp [h1, show i - 44 < 16 by omega, show 44 + (i - 44) = i by omega]
    · simp [h1, show ¬ i - 44 < 16 by omega, show i - 44 - 16 < 4 by omega, show 60 + (i - 44 - 16) = i by omega]

/-- The read view of a stored `satp`: the written word with `PPN` under its mask (R300). -/
theorem satpView_stored (v : Word) (m : SatpMode) (mask : BitVec 44) (h : v.extractLsb' 60 4 = satpModeCode m) :
    satpView ⟨m, v.extractLsb' 44 16, v.extractLsb' 0 44 &&& mask⟩ = v &&& (0xFFFFF#20 ++ mask) := by
  have top : ∀ x : BitVec 20, x &&& 0xFFFFF#20 = x := fun x => BitVec.and_allOnes
  calc satpView ⟨m, v.extractLsb' 44 16, v.extractLsb' 0 44 &&& mask⟩
      = (v.extractLsb' 60 4 ++ v.extractLsb' 44 16) ++ (v.extractLsb' 0 44 &&& mask) := by rw [h]; rfl
    _ = (v.extractLsb' 60 4 ++ v.extractLsb' 44 16 ++ v.extractLsb' 0 44 : Word) &&& (0xFFFFF#20 ++ mask) := by
      rw [BitVec.and_append, top]
    _ = v &&& (0xFFFFF#20 ++ mask) := by rw [satp_fields]

/-- A write of `satp` with `MODE` 0 (R300). -/
theorem writeSatp_bare (v : Word) (s : State) (h : v.extractLsb' 60 4 = 0#4) :
    (writeSatp v s).satp = ⟨.bare, v.extractLsb' 44 16, v.extractLsb' 0 44 &&& s.cfg.satpPpnMask⟩ :=
  if_pos h

/-- A write of `satp` with `MODE` 8 (R300). -/
theorem writeSatp_sv39 (v : Word) (s : State) (h : v.extractLsb' 60 4 = 8#4) :
    (writeSatp v s).satp = ⟨.sv39, v.extractLsb' 44 16, v.extractLsb' 0 44 &&& s.cfg.satpPpnMask⟩ :=
  (if_neg (by rw [h]; decide)).trans (if_pos h)

/-- A write of `satp` with another `MODE` stores nothing (R300, D16). -/
theorem writeSatp_otherMode (v : Word) (s : State) (h0 : v.extractLsb' 60 4 ≠ 0#4) (h8 : v.extractLsb' 60 4 ≠ 8#4) :
    writeSatp v s = s := by
  unfold writeSatp
  dsimp only
  rw [if_neg h0, if_neg h8]

/-- Settles O28: the two legal modes are stored whole, any other leaves the state. -/
theorem satpWrite : Obligations.SatpWrite := by
  refine fun v s => ⟨?_, fun h0 h8 => writeSatp_otherMode v s h0 h8⟩
  rintro (h | h)
  · exact (congrArg satpView (writeSatp_bare v s h)).trans (satpView_stored v .bare _ h)
  · exact (congrArg satpView (writeSatp_sv39 v s h)).trans (satpView_stored v .sv39 _ h)

/-! ### The floating-point CSRs -/

/-- A bit of `fcsr`: `frm` above `fflags` (R322). -/
theorem getLsbD_fcsrView (s : State) (k : Nat) :
    (fcsrView s).getLsbD k = if k < 5 then s.fflags.getLsbD k else s.frm.getLsbD (k - 5) := by
  simp only [fcsrView, BitVec.getLsbD_or, getLsbD_fieldAt]
  by_cases h : k < 5
  · simp [h, show k < 64 by omega, show ¬5 ≤ k by omega]
  · by_cases h2 : k < 64
    · simp [h, h2, show 5 ≤ k by omega]
    · simp [h, h2, BitVec.getLsbD_of_ge s.frm (k - 5) (by omega)]

/-- `fflags` is the low part of `fcsr` (R320, R322). -/
theorem fflags_of_fcsr (s : State) : s.fflags.setWidth 64 = fcsrView s &&& 0x1F := by
  apply BitVec.eq_of_getLsbD_eq
  intro k hk
  rw [BitVec.getLsbD_and, getLsbD_fcsrView]
  interval_cases k <;> simp

/-- `frm` is the rest of `fcsr` (R321, R322). -/
theorem frm_of_fcsr (s : State) : s.frm.setWidth 64 = fcsrView s >>> 5 := by
  apply BitVec.eq_of_getLsbD_eq
  intro k hk
  rw [BitVec.getLsbD_ushiftRight, getLsbD_fcsrView, if_neg (by omega), Nat.add_sub_cancel_left]
  simp [hk]

/-- `fcsr` reads back the low byte (R322). -/
theorem fcsrView_writeFcsr (v : Word) (s : State) : fcsrView (writeFcsr v s) = v &&& 0xFF := by
  apply BitVec.eq_of_getLsbD_eq
  intro k hk
  rw [BitVec.getLsbD_and, getLsbD_fcsrView]
  interval_cases k <;> simp [writeFcsr]

/-- A write of `fflags` replaces the low part of `fcsr` (R320). -/
theorem fcsrView_writeFflags (v : Word) (s : State) :
    fcsrView (writeFflags v s) = (fcsrView s &&& 0xE0) ||| (v &&& 0x1F) := by
  apply BitVec.eq_of_getLsbD_eq
  intro k hk
  rw [BitVec.getLsbD_or, BitVec.getLsbD_and, BitVec.getLsbD_and, getLsbD_fcsrView, getLsbD_fcsrView]
  interval_cases k <;> simp [writeFflags]

/-- A write of `frm` replaces bits 7:5 of `fcsr` (R321). -/
theorem fcsrView_writeFrm (v : Word) (s : State) :
    fcsrView (writeFrm v s) = (fcsrView s &&& 0x1F) ||| ((v &&& 7) <<< 5) := by
  apply BitVec.eq_of_getLsbD_eq
  intro k hk
  rw [BitVec.getLsbD_or, BitVec.getLsbD_and, BitVec.getLsbD_shiftLeft, BitVec.getLsbD_and, getLsbD_fcsrView,
    getLsbD_fcsrView]
  interval_cases k <;> simp [writeFrm]

/-- A write of a floating-point CSR touches no part of the status register but `FS` (R323). -/
theorem csrWrite_fpu_status (c : Csr) (v : Word) (s : State) (hc : c ∈ [Csr.fflags, Csr.frm, Csr.fcsr]) :
    (csrWrite c v s).status = { s.status with fs := if s.cfg.fcsrDirtiesFs then 3 else s.status.fs } := by
  simp only [List.mem_cons, List.not_mem_nil, or_false] at hc
  rcases hc with rfl | rfl | rfl <;> rfl

/-- Settles O29: `fcsr` is `frm` above `fflags`, and each write bit by bit. -/
theorem fpuCsrs : Obligations.FpuCsrs :=
  fun v s => ⟨fflags_of_fcsr s, frm_of_fcsr s, fcsrView_writeFcsr v s, fcsrView_writeFflags v s, fcsrView_writeFrm v s,
    fun c hc => csrWrite_fpu_status c v s hc⟩

/-! ### Constants -/

/-- Settles O30: constants, parameters, and registers that store nothing. -/
theorem constantCsrs : Obligations.ConstantCsrs :=
  fun _ _ _ => ⟨rfl, rfl, rfl, rfl, rfl, rfl, rfl, rfl, rfl⟩

end Sys2Proof.Machine
end

section
/-! PROOF. Memory and accesses to it: reading after writing (O49), misaligned accesses (O51), and the privilege,
translation and permission of an access (O52). -/

namespace Sys2Proof.Machine

/-! ### Reading after writing -/

/-- Settles O49, by what a store leaves to be read and by its keeping the canonical form. -/
theorem memoryReadAfterWrite : Obligations.MemoryReadAfterWrite := by
  intro m a b hwf
  refine ⟨wf_memWrite_word m a b hwf, ?_, fun k hk => ?_⟩
  · rw [memRead_memWrite, if_pos rfl]
  · rw [memRead_memWrite, if_neg hk]

/-! ### Misaligned accesses -/

/-- An aligned access passes the alignment check (R83). -/
theorem misalignedExc_aligned (a : Access) (h : a.vaddr.toNat % widthBytes a.width = 0) : misalignedExc a = none := by
  simp [misalignedExc, accessAligned, h]

/-- What a misaligned access raises depends on its operation only (R83). -/
theorem misalignedExc_misaligned (a : Access) (h : a.vaddr.toNat % widthBytes a.width ≠ 0) :
    (a.op = .load ∨ a.op = .store → misalignedExc a = none) ∧
    (a.op = .loadReserved → misalignedExc a = some .loadMisaligned) ∧
    (a.op = .storeConditional ∨ a.op = .amo → misalignedExc a = some .storeMisaligned) := by
  cases ho : a.op <;> simp [misalignedExc, accessAligned, h, ho]

/-- An ordinary load or store passes the alignment check at every address (R83). -/
theorem misalignedExc_ordinary (a : Access) (h : a.op = .load ∨ a.op = .store) : misalignedExc a = none := by
  by_cases ha : a.vaddr.toNat % widthBytes a.width = 0
  · exact misalignedExc_aligned a ha
  · obtain ⟨hls, -, -⟩ := misalignedExc_misaligned a ha
    exact hls h

/-- An access that fails the alignment check does nothing but trap with its virtual address (R83, R404). -/
theorem baseAccess_misaligned (inp : Input) (len : Nat) (a : Access) (r : BaseRetire) (s : State) (e : Exc)
    (h : misalignedExc a = some e) : baseAccess inp len a r s = .next (takeTrap (.exc e) a.vaddr s) := by
  unfold baseAccess
  rw [h]
  rfl

/-- Settles O51: the alignment check comes before everything else that an access does. -/
theorem misalignedAccess : Obligations.MisalignedAccess := by
  refine fun inp len a r s => ⟨fun hm => ?_, ?_, rfl, rfl⟩
  · obtain ⟨-, hlr, hsc⟩ := misalignedExc_misaligned a hm
    exact ⟨fun ho => baseAccess_misaligned inp len a r s _ (hlr ho),
      fun ho => baseAccess_misaligned inp len a r s _ (hsc ho)⟩
  · rintro (ha | ho)
    · exact misalignedExc_aligned a ha
    · exact misalignedExc_ordinary a ho

/-! ### Privilege, translation and permission of an access -/

/-- With `MPRV` set in M-mode an access uses `MPP` (R91). -/
theorem effPriv_mprv (s : State) (hp : s.priv = .machine) (hm : s.status.mprv = true) : effPriv s = s.status.mpp :=
  if_pos ⟨hp, hm⟩

/-- Below M-mode, or with `MPRV` clear, an access uses the current mode (R91). -/
theorem effPriv_current (s : State) (h : s.priv ≠ .machine ∨ s.status.mprv = false) : effPriv s = s.priv := by
  refine if_neg fun ⟨hp, hm⟩ => ?_
  rcases h with h | h
  · exact h hp
  · exact Bool.noConfusion (h.symm.trans hm)

/-- Sv39 translates every access below M-mode and none at M (R92). -/
theorem translationActive_iff (p : Priv) (s : State) :
    translationActive p s = true ↔ p ≠ .machine ∧ s.satp.mode = .sv39 := by
  simp [translationActive]

/-- The half of a leaf's permission test that the kind of access decides: R, W and X (R93). -/
def kindPermits (kind : AccessKind) (mxr : Bool) (pte : Word) : Bool :=
  match kind with
  | .load => pte.getLsbD 1 || (mxr && pte.getLsbD 3)
  | .store => pte.getLsbD 2
  | .fetch => pte.getLsbD 3

/-- The half of a leaf's permission test that the mode decides: U and `SUM` (R93). -/
def modePermits (kind : AccessKind) (p : Priv) (sum : Bool) (pte : Word) : Bool :=
  match p with
  | .user => pte.getLsbD 4
  | .supervisor => !pte.getLsbD 4 || (kind != .fetch && sum)
  | .machine => true

/-- A leaf permits an access when both halves of the test do. -/
theorem leafPermits_eq (kind : AccessKind) (p : Priv) (sum mxr : Bool) (pte : Word) :
    leafPermits kind p sum mxr pte = (kindPermits kind mxr pte && modePermits kind p sum pte) := rfl

/-- A load needs R, or X under `MXR`; a store needs W; a fetch needs X (R93). -/
theorem kindPermits_iff (kind : AccessKind) (mxr : Bool) (pte : Word) : kindPermits kind mxr pte = true ↔
    (kind = .load → pte.getLsbD 1 = true ∨ (mxr = true ∧ pte.getLsbD 3 = true)) ∧
    (kind = .store → pte.getLsbD 2 = true) ∧ (kind = .fetch → pte.getLsbD 3 = true) := by
  cases kind <;> simp [kindPermits]

/-- A U-mode access needs U; an S-mode access to a U page must be for data and under `SUM` (R93). -/
theorem modePermits_iff (kind : AccessKind) (p : Priv) (sum : Bool) (pte : Word) : modePermits kind p sum pte = true ↔
    (p = .user → pte.getLsbD 4 = true) ∧
    (p = .supervisor → pte.getLsbD 4 = true → kind ≠ .fetch ∧ sum = true) := by
  cases p with
  | user => simp [modePermits]
  | supervisor =>
    unfold modePermits
    generalize pte.getLsbD 4 = u
    cases u <;> simp
  | machine => simp [modePermits]

/-- Settles O52, rule by rule; the permission test is the two halves together. -/
theorem accessRules : Obligations.AccessRules := by
  refine ⟨fun s => ⟨effPriv_mprv s, effPriv_current s⟩, translationActive_iff, fun kind p sum mxr pte _ => ?_⟩
  rw [leafPermits_eq, Bool.and_eq_true, kindPermits_iff, modePermits_iff, and_assoc, and_assoc]

end Sys2Proof.Machine
end

section
/-! PROOF. The decoder and the encoder are inverse to each other (O1 to O3), and the encodings that the rules make
illegal trap (O4). -/

namespace Sys2Proof

/-! ### The fields of a word -/

/-- A CSR instruction's word is its five fields (R123). -/
theorem word_of_csrFields (w : BitVec 32) :
    w.extractLsb' 20 12 ++ w.extractLsb' 15 5 ++ w.extractLsb' 12 3 ++ w.extractLsb' 7 5 ++ w.extractLsb' 0 7 = w := by
  apply BitVec.eq_of_getLsbD_eq
  intro k hk
  simp only [BitVec.getLsbD_append, BitVec.getLsbD_extractLsb']
  interval_cases k <;> simp

/-- The word of SFENCE.VMA is its six fields (R126). -/
theorem word_of_sfenceFields (w : BitVec 32) :
    w.extractLsb' 25 7 ++ w.extractLsb' 20 5 ++ w.extractLsb' 15 5 ++ w.extractLsb' 12 3 ++ w.extractLsb' 7 5 ++
      w.extractLsb' 0 7 = w := by
  apply BitVec.eq_of_getLsbD_eq
  intro k hk
  simp only [BitVec.getLsbD_append, BitVec.getLsbD_extractLsb']
  interval_cases k <;> simp

/-- The fields of FENCE that are not ignored (R127). -/
theorem fenceFields_eq_and (w : BitVec 32) :
    w.extractLsb' 28 4 ++ w.extractLsb' 24 4 ++ w.extractLsb' 20 4 ++ 0b00000#5 ++ w.extractLsb' 12 3 ++ 0b00000#5 ++
      w.extractLsb' 0 7 = w &&& 0xFFF0707F := by
  apply BitVec.eq_of_getLsbD_eq
  intro k hk
  simp only [BitVec.getLsbD_append, BitVec.getLsbD_extractLsb', BitVec.getLsbD_and]
  interval_cases k <;> simp

/-- `funct3` and the opcode of a word are what the mask of a CSR instruction's row keeps (R125). -/
theorem and_csrMask (w : BitVec 32) :
    w &&& 0x0000707F = 0#17 ++ w.extractLsb' 12 3 ++ 0b00000#5 ++ w.extractLsb' 0 7 := by
  apply BitVec.eq_of_getLsbD_eq
  intro k hk
  simp only [BitVec.getLsbD_append, BitVec.getLsbD_extractLsb', BitVec.getLsbD_and]
  interval_cases k <;> simp

/-- The fixed fields of SFENCE.VMA are what the mask of its row keeps (R126). -/
theorem and_sfenceMask (w : BitVec 32) :
    w &&& 0xFE007FFF =
      w.extractLsb' 25 7 ++ 0#10 ++ w.extractLsb' 12 3 ++ w.extractLsb' 7 5 ++ w.extractLsb' 0 7 := by
  apply BitVec.eq_of_getLsbD_eq
  intro k hk
  simp only [BitVec.getLsbD_append, BitVec.getLsbD_extractLsb', BitVec.getLsbD_and]
  interval_cases k <;> simp

/-- The fields of an encoded CSR instruction (R123). -/
theorem encodeCsr_fields (f : BitVec 3) (rd : Reg) (csr : CsrAddr) (src : BitVec 5) :
    (encodeCsr f rd csr src).extractLsb' 0 7 = 0b1110011#7 ∧ (encodeCsr f rd csr src).extractLsb' 7 5 = rd ∧
      (encodeCsr f rd csr src).extractLsb' 12 3 = f ∧ (encodeCsr f rd csr src).extractLsb' 15 5 = src ∧
      (encodeCsr f rd csr src).extractLsb' 20 12 = csr := by
  refine ⟨?_, ?_, ?_, ?_, ?_⟩ <;>
    (apply BitVec.eq_of_getLsbD_eq
     intro k hk
     simp only [encodeCsr, BitVec.getLsbD_append, BitVec.getLsbD_extractLsb']
     interval_cases k <;> simp)

/-- The fields of an encoded SFENCE.VMA (R126). -/
theorem encodeSfenceVma_fields (rs1 rs2 : Reg) :
    (encodeWord (.sfenceVma rs1 rs2)).extractLsb' 0 7 = 0b1110011#7 ∧
      (encodeWord (.sfenceVma rs1 rs2)).extractLsb' 7 5 = 0#5 ∧
      (encodeWord (.sfenceVma rs1 rs2)).extractLsb' 12 3 = 0b000#3 ∧
      (encodeWord (.sfenceVma rs1 rs2)).extractLsb' 15 5 = rs1 ∧
      (encodeWord (.sfenceVma rs1 rs2)).extractLsb' 20 5 = rs2 ∧
      (encodeWord (.sfenceVma rs1 rs2)).extractLsb' 25 7 = 0b0001001#7 := by
  refine ⟨?_, ?_, ?_, ?_, ?_, ?_⟩ <;>
    (apply BitVec.eq_of_getLsbD_eq
     intro k hk
     simp only [encodeWord, BitVec.getLsbD_append, BitVec.getLsbD_extractLsb']
     interval_cases k <;> simp)

/-- The fields of an encoded FENCE (R127). -/
theorem encodeFence_fields (fm pred succ : BitVec 4) :
    (encodeWord (.fence fm pred succ)).extractLsb' 0 7 = 0b0001111#7 ∧
      (encodeWord (.fence fm pred succ)).extractLsb' 12 3 = 0b000#3 ∧
      (encodeWord (.fence fm pred succ)).extractLsb' 20 4 = succ ∧
      (encodeWord (.fence fm pred succ)).extractLsb' 24 4 = pred ∧
      (encodeWord (.fence fm pred succ)).extractLsb' 28 4 = fm := by
  refine ⟨?_, ?_, ?_, ?_, ?_⟩ <;>
    (apply BitVec.eq_of_getLsbD_eq
     intro k hk
     simp only [encodeWord, BitVec.getLsbD_append, BitVec.getLsbD_extractLsb']
     interval_cases k <;> simp)

/-! ### What the decoder answers -/

/-- SFENCE.VMA is told from the other instructions of R126 by `funct7`. -/
theorem decodePriv_sfenceVma (w : BitVec 32) (h7 : w.extractLsb' 25 7 = 0b0001001#7) (hrd : w.extractLsb' 7 5 = 0#5) :
    decodePriv w = .ok (.sfenceVma (w.extractLsb' 15 5) (w.extractLsb' 20 5)) := by
  have ne (c : BitVec 32) (hc : c.extractLsb' 25 7 ≠ 0b0001001#7) : w ≠ c := fun e => hc (e ▸ h7)
  unfold decodePriv
  rw [if_neg (ne _ (by decide)), if_neg (ne _ (by decide)), if_neg (ne _ (by decide)), if_neg (ne _ (by decide)),
    if_neg (ne _ (by decide)), if_pos ⟨h7, hrd⟩]

/-- A word of R126 that decodes is the encoding of its instruction. -/
theorem encodeWord_of_decodePriv (w : BitVec 32) (i : Instr) (h0 : w.extractLsb' 0 7 = 0b1110011#7)
    (h3 : w.extractLsb' 12 3 = 0b000#3) (h : decodePriv w = .ok i) : encodeWord i = w := by
  unfold decodePriv at h
  split_ifs at h with hecall hebreak hsret hmret hwfi hsfence
  · cases h; exact hecall.symm
  · cases h; exact hebreak.symm
  · cases h; exact hsret.symm
  · cases h; exact hmret.symm
  · cases h; exact hwfi.symm
  · cases h
    obtain ⟨h7, hrd⟩ := hsfence
    have e := word_of_sfenceFields w
    rw [h7, h3, hrd, h0] at e
    exact e

/-- A word of R125 is the encoding of the CSR instruction with its fields. -/
theorem encodeCsr_of_word (w : BitVec 32) (f : BitVec 3) (h0 : w.extractLsb' 0 7 = 0b1110011#7)
    (h3 : w.extractLsb' 12 3 = f) :
    encodeCsr f (w.extractLsb' 7 5) (w.extractLsb' 20 12) (w.extractLsb' 15 5) = w := by
  have e := word_of_csrFields w
  rw [h0, h3] at e
  exact e

/-- A SYSTEM word that decodes is the encoding of its instruction (R125, R126). -/
theorem encodeWord_of_decodeSystem (w : BitVec 32) (i : Instr) (h0 : w.extractLsb' 0 7 = 0b1110011#7)
    (h : decodeSystem w = .ok i) : encodeWord i = w := by
  unfold decodeSystem at h
  split_ifs at h with hpriv hrw hrs hrc hrwi hrsi hrci
  · exact encodeWord_of_decodePriv w i h0 hpriv h
  · cases h; exact encodeCsr_of_word w _ h0 hrw
  · cases h; exact encodeCsr_of_word w _ h0 hrs
  · cases h; exact encodeCsr_of_word w _ h0 hrc
  · cases h; exact encodeCsr_of_word w _ h0 hrwi
  · cases h; exact encodeCsr_of_word w _ h0 hrsi
  · cases h; exact encodeCsr_of_word w _ h0 hrci

/-- A SYSTEM word that does not decode is illegal; none is left to `BaseStep` (R129). -/
theorem decodeSystem_error (w : BitVec 32) (e : DecodeError) (h : decodeSystem w = .error e) : e = .illegalSystem := by
  unfold decodeSystem decodePriv at h
  split_ifs at h <;> cases h
  all_goals rfl

/-- A word with opcode SYSTEM is decoded by R125 and R126 (R123). -/
theorem decodeWord_system (w : BitVec 32) (h0 : w.extractLsb' 0 7 = 0b1110011#7) : decodeWord w = decodeSystem w :=
  if_pos h0

/-- FENCE by its opcode and `funct3` (R127). -/
theorem decodeWord_fence (w : BitVec 32) (h0 : w.extractLsb' 0 7 = 0b0001111#7) (h3 : w.extractLsb' 12 3 = 0b000#3) :
    decodeWord w = .ok (.fence (w.extractLsb' 28 4) (w.extractLsb' 24 4) (w.extractLsb' 20 4)) := by
  unfold decodeWord
  rw [if_neg (by rw [h0]; decide), if_pos ⟨h0, h3⟩]

/-- The two opcodes of the table end in the length bits of a 32-bit instruction (R122). -/
theorem lengthBits_of_opcode (w : BitVec 32)
    (h : w.extractLsb' 0 7 = 0b1110011#7 ∨ w.extractLsb' 0 7 = 0b0001111#7) :
    w.extractLsb' 0 2 = 3#2 ∧ w.extractLsb' 2 3 ≠ 7#3 := by
  have low := Laws.ParcelLength.low_bits (w.extractLsb' 7 25) (w.extractLsb' 0 7)
  have whole : w.extractLsb' 7 25 ++ w.extractLsb' 0 7 = w :=
    (BitVec.extractLsb'_append_extractLsb'_eq_extractLsb' rfl).trans BitVec.extractLsb'_eq_self
  obtain ⟨low2, low3⟩ := whole ▸ low
  rw [low2, low3]
  rcases h with h | h <;> rw [h] <;> decide

/-- The bytes of a word with an opcode of the table decode as the word does (R122). -/
theorem decode_of_opcode (w : BitVec 32) (rest : List Byte)
    (h : w.extractLsb' 0 7 = 0b1110011#7 ∨ w.extractLsb' 0 7 = 0b0001111#7) :
    decode (Machine.leBytes 4 (w.setWidth 64) ++ rest) = (decodeWord w).map (·, rest) := by
  obtain ⟨h2, h3⟩ := lengthBits_of_opcode w h
  rw [decode_word w rest h2 h3]
  cases decodeWord w <;> rfl

/-! ### From the instruction to its bytes and back -/

/-- Decoding an encoded CSR instruction goes by its `funct3` alone (R125). -/
theorem decodeWord_encodeCsr (f : BitVec 3) (rd : Reg) (csr : CsrAddr) (src : BitVec 5) :
    decodeWord (encodeCsr f rd csr src) =
      if f = 0b000#3 then decodePriv (encodeCsr f rd csr src)
      else if f = 0b001#3 then .ok (.csrrw rd csr src)
      else if f = 0b010#3 then .ok (.csrrs rd csr src)
      else if f = 0b011#3 then .ok (.csrrc rd csr src)
      else if f = 0b101#3 then .ok (.csrrwi rd csr src)
      else if f = 0b110#3 then .ok (.csrrsi rd csr src)
      else if f = 0b111#3 then .ok (.csrrci rd csr src)
      else .error .illegalSystem := by
  obtain ⟨hop, hrd, hf, hsrc, hcsr⟩ := encodeCsr_fields f rd csr src
  rw [decodeWord_system _ hop, decodeSystem, hf, hrd, hsrc, hcsr]

/-- The word of every 32-bit instruction has an opcode of the table. -/
theorem encodeWord_opcode (i : Instr) (h : ilen i = 4) :
    (encodeWord i).extractLsb' 0 7 = 0b1110011#7 ∨ (encodeWord i).extractLsb' 0 7 = 0b0001111#7 := by
  cases i with
  | csrrw rd csr rs1 => exact .inl (encodeCsr_fields _ rd csr rs1).1
  | csrrs rd csr rs1 => exact .inl (encodeCsr_fields _ rd csr rs1).1
  | csrrc rd csr rs1 => exact .inl (encodeCsr_fields _ rd csr rs1).1
  | csrrwi rd csr uimm => exact .inl (encodeCsr_fields _ rd csr uimm).1
  | csrrsi rd csr uimm => exact .inl (encodeCsr_fields _ rd csr uimm).1
  | csrrci rd csr uimm => exact .inl (encodeCsr_fields _ rd csr uimm).1
  | sfenceVma rs1 rs2 => exact .inl (encodeSfenceVma_fields rs1 rs2).1
  | fence fm pred succ => exact .inr (encodeFence_fields fm pred succ).1
  | fenceI => exact .inr (by decide)
  | cEbreak => exact absurd h (by decide)
  | ecall => exact .inl (by decide)
  | ebreak => exact .inl (by decide)
  | mret => exact .inl (by decide)
  | sret => exact .inl (by decide)
  | wfi => exact .inl (by decide)

/-- The word of a 32-bit instruction decodes to it, with every operand. -/
theorem decodeWord_encodeWord (i : Instr) (h : ilen i = 4) : decodeWord (encodeWord i) = .ok i := by
  cases i with
  | csrrw rd csr rs1 => exact decodeWord_encodeCsr 0b001 rd csr rs1
  | csrrs rd csr rs1 => exact decodeWord_encodeCsr 0b010 rd csr rs1
  | csrrc rd csr rs1 => exact decodeWord_encodeCsr 0b011 rd csr rs1
  | csrrwi rd csr uimm => exact decodeWord_encodeCsr 0b101 rd csr uimm
  | csrrsi rd csr uimm => exact decodeWord_encodeCsr 0b110 rd csr uimm
  | csrrci rd csr uimm => exact decodeWord_encodeCsr 0b111 rd csr uimm
  | sfenceVma rs1 rs2 =>
    obtain ⟨hop, hrd, hf3, hrs1, hrs2, hf7⟩ := encodeSfenceVma_fields rs1 rs2
    rw [decodeWord_system _ hop, decodeSystem, if_pos hf3, decodePriv_sfenceVma _ hf7 hrd, hrs1, hrs2]
  | fence fm pred succ =>
    obtain ⟨hop, hf3, hsucc, hpred, hfm⟩ := encodeFence_fields fm pred succ
    rw [decodeWord_fence _ hop hf3, hsucc, hpred, hfm]
  | cEbreak => exact absurd h (by decide)
  | ecall => rfl
  | ebreak => rfl
  | mret => rfl
  | sret => rfl
  | wfi => rfl
  | fenceI => rfl

/-- C.EBREAK is the one instruction that is not 4 bytes long (R128). -/
theorem eq_cEbreak_of_ilen_ne_four (i : Instr) (h : ilen i ≠ 4) : i = .cEbreak := by
  cases i with
  | cEbreak => rfl
  | _ => exact absurd rfl h

/-- An encoded instruction decodes to itself, whatever bytes follow. -/
theorem decode_encode (i : Instr) (rest : List Byte) : decode (encode i ++ rest) = .ok (i, rest) := by
  by_cases h : ilen i = 4
  · rw [encode, h, decode_of_opcode _ rest (encodeWord_opcode i h), decodeWord_encodeWord i h]
    rfl
  · rw [eq_cEbreak_of_ilen_ne_four i h]
    rfl

/-- Settles O1, by the two cases of `decode_encode`: a 32-bit instruction goes through its word, C.EBREAK is run. -/
theorem decodeEncodeAgree : Obligations.DecodeEncodeAgree := fun i rest _ => decode_encode i rest

/-- The number of an instruction's bits decodes to the instruction, taken as a word of its length. -/
theorem decodeTableWord_encodeWord (i : Instr) : decodeTableWord (8 * ilen i) (encodeWord i).toNat = some i := by
  by_cases h : ilen i = 4
  · have bytes : Machine.leBytes 4 (BitVec.ofNat 64 ((encodeWord i).toNat % 2 ^ (8 * ilen i))) = encode i ++ [] := by
      rw [List.append_nil, encode, h, Nat.mod_eq_of_lt (encodeWord i).isLt, BitVec.ofNat_toNat]
    rw [decodeTableWord, bytes, decode_encode]
  · rw [eq_cEbreak_of_ilen_ne_four i h]
    rfl

/-- Settles O3: each word is the encoding of its instruction. -/
theorem specWordsDecode : Obligations.SpecWordsDecode :=
  ⟨decodeTableWord_encodeWord (.csrrw 5 0x340 6), decodeTableWord_encodeWord (.csrrs 5 0x340 0),
    decodeTableWord_encodeWord (.csrrc 0 0x300 11), decodeTableWord_encodeWord (.csrrwi 0 0x340 21),
    decodeTableWord_encodeWord (.csrrsi 0 0x300 8), decodeTableWord_encodeWord (.csrrci 0 0x144 2),
    decodeTableWord_encodeWord (.sfenceVma 5 6), decodeTableWord_encodeWord (.fence 0 3 3),
    decodeTableWord_encodeWord .cEbreak⟩

/-! ### From a word to its instruction and back -/

/-- The encoding of a CSR instruction matches the row of R125 with its `funct3`. -/
theorem encodeCsr_and_csrMask (f : BitVec 3) (rd : Reg) (csr : CsrAddr) (src : BitVec 5) :
    encodeCsr f rd csr src &&& 0x0000707F = 0#17 ++ f ++ 0b00000#5 ++ 0b1110011#7 := by
  obtain ⟨hop, -, hf, -, -⟩ := encodeCsr_fields f rd csr src
  rw [and_csrMask, hop, hf]

/-- What holds of the word of an instruction with opcode SYSTEM: none of its bits is ignored, and it matches a row of
R125 or R126. -/
theorem encodeWord_system (i : Instr) (h : (encodeWord i).extractLsb' 0 7 = 0b1110011#7) :
    Machine.usedBits i = 0xFFFFFFFF ∧ ilen i = 4 ∧ ∃ r ∈ Machine.systemRows, encodeWord i &&& r.2 = r.1 := by
  cases i with
  | csrrw rd csr rs1 => exact ⟨rfl, rfl, (0x00001073, 0x0000707F), by decide, encodeCsr_and_csrMask _ rd csr rs1⟩
  | csrrs rd csr rs1 => exact ⟨rfl, rfl, (0x00002073, 0x0000707F), by decide, encodeCsr_and_csrMask _ rd csr rs1⟩
  | csrrc rd csr rs1 => exact ⟨rfl, rfl, (0x00003073, 0x0000707F), by decide, encodeCsr_and_csrMask _ rd csr rs1⟩
  | csrrwi rd csr uimm => exact ⟨rfl, rfl, (0x00005073, 0x0000707F), by decide, encodeCsr_and_csrMask _ rd csr uimm⟩
  | csrrsi rd csr uimm => exact ⟨rfl, rfl, (0x00006073, 0x0000707F), by decide, encodeCsr_and_csrMask _ rd csr uimm⟩
  | csrrci rd csr uimm => exact ⟨rfl, rfl, (0x00007073, 0x0000707F), by decide, encodeCsr_and_csrMask _ rd csr uimm⟩
  | sfenceVma rs1 rs2 =>
    obtain ⟨hop, hrd, hf3, -, -, hf7⟩ := encodeSfenceVma_fields rs1 rs2
    exact ⟨rfl, rfl, (0x12000073, 0xFE007FFF), by decide, by rw [and_sfenceMask, hop, hrd, hf3, hf7]; rfl⟩
  | ecall => exact ⟨rfl, rfl, (0x00000073, 0xFFFFFFFF), by decide, rfl⟩
  | ebreak => exact ⟨rfl, rfl, (0x00100073, 0xFFFFFFFF), by decide, rfl⟩
  | sret => exact ⟨rfl, rfl, (0x10200073, 0xFFFFFFFF), by decide, rfl⟩
  | mret => exact ⟨rfl, rfl, (0x30200073, 0xFFFFFFFF), by decide, rfl⟩
  | wfi => exact ⟨rfl, rfl, (0x10500073, 0xFFFFFFFF), by decide, rfl⟩
  | fence fm pred succ => exact absurd ((encodeFence_fields fm pred succ).1.symm.trans h) (by decide)
  | fenceI => exact absurd h (by decide)
  | cEbreak => exact absurd h (by decide)

/-- Settles O2, opcode by opcode: a SYSTEM word is given back whole, FENCE and FENCE.I but for the ignored fields. -/
theorem decodeKeepsEveryBit : Obligations.DecodeKeepsEveryBit := by
  intro w i h
  by_cases hsys : w.extractLsb' 0 7 = 0b1110011#7
  · rw [decodeWord_system w hsys] at h
    have e := encodeWord_of_decodeSystem w i hsys h
    obtain ⟨hused, hlen, -⟩ := encodeWord_system i (e ▸ hsys)
    exact ⟨by rw [e, hused]; exact BitVec.and_allOnes.symm, hlen⟩
  · unfold decodeWord at h
    split_ifs at h with hfence hfenceI
    · cases h
      have e := fenceFields_eq_and w
      rw [hfence.1, hfence.2] at e
      exact ⟨e, rfl⟩
    · cases h
      have e := and_csrMask w
      rw [hfenceI.1, hfenceI.2] at e
      exact ⟨e.symm, rfl⟩

end Sys2Proof

namespace Sys2Proof.Machine

/-! ### Illegal encodings -/

/-- A SYSTEM word outside the rows of R125 and R126 is illegal (R129). -/
theorem decodeWord_no_row (w : BitVec 32) (h0 : w.extractLsb' 0 7 = 0b1110011#7)
    (hrow : ∀ r ∈ systemRows, w &&& r.2 ≠ r.1) : decodeWord w = .error .illegalSystem := by
  rw [decodeWord_system w h0]
  cases h : decodeSystem w with
  | error e => rw [decodeSystem_error w e h]
  | ok i =>
    have e := encodeWord_of_decodeSystem w i h0 h
    obtain ⟨-, -, r, hr, hmatch⟩ := encodeWord_system i (e ▸ h0)
    exact absurd (e ▸ hmatch) (hrow r hr)

/-- A first parcel with bits 4:0 set begins an encoding longer than 32 bits (R122). -/
theorem parcelLength_long (b0 b1 : Byte) (h : b0 &&& 0x1F = 0x1F) : parcelLength (b1 ++ b0) = none := by
  have bit (k : Nat) (hk : k < 5) : (b1 ++ b0).getLsbD k = true := by
    have hb : (b0 &&& 0x1F).getLsbD k = true := by
      rw [h]
      interval_cases k <;> rfl
    rw [BitVec.getLsbD_and, Bool.and_eq_true] at hb
    rw [BitVec.getLsbD_append, if_pos (by omega), hb.1]
  have low : (b1 ++ b0).extractLsb' 0 2 = 0b11#2 := by
    apply BitVec.eq_of_getLsbD_eq
    intro k hk
    rw [BitVec.getLsbD_extractLsb', bit _ (by omega)]
    interval_cases k <;> rfl
  have next : (b1 ++ b0).extractLsb' 2 3 = 0b111#3 := by
    apply BitVec.eq_of_getLsbD_eq
    intro k hk
    rw [BitVec.getLsbD_extractLsb', bit _ (by omega)]
    interval_cases k <;> rfl
  unfold parcelLength
  rw [low, next]
  rfl

/-- Bytes that begin an encoding longer than 32 bits decode to that error (R122). -/
theorem decode_tooLong (b0 b1 : Byte) (rest : List Byte) (h : parcelLength (b1 ++ b0) = none) :
    decode (b0 :: b1 :: rest) = .error .tooLong := by
  simp only [decode, h]

/-- An illegal SYSTEM encoding raises illegal instruction with its bits (R129, R404). -/
theorem executeBytes_illegalSystem (inp : Input) (bs : List Byte) (s : State)
    (h : decode bs = .error .illegalSystem) :
    executeBytes inp bs s = .next (takeTrap (.exc .illegalInstr) (leValue bs) s) := by
  unfold executeBytes
  rw [h]
  rfl

/-- A longer encoding raises illegal instruction with the free trap value (R122, R404). -/
theorem executeBytes_tooLong (inp : Input) (bs : List Byte) (s : State) (h : decode bs = .error .tooLong) :
    executeBytes inp bs s = .next (takeTrap (.exc .illegalInstr) (Config.freeLongTval s.tick) s) := by
  unfold executeBytes
  rw [h]
  rfl

/-- A fetch that finds a longer encoding raises illegal instruction with the free trap value (R122, R404). -/
theorem fetchExecute_tooLong (inp : Input) (s s' : State) (h : fetch inp s = .tooLong s') :
    fetchExecute inp s = .next (takeTrap (.exc .illegalInstr) (Config.freeLongTval s'.tick) s') := by
  unfold fetchExecute
  rw [h]
  rfl

/-- Settles O4: the SYSTEM words by `decodeWord_no_row`, the zero parcel by running it, a longer encoding by its first
parcel or by the answer of the fetch. -/
theorem illegalEncodingsTrap : Obligations.IllegalEncodingsTrap := by
  refine fun inp s => ⟨fun w h0 hrow => ?_, rfl,
    fun b0 b1 rest h => ⟨_, executeBytes_tooLong inp _ s (decode_tooLong b0 b1 rest (parcelLength_long b0 b1 h))⟩,
    fun s' h => ⟨_, fetchExecute_tooLong inp s s' h⟩⟩
  have hd : decode (leBytes 4 (w.setWidth 64) ++ []) = .error .illegalSystem := by
    rw [decode_of_opcode w [] (.inl h0), decodeWord_no_row w h0 hrow]
    rfl
  rw [List.append_nil] at hd
  rw [executeBytes_illegalSystem inp _ s hd, leValue_leBytes_four]

end Sys2Proof.Machine
end

section
/-! PROOF. The CSR instructions: which accesses complete and which trap (O6, O7), the state each instruction leaves (O8
to O13), and what a set or clear modifies (O14). -/

namespace Sys2Proof.Machine

/-! ### The supported addresses -/

/-- The map lists every register. -/
theorem mem_allCsrs (c : Csr) : c ∈ allCsrs :=
  List.mem_of_find?_eq_some (csrOfAddr_csrAddr c)

/-- Two registers have two addresses: the map goes back from the address. -/
theorem csrAddr_injective : Function.Injective csrAddr := by
  intro c d h
  have e := csrOfAddr_csrAddr c
  rw [h, csrOfAddr_csrAddr d] at e
  exact (Option.some.inj e).symm

/-- The map lists no register twice. -/
theorem nodup_allCsrs : allCsrs.Nodup := by decide +kernel

/-- A supported address is the address of a register (R29, R161). -/
theorem supported_iff_mem (a : CsrAddr) : a ∈ allCsrs.map csrAddr ↔ Supported a := by
  rw [List.mem_map]
  constructor
  · rintro ⟨c, -, rfl⟩
    exact supported_csrAddr c
  · intro h
    obtain ⟨c, hc⟩ := csrOfAddr_of_supported a h
    exact ⟨c, mem_allCsrs c, csrAddr_of_csrOfAddr a c hc⟩

/-- No vetoed range meets a row of R29. -/
theorem vetoedRanges_disjoint : ∀ v ∈ vetoedRanges, ∀ r ∈ supportedRanges, v.2 < r.1 ∨ r.2 < v.1 := by decide +kernel

/-- A vetoed address is not supported (R30). -/
theorem not_supported_of_vetoed (a : CsrAddr) (h : csrVetoed a = true) : ¬Supported a := by
  simp only [csrVetoed, List.any_eq_true, Bool.and_eq_true, decide_eq_true_eq] at h
  obtain ⟨v, hv, hlo, hhi⟩ := h
  rintro ⟨r, hr, rlo, rhi⟩
  have apart := vetoedRanges_disjoint v hv r hr
  omega

/-! ### The six forms as one operation -/

/-- Each of the six forms is `csrInstr` with its own operation and operand, and attempts the write that `csrInstr`
makes (R160, R164). -/
theorem exec_csrForm (rd : Reg) (a : CsrAddr) (src : BitVec 5) (i : Instr) (s : State) (hi : i ∈ csrForms rd a src) :
    ∃ op v z, attemptsWrite i = csrDoesWrite op z ∧ exec i s = csrInstr op rd a v z (instrBits i) s := by
  simp only [csrForms, List.mem_cons, List.not_mem_nil, or_false] at hi
  rcases hi with rfl | rfl | rfl | rfl | rfl | rfl
  · exact ⟨.write, readX src s, false, rfl, rfl⟩
  · exact ⟨.set, readX src s, src == 0, rfl, rfl⟩
  · exact ⟨.clear, readX src s, src == 0, rfl, rfl⟩
  · exact ⟨.write, immOperand src, false, rfl, rfl⟩
  · exact ⟨.set, immOperand src, src == 0, rfl, rfl⟩
  · exact ⟨.clear, immOperand src, src == 0, rfl, rfl⟩

/-- A CSR instruction whose access is not legal takes the illegal-instruction trap with its own bits (R175). -/
theorem exec_csrForm_illegal (rd : Reg) (a : CsrAddr) (src : BitVec 5) (i : Instr) (s : State)
    (hi : i ∈ csrForms rd a src) (h : ¬Accessible a (attemptsWrite i) s) : exec i s = .next (illegalTrap i s) := by
  obtain ⟨op, v, z, hw, he⟩ := exec_csrForm rd a src i s hi
  rw [he]
  exact csrInstr_illegal op rd a v z _ s (csrAccess_none_of_not_accessible a _ s (hw ▸ h))

/-- Settles O6: the addresses of the listed registers are the supported ones, the vetoed ranges miss them, and an
unsupported address makes no access legal. -/
theorem unsupportedCsrsTrap : Obligations.UnsupportedCsrsTrap :=
  ⟨⟨allCsrs.map csrAddr, nodup_allCsrs.map csrAddr_injective, by decide +kernel, supported_iff_mem⟩,
    not_supported_of_vetoed,
    fun rd a src i s hi h => exec_csrForm_illegal rd a src i s hi fun ⟨supported, _⟩ => h supported⟩

/-! ### The state a legal CSR instruction leaves -/

/-- What a legal CSR instruction leaves, `u` being the state after its CSR write, if any, and `n` the new `minstret`:
`rd` takes the read view from before, the pc advances by 4, and the rest is as in `u` (R160, R174, R177). -/
def CsrResult (rd : Reg) (c : Csr) (s u : State) (n : Word) (t : State) : Prop :=
  (∀ r, readX r t = if r = rd ∧ r ≠ 0#5 then csrRead c s else readX r s) ∧
    t = { u with x := t.x, pc := s.pc + 4, minstret := n }

/-- Storing to `rd`, advancing the pc and retiring change the registers, the pc and `minstret` alone. -/
theorem retire_advancePc_writeX (b : Bool) (rd : Reg) (v : Word) (u : State) :
    retire b (advancePc 4 (writeX rd v u)) =
      { u with
        x := (writeX rd v u).x
        pc := u.pc + 4
        minstret := if b then u.minstret else countedInstret u } := by
  cases b <;> rfl

/-- What a legal CSR instruction answers, whatever its operation: the count is left out where `minstret` is written. -/
theorem csrInstr_result (op : CsrOp) (rd : Reg) (c : Csr) (src : Word) (z : Bool) (bits : Word) (s u : State)
    (h : Accessible (csrAddr c) (csrDoesWrite op z) s)
    (hu : u = if csrDoesWrite op z then csrWrite c (csrNewValue op c src s) s else s) :
    ∃ t, csrInstr op rd (csrAddr c) src z bits s = .next t ∧
      CsrResult rd c s u (if c = .minstret ∧ csrDoesWrite op z = true then u.minstret else countedInstret u) t := by
  have kept : u.x = s.x ∧ u.pc = s.pc := by
    subst hu
    split <;> simp
  refine ⟨_, csrInstr_legal op rd _ src z bits s c ((accessible_iff c _ s).mp h), fun r => ?_, ?_⟩
  · rw [← hu]
    calc readX r (retire _ (advancePc 4 (writeX rd (csrRead c s) u)))
        = readX r (writeX rd (csrRead c s) u) := readX_congr r _ _ rfl
      _ = if r = rd ∧ r ≠ 0#5 then csrRead c s else readX r u := readX_writeX r rd _ u
      _ = if r = rd ∧ r ≠ 0#5 then csrRead c s else readX r s := by rw [readX_congr r s u kept.1]
  · rw [← hu, retire_advancePc_writeX, kept.2]
    simp only [Bool.and_eq_true, beq_iff_eq, and_comm]

/-- CSRRW and CSRRWI always write, so `minstret` holds the written value or counts (R166, R169). -/
theorem csrInstr_write_result (rd : Reg) (c : Csr) (v bits : Word) (s : State) (h : Accessible (csrAddr c) true s) :
    ∃ t, csrInstr .write rd (csrAddr c) v false bits s = .next t ∧
      CsrResult rd c s (csrWrite c v s) (if c = .minstret then v else countedInstret (csrWrite c v s)) t := by
  have written : (if c = .minstret ∧ csrDoesWrite .write false = true then (csrWrite c v s).minstret
      else countedInstret (csrWrite c v s)) = if c = .minstret then v else countedInstret (csrWrite c v s) := by
    by_cases hc : c = .minstret
    · rw [if_pos ⟨hc, rfl⟩, if_pos hc, csrWrite_minstret, if_pos hc]
    · rw [if_neg fun k => hc k.1, if_neg hc]
  exact written ▸ csrInstr_result .write rd c v false bits s _ h rfl

/-- A set or clear writes unless its operand field `o` is 0 (R164, R167, R168, R170, R171). -/
theorem csrInstr_modify_result (op : CsrOp) (hop : op ≠ .write) (rd : Reg) (c : Csr) (src : Word) (o : BitVec 5)
    (bits : Word) (s u : State) (h : Accessible (csrAddr c) (o != 0#5) s)
    (hu : u = if o = 0#5 then s else csrWrite c (csrNewValue op c src s) s) :
    ∃ t, csrInstr op rd (csrAddr c) src (o == 0) bits s = .next t ∧
      CsrResult rd c s u (if c = .minstret ∧ o ≠ 0#5 then u.minstret else countedInstret u) t := by
  have writes : csrDoesWrite op (o == 0) = (o != 0#5) := by
    cases op with
    | write => exact absurd rfl hop
    | set => rfl
    | clear => rfl
  have result := csrInstr_result op rd c src (o == 0) bits s u (writes ▸ h) (by
    rw [hu, writes]
    by_cases ho : o = 0#5 <;> simp [ho])
  simpa only [writes, bne_iff_ne] using result

/-- Settles O7: a legal access reaches the register at its address and completes, any other takes the trap. -/
theorem csrLegality : Obligations.CsrLegality := by
  refine fun rd a src i s hi => ⟨fun h => ?_, exec_csrForm_illegal rd a src i s hi⟩
  obtain ⟨op, v, z, hw, he⟩ := exec_csrForm rd a src i s hi
  obtain ⟨c, hc⟩ := csrOfAddr_of_supported a h.1
  obtain rfl := csrAddr_of_csrOfAddr a c hc
  obtain ⟨t, ht, -, e⟩ := csrInstr_result op rd c v z (instrBits i) s _ (hw ▸ h) rfl
  refine ⟨t, he.trans ht, congrArg (·.pc) e, (congrArg (·.priv) e).trans ?_⟩
  change (if csrDoesWrite op z then csrWrite c (csrNewValue op c v s) s else s).priv = s.priv
  split
  · exact csrWrite_priv _ _ _
  · rfl

/-- Settles O8: CSRRW writes its source register. -/
theorem csrrwResult : Obligations.CsrrwResult :=
  fun rd c rs1 s h => csrInstr_write_result rd c (readX rs1 s) _ s h

/-- Settles O9: CSRRS sets the bits of its source register. -/
theorem csrrsResult : Obligations.CsrrsResult :=
  fun rd c rs1 s u h hu => csrInstr_modify_result .set (by decide) rd c (readX rs1 s) rs1 _ s u h hu

/-- Settles O10: CSRRC clears the bits of its source register. -/
theorem csrrcResult : Obligations.CsrrcResult :=
  fun rd c rs1 s u h hu => csrInstr_modify_result .clear (by decide) rd c (readX rs1 s) rs1 _ s u h hu

/-- Settles O11: CSRRWI writes its immediate. -/
theorem csrrwiResult : Obligations.CsrrwiResult :=
  fun rd c uimm s h => csrInstr_write_result rd c (immOperand uimm) _ s h

/-- Settles O12: CSRRSI sets the bits of its immediate. -/
theorem csrrsiResult : Obligations.CsrrsiResult :=
  fun rd c uimm s u h hu => csrInstr_modify_result .set (by decide) rd c (immOperand uimm) uimm _ s u h hu

/-- Settles O13: CSRRCI clears the bits of its immediate. -/
theorem csrrciResult : Obligations.CsrrciResult :=
  fun rd c uimm s u h hu => csrInstr_modify_result .clear (by decide) rd c (immOperand uimm) uimm _ s u h hu

/-! ### What a set or clear modifies -/

/-- Only `mip` and `sip` have a base of their own (R173). -/
theorem csrRmwBase_eq_csrRead (c : Csr) (s : State) (hm : c ≠ .mip) (hs : c ≠ .sip) :
    csrRmwBase c s = csrRead c s := by
  cases c with
  | mip => exact absurd rfl hm
  | sip => exact absurd rfl hs
  | _ => rfl

/-- The bit given to `mipWith` appears in bit 9 alone (R37). -/
theorem getLsbD_mipWith_of_ne (b b' : Bool) (s : State) (k : Nat) (hk : k ≠ 9) :
    (mipWith b s).getLsbD k = (mipWith b' s).getLsbD k := by
  have none9 : ∀ b, (bitAt b 9).getLsbD k = false := fun b => by
    rw [getLsbD_bitAt b 9 k (by decide), decide_eq_false hk, Bool.and_false]
  simp only [mipWith, BitVec.getLsbD_or, none9]

/-- The S-level bits are seen through `sie` and `sip` unless the parameter hides what is not delegated (R282, R291). -/
theorem getLsbD_sieSipMask_supervisor (i : Irq) (s : State) (h : i = .ssi ∨ i = .sti ∨ i = .sei) :
    (sieSipMask s).getLsbD (irqCode i) = (!s.cfg.sieSipGated || s.mideleg.getLsbD (irqCode i)) := by
  have level : (0x222 : Word).getLsbD (irqCode i) = true := by rcases h with rfl | rfl | rfl <;> decide
  unfold sieSipMask
  cases s.cfg.sieSipGated with
  | false => exact level
  | true =>
    rw [if_pos rfl, BitVec.getLsbD_and, level]
    rfl

/-- Setting bits of `mip` other than bit 9 keeps the software bit of `SEIP` (R173, R234). -/
theorem csrWrite_mip_seip (v : Word) (s : State) (hv : v.getLsbD 9 = false) :
    (csrWrite .mip (csrRmwBase .mip s ||| v) s).pend.seip = s.pend.seip := by
  change (mipWith s.pend.seip s ||| v).getLsbD 9 = s.pend.seip
  rw [BitVec.getLsbD_or, hv, Bool.or_false]
  exact getLsbD_mipWith .sei _ s

/-- M-mode reaches `mip`, to read or to write. -/
theorem accessible_mip (w : Bool) (s : State) (h : s.priv = .machine) : Accessible (csrAddr .mip) w s := by
  rw [accessible_iff, csrAccess_eq_some]
  exact ⟨csrOfAddr_csrAddr _, by rw [h]; decide, by cases w <;> decide, rfl⟩

/-- Settles O14: the bases of `mip` and `sip` bit by bit, and CSRRS on `mip` by `csrrsResult`. -/
theorem rmwBase : Obligations.RmwBase := by
  intro s
  refine ⟨fun c hm hs => csrRmwBase_eq_csrRead c s hm hs, fun k hk => ?_, getLsbD_mipWith .sei _ s, ?_,
    fun rd rs1 hp hv => ?_⟩
  · have base := getLsbD_mipWith_of_ne s.pend.seip (s.pend.seip || s.inSEIP) s k hk
    refine ⟨base, ?_⟩
    change (mipWith _ s &&& sieSipMask s).getLsbD k = (mipWith _ s &&& sieSipMask s).getLsbD k
    rw [BitVec.getLsbD_and, BitVec.getLsbD_and, base]
  · change (mipWith _ s &&& sieSipMask s).getLsbD (irqCode .sei) = _
    rw [BitVec.getLsbD_and, getLsbD_mipWith, getLsbD_sieSipMask_supervisor .sei s (by simp)]
    rfl
  · obtain ⟨t, ht, -, e⟩ := csrrsResult rd .mip rs1 s _ (accessible_mip _ s hp) rfl
    refine ⟨t, ht, (congrArg (·.pend.seip) e).trans ?_⟩
    change (if rs1 = 0#5 then s else csrWrite .mip (csrRmwBase .mip s ||| readX rs1 s) s).pend.seip = s.pend.seip
    split
    · rfl
    · exact csrWrite_mip_seip _ s hv

end Sys2Proof.Machine
end

section
/-! PROOF. Isolation: no instruction below M-mode changes what M-mode owns (O59), and none in U-mode what S-mode owns
(O60), unless it traps there. -/

namespace Sys2Proof.Machine

/-! ### CSR writes and levels -/

/-- The numbered machine counters are of M-level (R120). -/
theorem csrLevel_mhpmcounter : ∀ i : Fin 29, csrLevel (csrAddr (.mhpmcounter i)) = 3#2 := by decide +kernel

/-- A legal access names an address of no higher level than the mode (R120, R162). -/
theorem csrLevel_le_of_csrAccess (a : CsrAddr) (w : Bool) (s : State) (c : Csr) (h : csrAccess a w s = some c) :
    csrLevel (csrAddr c) ≤ privCode s.priv := by
  obtain ⟨hc, hl, -⟩ := (csrAccess_eq_some a w s c).mp h
  rwa [csrAddr_of_csrOfAddr a c hc]

/-- Only a CSR of M-level stores what M-mode owns: `sstatus`, `sie` and `sip` leave the M-mode bits of the storage they
share (R281, R282, R292). -/
theorem machineOwned_csrWrite (c : Csr) (v : Word) (s : State) (h : csrLevel (csrAddr c) ≠ 3#2) :
    machineOwned (csrWrite c v s) = machineOwned s := by
  cases c with
  | mstatus | medeleg | mideleg | mie | mtvec | mcounteren | menvcfg | mcountinhibit | mscratch | mepc | mcause | mtval
  | mip | mcycle => exact absurd rfl h
  | mhpmcounter i => exact absurd (csrLevel_mhpmcounter i) h
  | _ => rfl

/-- No CSR of U-level stores what S-mode owns: the writable ones are the floating-point CSRs (R323). -/
theorem supervisorOwned_csrWrite (c : Csr) (v : Word) (s : State) (h : csrLevel (csrAddr c) = 0#2) :
    supervisorOwned (csrWrite c v s) = supervisorOwned s := by
  cases c with
  | mstatus | mie | mip | sstatus | sie | stvec | scounteren | senvcfg | sscratch | sepc | scause | stval | sip
  | satp => exact absurd h (by decide)
  | _ => rfl

/-- The CSR access of an instruction below M-mode keeps what M-mode owns (R162). -/
theorem machineOwned_csrAccess (a : CsrAddr) (w b : Bool) (rd : Reg) (c : Csr) (v old : Word) (s : State)
    (hp : s.priv ≠ .machine) (hc : csrAccess a w s = some c) :
    machineOwned (retire b (advancePc 4 (writeX rd old (if w then csrWrite c v s else s)))) = machineOwned s := by
  have level : csrLevel (csrAddr c) ≠ 3#2 := by
    intro e
    have hle := csrLevel_le_of_csrAccess a w s c hc
    rw [e] at hle
    revert hle hp
    cases s.priv <;> decide
  cases w with
  | false => rfl
  | true => exact machineOwned_csrWrite c v s level

/-- The CSR access of an instruction in U-mode keeps what S-mode owns (R162). -/
theorem supervisorOwned_csrAccess (a : CsrAddr) (w b : Bool) (rd : Reg) (c : Csr) (v old : Word) (s : State)
    (hp : s.priv = .user) (hc : csrAccess a w s = some c) :
    supervisorOwned (retire b (advancePc 4 (writeX rd old (if w then csrWrite c v s else s)))) =
      supervisorOwned s := by
  have level : csrLevel (csrAddr c) = 0#2 := by
    have hle := csrLevel_le_of_csrAccess a w s c hc
    rw [hp] at hle
    exact BitVec.le_zero_iff.mp hle
  cases w with
  | false => rfl
  | true => exact supervisorOwned_csrWrite c v s level

/-! ### Traps and returns -/

/-- A trap that does not enter M-mode keeps what M-mode owns (R420, R430, R435). -/
theorem machineOwned_takeTrap (c : Cause) (tval : Word) (s : State) (h : (takeTrap c tval s).priv ≠ .machine) :
    machineOwned (takeTrap c tval s) = machineOwned s := by
  rcases takeTrap_cases c tval s with ⟨-, e⟩ | ⟨-, e⟩
  · rw [e]
    rfl
  · rw [e] at h
    exact absurd rfl h

/-- No trap stays in U-mode (R430). -/
theorem takeTrap_priv_ne_user (c : Cause) (tval : Word) (s : State) : (takeTrap c tval s).priv ≠ .user := by
  rw [takeTrap_priv]
  split <;> decide

/-- SRET clears `MPRV`, which is 0 below M-mode already (R209, R354). -/
theorem machineOwned_returnS (s : State) (h : s.status.mprv = false) :
    machineOwned (returnS s) = machineOwned s := by
  simp only [machineOwned, h]
  rfl

/-! ### The statements -/

/-- Settles O59, along the cases of an instruction: the trap enters S-mode, the CSR is of a lower level, MRET is illegal,
and SRET finds `MPRV` clear. -/
theorem machineStateIsolated : Obligations.MachineStateIsolated := by
  intro i s t hs hp ht htp
  have mprv : s.status.mprv = false := Bool.eq_false_iff.mpr fun h => hp (hs.mprvMachine h)
  rcases exec_cases i s with ⟨e, v, he⟩ | ⟨op, rd, a, src, z, c, hc, -, he⟩ | ⟨-, hm, -⟩ | ⟨-, -, he⟩ |
    ⟨w, tlb, fence, stale, he⟩
  · cases he.symm.trans ht
    exact machineOwned_takeTrap _ _ s htp
  · cases he.symm.trans ht
    exact machineOwned_csrAccess a _ _ rd c _ _ s hp hc
  · exact absurd hm hp
  · cases he.symm.trans ht
    exact machineOwned_returnS s mprv
  · cases he.symm.trans ht
    rfl

/-- Settles O60, along the cases of an instruction: in U-mode a trap leaves the mode, both returns are illegal, and the
CSR is of U-level. -/
theorem supervisorStateIsolated : Obligations.SupervisorStateIsolated := by
  intro i s t hp ht htp
  have notM : s.priv ≠ .machine := by simp [hp]
  rcases exec_cases i s with ⟨e, v, he⟩ | ⟨op, rd, a, src, z, c, hc, -, he⟩ | ⟨-, hm, -⟩ | ⟨-, hl, -⟩ |
    ⟨w, tlb, fence, stale, he⟩
  · cases he.symm.trans ht
    exact absurd htp (takeTrap_priv_ne_user _ _ s)
  · cases he.symm.trans ht
    exact ⟨supervisorOwned_csrAccess a _ _ rd c _ _ s hp hc, machineOwned_csrAccess a _ _ rd c _ _ s notM hc⟩
  · exact absurd hm notM
  · simp [hp] at hl
  · cases he.symm.trans ht
    exact ⟨rfl, rfl⟩

end Sys2Proof.Machine
end

section
/-! PROOF. `mstatus`: its read view (O17) and its write effect (O18); and `MIE` clear in M-mode, as after a reset (O45). -/

namespace Sys2Proof.Machine

/-! ### The read view, bit by bit -/

/-- The bits of `mstatus` (R205). -/
def statusBit (st : Status) : Nat → Bool
  | 1 => st.sie
  | 3 => st.mie
  | 5 => st.spie
  | 7 => st.mpie
  | 8 => st.spp
  | 9 => st.vs.getLsbD 0
  | 10 => st.vs.getLsbD 1
  | 11 => (privCode st.mpp).getLsbD 0
  | 12 => (privCode st.mpp).getLsbD 1
  | 13 => st.fs.getLsbD 0
  | 14 => st.fs.getLsbD 1
  | 17 => st.mprv
  | 18 => st.sum
  | 19 => st.mxr
  | 20 => st.tvm
  | 21 => st.tw
  | 22 => st.tsr
  | 33 => true
  | 35 => true
  | 63 => statusSD st
  | _ => false

/-- `mstatus` shows the bits of the table of R205. -/
theorem getLsbD_mstatusView (s : State) (k : Nat) (hk : k < 64) :
    (mstatusView s).getLsbD k = statusBit s.status k := by
  unfold mstatusView
  simp only [BitVec.getLsbD_or, getLsbD_fieldAt, getLsbD_bitAt _ _ _ (by decide : 1 < 64),
    getLsbD_bitAt _ _ _ (by decide : 3 < 64), getLsbD_bitAt _ _ _ (by decide : 5 < 64),
    getLsbD_bitAt _ _ _ (by decide : 7 < 64), getLsbD_bitAt _ _ _ (by decide : 8 < 64),
    getLsbD_bitAt _ _ _ (by decide : 17 < 64), getLsbD_bitAt _ _ _ (by decide : 18 < 64),
    getLsbD_bitAt _ _ _ (by decide : 19 < 64), getLsbD_bitAt _ _ _ (by decide : 20 < 64),
    getLsbD_bitAt _ _ _ (by decide : 21 < 64), getLsbD_bitAt _ _ _ (by decide : 22 < 64),
    getLsbD_bitAt _ _ _ (by decide : 63 < 64)]
  interval_cases k <;> simp [statusBit]

/-- A field of `mstatus` reads what its bits of the table say (R205). -/
theorem extractLsb'_mstatusView (s : State) {w : Nat} (a : Nat) (x : BitVec w) (h : a + w ≤ 64)
    (bits : ∀ i < w, statusBit s.status (a + i) = x.getLsbD i) : (mstatusView s).extractLsb' a w = x := by
  apply BitVec.eq_of_getLsbD_eq
  intro i hi
  rw [BitVec.getLsbD_extractLsb', getLsbD_mstatusView s _ (by omega), bits i hi]
  simp [hi]

/-- A two-bit field of `mstatus` is its two bits (R205). -/
theorem extractLsb'_mstatusView_two (s : State) (a : Nat) (x : BitVec 2) (h : a + 2 ≤ 64)
    (low : statusBit s.status a = x.getLsbD 0) (high : statusBit s.status (a + 1) = x.getLsbD 1) :
    (mstatusView s).extractLsb' a 2 = x := by
  refine extractLsb'_mstatusView s a x h fun i hi => ?_
  interval_cases i
  · exact low
  · exact high

/-- Bits 62:38 and 31:23 of `mstatus` read 0, whatever is stored (R205). -/
theorem statusBit_reserved (st : Status) (k : Nat) (h : 23 ≤ k ∧ k ≤ 31 ∨ 38 ≤ k ∧ k ≤ 62) :
    statusBit st k = false := by
  rcases h with ⟨hl, hu⟩ | ⟨hl, hu⟩ <;> interval_cases k <;> rfl

/-- A field of `mstatus` in bits 62:38 or 31:23 reads 0 (R205). -/
theorem extractLsb'_mstatusView_reserved (s : State) (a w : Nat)
    (h : 23 ≤ a ∧ a + w ≤ 32 ∨ 38 ≤ a ∧ a + w ≤ 63) : (mstatusView s).extractLsb' a w = 0#w :=
  extractLsb'_mstatusView s a 0#w (by omega) fun i hi =>
    (statusBit_reserved s.status (a + i) (by omega)).trans BitVec.getLsbD_zero.symm

/-- Settles O17: each bit and each field of the table of R205. -/
theorem mstatusRead : Obligations.MstatusRead := by
  intro s v hv
  obtain rfl : v = mstatusView s := hv
  have bit := getLsbD_mstatusView s
  have field := extractLsb'_mstatusView_two s
  have reserved := extractLsb'_mstatusView_reserved s
  exact ⟨bit 63 (by decide), reserved 38 25 (by decide), field 36 _ (by decide) rfl rfl,
    field 34 _ (by decide) rfl rfl, field 32 _ (by decide) rfl rfl, reserved 23 9 (by decide), bit 22 (by decide),
    bit 21 (by decide), bit 20 (by decide), bit 19 (by decide), bit 18 (by decide), bit 17 (by decide),
    field 15 _ (by decide) rfl rfl, field 13 _ (by decide) rfl rfl, field 11 _ (by decide) rfl rfl,
    field 9 _ (by decide) rfl rfl, bit 8 (by decide), bit 7 (by decide), bit 6 (by decide), bit 5 (by decide),
    bit 4 (by decide), bit 3 (by decide), bit 2 (by decide), bit 1 (by decide), bit 0 (by decide)⟩

/-! ### The write effect -/

/-- The number of a legal mode is stored in `MPP` as written (R206). -/
theorem privCode_warlMpp (w : WarlMpp) (old : Priv) (v : BitVec 2) (h : v ≠ 2#2) :
    privCode (warlMpp w old v) = v := by
  have legal : v = 0#2 ∨ v = 1#2 ∨ v = 3#2 := by
    revert v
    decide
  rcases legal with rfl | rfl | rfl <;> rfl

/-- With `VS` 0 and unwritable and a legal `MPP`, each bit below `SD` reads back as written where it is writable, and as
the constants of `SXL` and `UXL` elsewhere (R205, R206). -/
theorem statusBit_writeMstatus (v : Word) (s : State) (hw : s.cfg.vsWritable = false) (hvs : s.status.vs = 0#2)
    (hmpp : v.extractLsb' 11 2 ≠ 2#2) (k : Nat) (hk : k < 63) :
    statusBit (writeMstatus v s).status k = ((v &&& 0x7E79AA) ||| 0xA00000000 : Word).getLsbD k := by
  have vs : writeVs s.cfg v s.status.vs = 0#2 := (csrWrite_vs .mstatus v s hw).trans hvs
  have mpp : privCode (warlMpp s.cfg.warlMpp s.status.mpp (v.extractLsb' 11 2)) = v.extractLsb' 11 2 :=
    privCode_warlMpp _ _ _ hmpp
  rw [BitVec.getLsbD_or, BitVec.getLsbD_and]
  interval_cases k <;> simp [statusBit, writeMstatus, vs, mpp]

/-- What `mstatus` reads back but for `SD`, with `VS` 0 and unwritable and a legal `MPP` (R206). -/
theorem mstatusView_writeMstatus (v : Word) (s : State) (hw : s.cfg.vsWritable = false) (hvs : s.status.vs = 0#2)
    (hmpp : v.extractLsb' 11 2 ≠ 2#2) :
    mstatusView (writeMstatus v s) &&& 0x7FFFFFFFFFFFFFFF = (v &&& 0x7E79AA) ||| 0xA00000000 := by
  have below : ∀ k < 63, (0x7FFFFFFFFFFFFFFF : Word).getLsbD k = true := by decide
  apply BitVec.eq_of_getLsbD_eq
  intro k hk
  rw [BitVec.getLsbD_and, getLsbD_mstatusView _ k hk]
  by_cases h : k < 63
  · rw [below k h, Bool.and_true, statusBit_writeMstatus v s hw hvs hmpp k h]
  · obtain rfl : k = 63 := by omega
    simp

/-- Settles O18: the stored fields, the legal `MPP`, and the word read back. -/
theorem mstatusWrite : Obligations.MstatusWrite := by
  intro v s t ht
  obtain rfl : t = writeMstatus v s := ht
  exact ⟨rfl, rfl, rfl, rfl, rfl, rfl, rfl, rfl, rfl, rfl, rfl, rfl, rfl, privCode_warlMpp _ _ _, rfl,
    mstatusView_writeMstatus v s⟩

/-! ### Interrupts in M-mode with `MIE` clear -/

/-- No interrupt is selected where none is enabled, into M-mode or into S-mode (R411). -/
theorem selectInterrupt_eq_none_of_disabled (s : State) (hm : ¬ EnabledFor .machine s)
    (hs : ¬ EnabledFor .supervisor s) : selectInterrupt s = none := by
  rw [← mEnabled_iff] at hm
  rw [← sEnabled_iff] at hs
  simp [selectInterrupt, hm, hs]

/-- In M-mode with `MIE` 0 interrupts are enabled into neither mode (R207, R411). -/
theorem not_enabledFor_of_mie_clear (p : Priv) (s : State) (hp : s.priv = .machine) (h : s.status.mie = false) :
    ¬ EnabledFor p s := by
  simp [EnabledFor, hp, h]

/-- A reset leaves the hart in M-mode with `MIE` 0 (R481). -/
theorem ResetState.mie_clear {s : State} (h : ResetState s) : s.priv = .machine ∧ s.status.mie = false := by
  obtain ⟨draw, hd⟩ := h
  rw [hd]
  exact ⟨rfl, rfl⟩

/-- Settles O45: `MIE` 0 disables both groups, and a reset leaves it 0 in M-mode. -/
theorem noInterruptWithMieClear : Obligations.NoInterruptWithMieClear := by
  intro s
  have clear : s.priv = .machine → s.status.mie = false → selectInterrupt s = none := fun hp h =>
    selectInterrupt_eq_none_of_disabled s (not_enabledFor_of_mie_clear .machine s hp h)
      (not_enabledFor_of_mie_clear .supervisor s hp h)
  refine ⟨clear, fun hr => ?_⟩
  obtain ⟨hp, h⟩ := hr.mie_clear
  exact clear hp h

end Sys2Proof.Machine
end

section
/-! PROOF. `satp` under `TVM` (O15), and `sstatus` as a window onto `mstatus` (O19). -/

namespace Sys2Proof.Machine

/-! ### `satp` under `TVM` -/

/-- `satp` is reached, to read or to write, from M-mode, and from S-mode with `TVM` clear (R162, R302). -/
theorem accessible_satp_iff (w : Bool) (s : State) :
    Accessible (csrAddr .satp) w s ↔ s.priv = .machine ∨ s.priv = .supervisor ∧ s.status.tvm = false := by
  have level : csrLevel (csrAddr .satp) ≤ privCode s.priv ↔ s.priv ≠ .user := by
    cases s.priv <;> decide
  have writable : (w && csrReadOnly (csrAddr .satp)) = false := by
    cases w <;> decide
  have gate : csrGate .satp s = true ↔ (s.priv = .supervisor → s.status.tvm = false) := by
    cases h : s.priv <;> simp [csrGate, h]
  rw [accessible_iff, csrAccess_eq_some, level, gate]
  simp only [csrOfAddr_csrAddr, writable, true_and]
  cases s.priv <;> simp

/-- Settles O15: TVM and U-mode make the access illegal, M-mode keeps it legal, and the trap leaves `satp` alone. -/
theorem satpTvm : Obligations.SatpTvm := by
  intro rd src i s hi
  have illegal (h : ¬(s.priv = .machine ∨ s.priv = .supervisor ∧ s.status.tvm = false)) :
      exec i s = .next (illegalTrap i s) :=
    exec_csrForm_illegal rd 0x180 src i s hi (mt (accessible_satp_iff _ s).mp h)
  refine ⟨fun hp ht => ⟨illegal (by simp [hp, ht]), congrArg satpView (takeTrap_satp _ _ s)⟩, fun hp => ?_,
    fun hp => illegal (by simp [hp])⟩
  obtain ⟨t, he, hpc, hpriv⟩ := (csrLegality rd 0x180 src i s hi).1 ((accessible_satp_iff _ s).mpr (.inl hp))
  exact ⟨t, he, hpriv.trans hp, hpc⟩

/-! ### `sstatus` as a window onto `mstatus` -/

/-- With `VS` unwritable, a write of `sstatus` sets bits 1, 5, 8, 13, 14, 18 and 19 of `mstatus` and leaves every other
bit below `SD` (R281). -/
theorem statusBit_writeSstatus (v : Word) (s : State) (hw : s.cfg.vsWritable = false) (k : Nat) (hk : k < 63) :
    statusBit (writeSstatus v s).status k =
      if (0xC6122 : Word).getLsbD k then v.getLsbD k else statusBit s.status k := by
  have vs : writeVs s.cfg v s.status.vs = s.status.vs := csrWrite_vs .sstatus v s hw
  interval_cases k <;> simp [statusBit, writeSstatus, vs]

/-- What `mstatus` reads, but for `SD`, after a write of `sstatus` with `VS` unwritable: the written bits merged into
the bits from before (R60, R281). -/
theorem mstatusView_writeSstatus (v : Word) (s : State) (hw : s.cfg.vsWritable = false) :
    mstatusView (writeSstatus v s) &&& 0x7FFFFFFFFFFFFFFF =
      (mstatusView s &&& 0x7FFFFFFFFFF39EDD) ||| (v &&& 0xC6122) := by
  have below : ∀ k < 64, (0x7FFFFFFFFFFFFFFF : Word).getLsbD k = decide (k < 63) := by decide
  have merged : mstatusView (writeSstatus v s) &&& 0x7FFFFFFFFFFFFFFF =
      ((mstatusView s &&& ~~~0xC6122) ||| (v &&& 0xC6122)) &&& 0x7FFFFFFFFFFFFFFF := by
    apply BitVec.eq_of_getLsbD_eq
    intro k hk
    rw [BitVec.getLsbD_and, BitVec.getLsbD_and, getLsbD_merge _ _ _ k hk, getLsbD_mstatusView _ k hk,
      getLsbD_mstatusView _ k hk, below k hk]
    by_cases h : k < 63
    · rw [statusBit_writeSstatus v s hw k h]
    · simp [h]
  rw [merged, or_and_mask, BitVec.and_assoc, BitVec.and_assoc]
  rfl

/-- Of the bits that `sstatus` shows and no write sets, only `UXL` is not 0 where `VS` is 0 (R280). -/
theorem mstatusView_unwritten (s : State) (hvs : s.status.vs = 0#2) :
    mstatusView s &&& 0x300018640 = 0x200000000 := by
  apply BitVec.eq_of_getLsbD_eq
  intro k hk
  rw [BitVec.getLsbD_and, getLsbD_mstatusView s k hk]
  interval_cases k <;> simp [statusBit, hvs]

/-- What `sstatus` reads back but for `SD`, with `VS` 0 and unwritable (R280, R281). -/
theorem sstatusView_writeSstatus (v : Word) (s : State) (hw : s.cfg.vsWritable = false) (hvs : s.status.vs = 0#2) :
    mstatusView (writeSstatus v s) &&& sstatusMask &&& 0x7FFFFFFFFFFFFFFF = (v &&& 0xC6122) ||| 0x200000000 := by
  calc mstatusView (writeSstatus v s) &&& sstatusMask &&& 0x7FFFFFFFFFFFFFFF
      = mstatusView (writeSstatus v s) &&& 0x7FFFFFFFFFFFFFFF &&& sstatusMask := by
        rw [BitVec.and_assoc, BitVec.and_assoc, BitVec.and_comm sstatusMask]
    _ = ((mstatusView s &&& 0x7FFFFFFFFFF39EDD) ||| (v &&& 0xC6122)) &&& sstatusMask := by
        rw [mstatusView_writeSstatus v s hw]
    _ = (mstatusView s &&& 0x300018640) ||| (v &&& 0xC6122) := by
        rw [or_and_mask, BitVec.and_assoc, BitVec.and_assoc]
        rfl
    _ = (v &&& 0xC6122) ||| 0x200000000 := by rw [mstatusView_unwritten s hvs, BitVec.or_comm]

/-- Settles O19: the mask of the view, the fields written, and both views read back. -/
theorem sstatusWindow : Obligations.SstatusWindow := by
  intro v s t ht
  obtain rfl : t = writeSstatus v s := ht
  exact ⟨rfl, rfl, fun hw hvs => ⟨sstatusView_writeSstatus v s hw hvs, mstatusView_writeSstatus v s hw⟩⟩

end Sys2Proof.Machine
end

section
/-! PROOF. The system instructions: environment call and breakpoints (O34, O35), trap returns and what they undo (O36 to
O38), and waiting for an interrupt (O39, O46). -/

namespace Sys2Proof.Machine

/-! ### Retiring -/

/-- Retiring changes the count alone (R441). -/
theorem retire_eq_counted (s : State) : retire false s = { s with minstret := countedInstret s } := rfl

/-- Completing a 4-byte instruction advances the pc and counts (R23, R441). -/
theorem retire_advancePc_eq (s : State) :
    retire false (advancePc 4 s) = { s with pc := s.pc + 4, minstret := countedInstret s } := rfl

/-! ### Environment call and breakpoints -/

/-- ECALL raises the exception of the current mode with trap value 0 (R350, R404). -/
theorem exec_ecall (s : State) : exec .ecall s = .next (takeTrap (.exc (ecallOf s.priv)) 0 s) := rfl

/-- EBREAK and C.EBREAK raise a breakpoint with their own address (R351, R352, D33). -/
theorem exec_breakpoint (i : Instr) (s : State) (hi : i ∈ [Instr.ebreak, Instr.cEbreak]) :
    exec i s = .next (takeTrap (.exc .breakpoint) s.pc s) := by
  simp only [List.mem_cons, List.not_mem_nil, or_false] at hi
  rcases hi with rfl | rfl <;> rfl

/-- Settles O34: the exception is chosen by the mode, and the trap keeps `minstret` and memory. -/
theorem ecallTraps : Obligations.EcallTraps := by
  intro s
  have cause (p : Priv) (h : s.priv = p) :
      takeTrap (.exc (ecallOf s.priv)) 0 s = takeTrap (.exc (ecallOf p)) 0 s := by rw [h]
  refine ⟨_, exec_ecall s, cause .user, cause .supervisor, fun h => ⟨cause .machine h, ?_⟩, rfl, rfl, rfl,
    takeTrap_minstret _ _ s, fun a => by rw [takeTrap_mem]⟩
  rw [takeTrap_machine _ _ s h, enterM_priv]

/-- Settles O35: both raise the breakpoint, and the trap keeps `minstret` and memory. -/
theorem ebreakTraps : Obligations.EbreakTraps := fun s i hi =>
  ⟨_, exec_breakpoint i s hi, rfl, rfl, takeTrap_minstret _ _ s, fun a => by rw [takeTrap_mem]⟩

/-! ### Trap returns -/

/-- Settles O36: MRET is legal in M-mode only, and `MPRV` survives a return to M-mode only. -/
theorem mretResult : Obligations.MretResult := by
  refine fun s => ⟨fun h => (execMret_legal s h).trans ?_, execMret_illegal s⟩
  have mprv : (if s.status.mpp = .machine then s.status.mprv else false) =
      (s.status.mprv && decide (s.status.mpp = .machine)) := by
    by_cases hm : s.status.mpp = .machine <;> simp [hm]
  rw [retire_eq_counted, ← mprv]
  rfl

/-- Settles O37: SRET is legal in M-mode and, with `TSR` clear, in S-mode. -/
theorem sretResult : Obligations.SretResult :=
  fun s => ⟨execSret_legal s, execSret_illegal s⟩

/-- A trap that ends in M-mode is the M half of trap entry (R430). -/
theorem takeTrap_eq_enterM (c : Cause) (tval : Word) (s : State) (h : (takeTrap c tval s).priv = .machine) :
    takeTrap c tval s = enterM c tval s := by
  rcases takeTrap_cases c tval s with ⟨-, e⟩ | ⟨-, e⟩
  · rw [e, enterS_priv] at h
    cases h
  · exact e

/-- A trap that ends in S-mode came from below M and is the S half of trap entry (R420, R430). -/
theorem takeTrap_eq_enterS (c : Cause) (tval : Word) (s : State) (h : (takeTrap c tval s).priv = .supervisor) :
    s.priv ≠ .machine ∧ takeTrap c tval s = enterS c tval s := by
  rcases takeTrap_cases c tval s with ⟨ht, e⟩ | ⟨-, e⟩
  · exact ⟨((trapsToS_iff c s).mp ht).1, e⟩
  · rw [e, enterM_priv] at h
    cases h

/-- `SPP` tells the two modes below M apart (R33). -/
theorem priv_of_spp (p : Priv) (h : p ≠ .machine) : (if p == .supervisor then Priv.supervisor else .user) = p := by
  cases p with
  | user => rfl
  | supervisor => rfl
  | machine => exact absurd rfl h

/-- What a trap handler that returns at once must find again: the mode, the pc, the registers and memory (R434). -/
structure BackWhereTrapped (s t : State) : Prop where
  priv : t.priv = s.priv
  pc : t.pc = s.pc
  x : t.x = s.x
  mem : t.mem = s.mem

/-- Returning from the M half of trap entry (R353, R430, R434). -/
theorem returnM_enterM (c : Cause) (tval : Word) (s : State) (h : s.pc.getLsbD 0 = false) :
    BackWhereTrapped s (returnM (enterM c tval s)) where
  priv := rfl
  pc := pcOfHigh_pcHigh_even s.pc h
  x := rfl
  mem := rfl

/-- Returning from the S half of trap entry, taken from below M (R354, R430, R434). -/
theorem returnS_enterS (c : Cause) (tval : Word) (s : State) (hp : s.priv ≠ .machine) (h : s.pc.getLsbD 0 = false) :
    BackWhereTrapped s (returnS (enterS c tval s)) where
  priv := priv_of_spp s.priv hp
  pc := pcOfHigh_pcHigh_even s.pc h
  x := rfl
  mem := rfl

/-- Settles O38: each return is legal after its trap and finds what the trap entry stored. -/
theorem returnUndoesTrap : Obligations.ReturnUndoesTrap := by
  refine fun c tval s heven => ⟨fun hm => ?_, fun hs htsr => ?_⟩
  · rw [takeTrap_eq_enterM c tval s hm]
    have back := returnM_enterM c tval s heven
    exact ⟨_, execMret_legal _ rfl, back.priv, back.pc, rfl, fun r => readX_congr r s _ back.x,
      fun a => congrArg (memRead · a) back.mem⟩
  · obtain ⟨hp, e⟩ := takeTrap_eq_enterS c tval s hs
    rw [e]
    have back := returnS_enterS c tval s hp heven
    exact ⟨_, execSret_legal _ (.inr ⟨rfl, htsr⟩), back.priv, back.pc, rfl, fun r => readX_congr r s _ back.x,
      fun a => congrArg (memRead · a) back.mem⟩

/-! ### Waiting for an interrupt -/

/-- Settles O39: WFI is legal in M-mode and, with `TW` clear, in S-mode. -/
theorem wfiResult : Obligations.WfiResult :=
  fun s => ⟨fun h => (execWfi_legal s h).trans (congrArg _ (retire_advancePc_eq _)), execWfi_illegal s⟩

/-- A hart goes on waiting only while nothing enabled is pending and the environment does not wake it (R355). -/
theorem staysWaiting_iff (inp : Input) (s : State) :
    staysWaiting inp s = true ↔
      s.wfiWaiting = true ∧ inp.wake = false ∧ csrRead .mip s &&& csrRead .mie s = 0 := by
  simp [staysWaiting, wakePending, csrRead]

/-- Where the wait goes on, the boundary ends the step with nothing done (R355, R414). -/
theorem hartBoundary_waiting (inp : Input) (s : State) (hr : inp.reset = none) (hw : staysWaiting inp s = true) :
    hartBoundary inp s = .ended s := by
  unfold hartBoundary
  rw [hr, hw, Bool.or_true]
  rfl

/-- Settles O46, from the conditions under which the wait goes on. -/
theorem wfiWakes : Obligations.WfiWakes := by
  refine fun inp s => ⟨fun hpend => ?_, fun hwake => ?_, hartBoundary_waiting inp s⟩
  · refine Bool.eq_false_iff.mpr fun hw => ?_
    obtain ⟨-, -, hnone⟩ := (staysWaiting_iff inp s).mp hw
    exact hpend hnone
  · refine Bool.eq_false_iff.mpr fun hw => ?_
    obtain ⟨-, hno, -⟩ := (staysWaiting_iff inp s).mp hw
    exact Bool.noConfusion (hno.symm.trans hwake)

end Sys2Proof.Machine
end

section
/-! PROOF. The fences: SFENCE.VMA (O40), FENCE (O41) and FENCE.I (O42). -/

namespace Sys2Proof.Machine

/-! ### SFENCE.VMA -/

/-- The leaves that an SFENCE.VMA discards, by its operand registers (R108, R356). -/
theorem tlbFlushed_operands_iff (rs1 rs2 : Reg) (s : State) (e : TlbEntry) :
    tlbFlushed (fenceVaddr rs1 s) (fenceAsid rs2 s) e = true ↔
      (rs1 = 0#5 ∨ tlbCovers (readX rs1 s) e = true) ∧
      (rs2 = 0#5 ∨ (e.asid = (readX rs2 s).extractLsb' 0 16 ∧ e.pte.getLsbD 5 = false)) := by
  unfold tlbFlushed fenceVaddr fenceAsid tlbGlobal
  by_cases h1 : rs1 = 0#5 <;> by_cases h2 : rs2 = 0#5 <;> simp [h1, h2]

/-- The leaves that a flush keeps are those it does not discard (R356). -/
theorem mem_flushTlb (va : Option Word) (asid : Option (BitVec 16)) (s : State) (e : TlbEntry) :
    e ∈ (flushTlb va asid s).tlb ↔ e ∈ s.tlb ∧ ¬tlbFlushed va asid e = true := by
  rw [flushTlb_tlb, List.mem_filter, Bool.not_eq_true, Bool.not_eq_true']

/-- Settles O40: where it is legal SFENCE.VMA flushes by its operands and completes, elsewhere it traps. -/
theorem sfenceVmaResult : Obligations.SfenceVmaResult := by
  refine fun rs1 rs2 s => ⟨fun h => ⟨_, execSfenceVma_legal rs1 rs2 s h, rfl, fun e => ?_⟩,
    execSfenceVma_illegal rs1 rs2 s⟩
  rw [retire_tlb, advancePc_tlb, mem_flushTlb, tlbFlushed_operands_iff]

/-! ### FENCE -/

/-- When FIOM governs a FENCE (R104). -/
theorem fiomActive_iff (s : State) :
    fiomActive s = true ↔
      (s.priv = .supervisor ∧ s.mFIOM = true) ∨ (s.priv = .user ∧ (s.mFIOM = true ∨ s.sFIOM = true)) := by
  unfold fiomActive
  cases s.priv <;> simp

/-- When FIOM does not govern a FENCE (R104). -/
theorem fiomActive_eq_false_iff (s : State) :
    fiomActive s = false ↔
      s.priv = .machine ∨ (s.priv = .supervisor ∧ s.mFIOM = false) ∨
        (s.priv = .user ∧ s.mFIOM = false ∧ s.sFIOM = false) := by
  unfold fiomActive
  cases s.priv <;> simp

/-- Widening keeps I and O (R104). -/
theorem widenFenceSet_high (fiom : Bool) (v : BitVec 4) :
    (widenFenceSet fiom v).getLsbD 3 = v.getLsbD 3 ∧ (widenFenceSet fiom v).getLsbD 2 = v.getLsbD 2 := by
  cases fiom <;> simp [widenFenceSet]

/-- Under FIOM, I implies R and O implies W (R104). -/
theorem widenFenceSet_low (v : BitVec 4) :
    (widenFenceSet true v).getLsbD 1 = (v.getLsbD 1 || v.getLsbD 3) ∧
      (widenFenceSet true v).getLsbD 0 = (v.getLsbD 0 || v.getLsbD 2) := by
  simp [widenFenceSet]

/-- Only `fm = 1000` with both sets RW asks for FENCE.TSO (R127). -/
theorem fenceOrder_tso_iff (fm pred succ : BitVec 4) (s : State) :
    (fenceOrder fm pred succ s).tso = true ↔ fm = 0b1000#4 ∧ pred = 0b0011#4 ∧ succ = 0b0011#4 := by
  simp [fenceOrder, and_assoc]

/-- Settles O41: FENCE completes in every mode; each of its sets is handed on widened. -/
theorem fenceResult : Obligations.FenceResult := by
  refine fun fm pred succ s => ⟨_, fenceOrder fm pred succ s, execFence_eq fm pred succ s, rfl,
    fenceOrder_tso_iff fm pred succ s, fun v w h => ?_⟩
  have widened : w = widenFenceSet (fiomActive s) v := by
    rcases h with ⟨rfl, rfl⟩ | ⟨rfl, rfl⟩ <;> rfl
  rw [widened, ← fiomActive_iff, ← fiomActive_eq_false_iff]
  obtain ⟨hi, ho⟩ := widenFenceSet_high (fiomActive s) v
  refine ⟨hi, ho, fun active => ?_, fun inactive => ?_⟩
  · rw [active]
    exact widenFenceSet_low v
  · rw [inactive]
    rfl

/-! ### FENCE.I -/

/-- With no older values kept, every pick fetches the byte in memory (R105). -/
theorem codeByte_of_staleCode_nil (pick : Nat) (a : Word) (s : State) (h : s.staleCode = []) :
    codeByte pick a s = memRead s.mem a.toNat := by
  cases pick <;> simp [codeByte, h]

/-- Settles O42: FENCE.I completes in every mode and leaves no older value of any byte to be fetched. -/
theorem fenceIResult : Obligations.FenceIResult := fun s =>
  ⟨_, execFenceI_eq s, rfl, fun pick a => codeByte_of_staleCode_nil pick a _ rfl⟩

end Sys2Proof.Machine
end

section
/-! PROOF. What an instruction of `BaseStep` may change (O53): an instruction that makes a data access is taken apart
into the effect of the access and the rest of its retirement. -/

namespace Sys2Proof.Machine

/-! ### Retirement -/

/-- `FS` becomes Dirty only where the parameter lets hardware change it and the instruction writes a floating-point
register or accrues a flag (R323, R359). -/
theorem retiredFs_eq (r : BaseRetire) (s : State) :
    retiredFs r s =
      if s.cfg.fcsrDirtiesFs = true ∧ r.dirtiesFs = true ∧ (r.fWrites ≠ [] ∨ r.flags ≠ 0) then 3 else s.status.fs := by
  simp only [retiredFs, Bool.and_eq_true, Bool.or_eq_true, Bool.not_eq_true', List.isEmpty_eq_false_iff, bne_iff_ne,
    and_assoc]

/-- What retiring changes besides the access: registers, the pc, the reservation, the accrued flags, `FS` and the count
(R359, R441). -/
def RetiresWithin (r : BaseRetire) (s t : State) : Prop :=
  t = { s with
    x := t.x
    f := t.f
    pc := t.pc
    reservation := t.reservation
    fflags := s.fflags ||| r.flags
    status := { s.status with
      fs := if s.cfg.fcsrDirtiesFs = true ∧ r.dirtiesFs = true ∧ (r.fWrites ≠ [] ∨ r.flags ≠ 0) then 3
        else s.status.fs }
    minstret := countedInstret s }

/-- Retirement stays within it, also where a general register takes a loaded value. -/
theorem retiresWithin_of_applyRetire (len : Nat) (r : BaseRetire) (s t : State)
    (h : t = { applyRetire len r s with x := t.x }) : RetiresWithin r s (retire false t) := by
  unfold RetiresWithin
  rw [retire_eq_counted, h, applyRetire_eq, retiredFs_eq]
  rfl

/-! ### The effect of an access -/

/-- What an access changes before its instruction retires: the translation cache, memory with the old values that a
fetch may still see, and through a memory-mapped CSR the timer and `MTIP` (R85, R359). -/
def AccessChanges (s u : State) : Prop :=
  u = { s with
    tlb := u.tlb
    staleCode := u.staleCode
    mem := u.mem
    mtime := u.mtime
    mtimecmp := u.mtimecmp
    pend := { s.pend with mtip := u.pend.mtip } }

/-- What a data access that reached its addresses does: it changes no more than `AccessChanges`, not the timer where it
reaches no memory-mapped CSR, and no byte that it does not touch. -/
structure AccessEffect (a : Access) (pas : List Word) (s u : State) : Prop where
  changes : AccessChanges s u
  timer : (∀ pa ∈ pas, mmAt s.cfg pa = none) → u.mtime = s.mtime ∧ u.mtimecmp = s.mtimecmp ∧ u.pend = s.pend
  frame : ∀ k, ¬AccessTouches a pas k → memRead u.mem k = memRead s.mem k

/-- An access that stores to memory at most. -/
theorem AccessEffect.of_storesOnly {a : Access} {pas : List Word} {s u : State}
    (h : StoresOnly (AccessTouches a pas) s u) : AccessEffect a pas s u where
  changes := by
    rw [h.rest]
    rfl
  timer _ := by
    rw [h.rest]
    exact ⟨rfl, rfl, rfl⟩
  frame := h.frame

/-- An access that writes a memory-mapped CSR (R85, R445). -/
theorem AccessEffect.of_mmWrite {a : Access} {pas : List Word} (reg : MmReg) (v : Word) (s : State)
    (h : ¬∀ pa ∈ pas, mmAt s.cfg pa = none) : AccessEffect a pas s (mmWrite reg v s) where
  changes := by cases reg <;> rfl
  timer hm := absurd hm h
  frame _ _ := by cases reg <;> rfl

/-- The leaves that the translations of an access cache are part of its effect (R100). -/
theorem AccessEffect.of_tlb {a : Access} {pas : List Word} {s u : State} {l : List TlbEntry}
    (h : AccessEffect a pas { s with tlb := l } u) : AccessEffect a pas s u where
  changes := h.changes
  timer := h.timer
  frame := h.frame

/-! ### An access and its retirement -/

/-- An access with its retirement: the effect of the one, then the other. -/
def AccessResult (a : Access) (r : BaseRetire) (pas : List Word) (s t : State) : Prop :=
  ∃ u, AccessEffect a pas s u ∧ RetiresWithin r u t

/-- Everything that an access with its retirement leaves as it was (R359). -/
theorem AccessResult.eq {a : Access} {r : BaseRetire} {pas : List Word} {s t : State} (h : AccessResult a r pas s t) :
    t = { s with
      x := t.x
      f := t.f
      pc := t.pc
      reservation := t.reservation
      fflags := s.fflags ||| r.flags
      status := { s.status with
        fs := if s.cfg.fcsrDirtiesFs = true ∧ r.dirtiesFs = true ∧ (r.fWrites ≠ [] ∨ r.flags ≠ 0) then 3
          else s.status.fs }
      minstret := countedInstret s
      tlb := t.tlb
      staleCode := t.staleCode
      mem := t.mem
      mtime := t.mtime
      mtimecmp := t.mtimecmp
      pend := { s.pend with mtip := t.pend.mtip } } := by
  obtain ⟨u, ⟨hu, -, -⟩, ht⟩ := h
  unfold AccessChanges at hu
  unfold RetiresWithin at ht
  rw [hu] at ht
  rw [ht]
  rfl

/-- An access that reaches no memory-mapped CSR leaves the timer (R85). -/
theorem AccessResult.timer {a : Access} {r : BaseRetire} {pas : List Word} {s t : State}
    (h : AccessResult a r pas s t) (hm : ∀ pa ∈ pas, mmAt s.cfg pa = none) :
    t.mtime = s.mtime ∧ t.mtimecmp = s.mtimecmp ∧ t.pend = s.pend := by
  obtain ⟨u, hu, ht⟩ := h
  rw [ht]
  exact hu.timer hm

/-- An access leaves the bytes of memory that it does not touch (R83, R359). -/
theorem AccessResult.frame {a : Access} {r : BaseRetire} {pas : List Word} {s t : State}
    (h : AccessResult a r pas s t) (k : Nat) (hk : ¬AccessTouches a pas k) : memRead t.mem k = memRead s.mem k := by
  obtain ⟨u, hu, ht⟩ := h
  rw [ht]
  exact hu.frame k hk

/-- The bytes that an access does not touch, as R359 says it: it stores none there, and, being aligned or by the
schedule, no other agent does in between. -/
theorem not_accessTouches (a : Access) (pas : List Word) (k : Nat)
    (hw : accessWrites a.op = true → ∀ pa ∈ pas, pa.toNat ≠ k)
    (hb : accessAligned a = true ∨ ∀ l ∈ a.between, ∀ p ∈ l, p.1.toNat ≠ k) : ¬AccessTouches a pas k := by
  rintro (⟨writes, pa, hpa, hk⟩ | ⟨misaligned, l, hl, p, hp, hk⟩)
  · exact hw writes pa hpa hk
  · rcases hb with aligned | hb
    · exact Bool.noConfusion (misaligned.symm.trans aligned)
    · exact hb l hl p hp hk

/-! ### Performing an access -/

/-- An access goes to memory exactly where no byte of it lies in a memory-mapped CSR (R85). -/
theorem dataTarget_eq_memory_iff (c : Config) (pas : List Word) :
    dataTarget c pas = .memory ↔ ∀ pa ∈ pas, mmAt c pa = none := by
  have all_iff : (pas.all fun pa => (mmAt c pa).isNone) = true ↔ ∀ pa ∈ pas, mmAt c pa = none := by
    simp only [List.all_eq_true, Option.isNone_iff_eq_none]
  rw [← all_iff]
  unfold dataTarget
  split
  · rename_i hall
    exact iff_of_true rfl hall
  · rename_i hsome
    refine iff_of_false (fun h => ?_) hsome
    split at h
    · exact hsome rfl
    · split at h
      · cases h
      · split at h <;> cases h

/-- A performed access that answers a next state: its effect, then its retirement. -/
theorem performAccess_result (len : Nat) (a : Access) (r : BaseRetire) (pas : List Word) (s t : State)
    (h : performAccess len a r pas s = .next t) : AccessResult a r pas s t := by
  have finish (v : Word) (u : State) :
      RetiresWithin r u (retire false (writeLoaded a v (applyRetire len r u))) :=
    retiresWithin_of_applyRetire len r u _ (writeLoaded_eq a v _)
  unfold performAccess at h
  split at h
  case h_1 => cases h
  case h_2 reg off htarget =>
    cases h
    have reached : ¬∀ pa ∈ pas, mmAt s.cfg pa = none := by
      rw [← dataTarget_eq_memory_iff, htarget]
      exact DataTarget.noConfusion
    refine ⟨_, ?_, finish _ _⟩
    split
    · exact .of_mmWrite reg _ s reached
    · exact .of_storesOnly (.refl _ s)
  case h_3 =>
    split at h
    · cases h
    · rename_i hload
      cases h
      exact ⟨_, .of_storesOnly ((memoryLoad_storesOnly a pas s _ _ hload).trans (memoryStore_storesOnly a pas _)),
        finish _ _⟩

/-- An access to memory completes where each byte that it reads has a value. -/
theorem performAccess_next (len : Nat) (a : Access) (r : BaseRetire) (pas : List Word) (s : State)
    (hm : ∀ pa ∈ pas, mmAt s.cfg pa = none)
    (hr : accessReads a.op = true → ∀ pa ∈ pas, memRead s.mem pa.toNat ≠ none) :
    ∃ t, performAccess len a r pas s = .next t := by
  obtain ⟨⟨v, u⟩, hload⟩ := Option.ne_none_iff_exists'.mp (memoryLoad_isSome a pas s hr)
  unfold performAccess
  rw [(dataTarget_eq_memory_iff s.cfg pas).mpr hm]
  simp only [hload]
  exact ⟨_, rfl⟩

/-- An access that passes the alignment check and is translated is performed in the state with its leaves cached. -/
theorem baseAccess_translated (inp : Input) (len : Nat) (a : Access) (r : BaseRetire) (s : State) (pas : List Word)
    (fills : List (Option TlbEntry)) (ha : misalignedExc a = none) (hp : accessPath inp a s = .ok pas fills) :
    baseAccess inp len a r s =
      performAccess len a r pas { s with tlb := (fills.foldl (fun s f => applyFill f s) s).tlb } := by
  unfold baseAccess
  rw [ha, hp, ← foldl_applyFill_eq]

/-- A data access that answers a next state takes a trap or was translated and performed. -/
theorem baseAccess_cases (inp : Input) (len : Nat) (a : Access) (r : BaseRetire) (s t : State)
    (h : baseAccess inp len a r s = .next t) :
    (∃ e v, t = takeTrap (.exc e) v s) ∨
      ∃ pas fills, accessPath inp a s = .ok pas fills ∧ AccessResult a r pas s t := by
  cases ha : misalignedExc a with
  | some e =>
    rw [baseAccess_misaligned inp len a r s e ha] at h
    cases h
    exact .inl ⟨_, _, rfl⟩
  | none =>
    cases hp : accessPath inp a s with
    | ok pas fills =>
      rw [baseAccess_translated inp len a r s pas fills ha hp] at h
      obtain ⟨u, hu, ht⟩ := performAccess_result _ _ _ _ _ _ h
      exact .inr ⟨pas, fills, rfl, u, hu.of_tlb, ht⟩
    | fault e tval =>
      simp only [baseAccess, ha, hp] at h
      cases h
      exact .inl ⟨_, _, rfl⟩
    | stop f =>
      simp only [baseAccess, ha, hp] at h
      cases h

/-! ### The contract -/

/-- An event that raises takes its trap (R359, R404). -/
theorem baseStep_raise (inp : Input) (len : Nat) (bits : Word) (s : State) (c : BaseCause) (addr : Word)
    (h : inp.base = .raise c addr) :
    baseStep inp len bits s =
      .next (takeTrap (.exc (baseExc c)) (if c = .illegalInstr then bits else addr) s) := by
  simp only [baseStep, h]
  rfl

/-- An event without a data access retires (R359). -/
theorem baseStep_retire (inp : Input) (len : Nat) (bits : Word) (s : State) (r : BaseRetire)
    (h : inp.base = .retire r) : baseStep inp len bits s = .next (retire false (applyRetire len r s)) := by
  simp only [baseStep, h]

/-- An event with a data access makes it (R359). -/
theorem baseStep_access (inp : Input) (len : Nat) (bits : Word) (s : State) (a : Access) (r : BaseRetire)
    (h : inp.base = .access a r) : baseStep inp len bits s = baseAccess inp len a r s := by
  simp only [baseStep, h]

/-- Settles O53, event by event. -/
theorem baseStepContract : Obligations.BaseStepContract := by
  refine fun inp len bits s => ⟨fun r hi => ?_, baseStep_raise inp len bits s, fun a r t hi ht => ?_,
    fun a r pas fills hi ha hp hm hr => ?_⟩
  · exact ⟨_, baseStep_retire inp len bits s r hi, retiresWithin_of_applyRetire len r s _ rfl⟩
  · rw [baseStep_access inp len bits s a r hi] at ht
    refine (baseAccess_cases inp len a r s t ht).imp_right ?_
    rintro ⟨pas, fills, hp, result⟩
    exact ⟨pas, fills, hp, result.eq, result.timer, fun k hw hb => result.frame k (not_accessTouches a pas k hw hb)⟩
  · obtain ⟨t, ht⟩ := performAccess_next len a r pas
      { s with tlb := (fills.foldl (fun s f => applyFill f s) s).tlb } hm hr
    obtain ⟨u, hu, hu'⟩ := performAccess_result _ _ _ _ _ _ ht
    have result : AccessResult a r pas s t := ⟨u, hu.of_tlb, hu'⟩
    refine ⟨t, ?_, ?_, ?_⟩
    · rw [baseStep_access inp len bits s a r hi, baseAccess_translated inp len a r s pas fills ha hp, ht]
    · rw [result.eq]
    · rw [result.eq]

end Sys2Proof.Machine
end

section
/-! PROOF. Trap entry (O31), the mode a trap ends in (O32), and causes with their handlers (O33). -/

namespace Sys2Proof.Machine

/-! ### Trap entry -/

/-- A delegated trap from below M-mode is the S half of trap entry (R420, R430). -/
theorem takeTrap_toS (c : Cause) (tval : Word) (s : State) (h : trapsToS c s = true) :
    takeTrap c tval s = enterS c tval s := if_pos h

/-- Every other trap is the M half of trap entry (R421, R430). -/
theorem takeTrap_toM (c : Cause) (tval : Word) (s : State) (h : trapsToS c s = false) :
    takeTrap c tval s = enterM c tval s := if_neg (Bool.eq_false_iff.mp h)

/-- A trap does not go to S-mode where it comes from M-mode or its delegation bit is clear (R421). -/
theorem trapsToS_eq_false (c : Cause) (s : State)
    (h : s.priv = .machine ∨
      (match c with
      | .irq i => s.mideleg.getLsbD (irqCode i)
      | .exc e => s.medeleg.getLsbD (excCode e)) = false) : trapsToS c s = false := by
  refine Bool.eq_false_iff.mpr fun hs => ?_
  obtain ⟨hp, hd⟩ := (trapsToS_iff c s).mp hs
  rcases h with hm | hn
  · exact hp hm
  · exact Bool.noConfusion (hn.symm.trans hd)

/-- Settles O31: the two clauses are the two halves of trap entry. -/
theorem trapEntry : Obligations.TrapEntry := by
  rintro c tval s delegated rfl
  exact ⟨fun hp hd => takeTrap_toS c tval s ((trapsToS_iff c s).mpr ⟨hp, hd⟩),
    fun h => takeTrap_toM c tval s (trapsToS_eq_false c s h)⟩

/-- A trap ends in S-mode exactly where it goes there (R420). -/
theorem takeTrap_priv_eq_supervisor (c : Cause) (tval : Word) (s : State) :
    (takeTrap c tval s).priv = .supervisor ↔ trapsToS c s = true := by
  rw [takeTrap_priv]
  cases trapsToS c s <;> simp

/-- Settles O32: a trap goes to S-mode by `trapsToS`, else to M-mode, and neither is below the mode it came from. -/
theorem trapNeverLowersPrivilege : Obligations.TrapNeverLowersPrivilege := by
  refine fun c tval s => ⟨?_, takeTrap_priv_le c tval s,
    (takeTrap_priv_eq_supervisor c tval s).trans (trapsToS_iff c s), fun h => ?_⟩
  · rcases takeTrap_cases c tval s with ⟨-, e⟩ | ⟨-, e⟩
    · exact .inr (e ▸ enterS_priv c tval s)
    · exact .inl (e ▸ enterM_priv c tval s)
  · rw [takeTrap_machine c tval s h, enterM_priv]

/-! ### Causes and handlers -/

/-- The code of a cause lies below the interrupt bit (R400, R401). -/
theorem causeCode_lt (c : Cause) : causeCode c < 63 := by
  cases c with
  | exc e => cases e <;> decide
  | irq i => cases i <;> decide

/-- The binary cause value: the interrupt bit above the code (R402). -/
theorem causeValue_binary (c : Cause) :
    causeValue .binary c = BitVec.ofBool (causeIsIrq c) ++ BitVec.ofNat 63 (causeCode c) := by
  have small : causeCode c < 2 ^ 63 := (causeCode_lt c).trans (by decide)
  apply BitVec.eq_of_getLsbD_eq
  intro j hj
  simp only [causeValue, BitVec.getLsbD_or, getLsbD_bitAt _ _ _ (by decide : 63 < 64), BitVec.getLsbD_append,
    BitVec.getLsbD_ofNat, hj, decide_true, Bool.true_and]
  by_cases h : j < 63
  · simp [h, Nat.ne_of_lt h]
  · obtain rfl : j = 63 := by omega
    simp [Nat.testBit_lt_two_pow small]

/-- The bits of the one-hot cause value: the interrupt bit and the bit numbered by the code (R402). -/
theorem getLsbD_causeValue_onehot (c : Cause) (j : Nat) :
    (causeValue .onehot c).getLsbD j = (causeIsIrq c && decide (j = 63) || decide (j = causeCode c)) := by
  have code : (1#64 <<< causeCode c).getLsbD j = decide (j = causeCode c) :=
    getLsbD_bitAt true (causeCode c) j ((causeCode_lt c).trans (by decide))
  rw [causeValue, BitVec.getLsbD_or, getLsbD_bitAt _ _ _ (by decide), code]

/-- Bit 63 of the one-hot cause value is the interrupt bit (R402). -/
theorem causeValue_onehot_high (c : Cause) : (causeValue .onehot c).getLsbD 63 = causeIsIrq c := by
  have h := causeCode_lt c
  rw [getLsbD_causeValue_onehot, decide_eq_false (by omega : ¬63 = causeCode c)]
  simp

/-- Below bit 63 the one-hot cause value has the bit numbered by the code alone (R402). -/
theorem causeValue_onehot_low (c : Cause) (n : Nat) (hn : n < 63) :
    (causeValue .onehot c).getLsbD n = decide (n = causeCode c) := by
  rw [getLsbD_causeValue_onehot, decide_eq_false (Nat.ne_of_lt hn), Bool.and_false, Bool.false_or]

/-- Settles O33: the tables are the definitions, the cause values by their bits, the handler by the kind of cause. -/
theorem causesAndHandlers : Obligations.CausesAndHandlers := by
  refine ⟨rfl, rfl, fun e => ⟨causeValue_binary _, causeValue_onehot_high _, causeValue_onehot_low _⟩,
    fun i => ⟨causeValue_binary _, causeValue_onehot_high _, causeValue_onehot_low _⟩,
    by decide, by decide, by decide, by decide, by decide, by decide, fun t e => ?_, fun b i => rfl, fun b i => rfl⟩
  simp [tvecTarget, causeIsIrq]

end Sys2Proof.Machine
end

section
/-! PROOF. Which interrupt is selected (O43), and that it is taken at the boundary of a step (O44). -/

namespace Sys2Proof.Machine

/-! ### Selection -/

/-- The interrupt that the M group offers (R411, R412). -/
theorem highestPriority_mPending (s : State) (i : Irq) :
    highestPriority (mPending s) = some i ↔
      ReadyFor .machine i s ∧ ∀ j, ReadyFor .machine j s → irqRank i ≤ irqRank j := by
  simp only [highestPriority_eq_some, mPending_bit]

/-- The interrupt that the S group offers (R411, R412). -/
theorem highestPriority_sPending (s : State) (i : Irq) :
    highestPriority (sPending s) = some i ↔
      ReadyFor .supervisor i s ∧ ∀ j, ReadyFor .supervisor j s → irqRank i ≤ irqRank j := by
  simp only [highestPriority_eq_some, sPending_bit]

/-- The M group offers nothing where no interrupt is ready for M-mode (R411). -/
theorem highestPriority_mPending_none (s : State) :
    highestPriority (mPending s) = none ↔ ∀ j, ¬ReadyFor .machine j s := by
  simp only [highestPriority_eq_none, ← mPending_bit, Bool.not_eq_true]

/-- An interrupt is selected for M-mode as the M group offers it (R411). -/
theorem selectInterrupt_machine (s : State) (i : Irq) :
    selectInterrupt s = some (.machine, i) ↔ mEnabled s = true ∧ highestPriority (mPending s) = some i := by
  rw [← Option.ite_none_right_eq_some]
  unfold selectInterrupt
  split
  next h => simp [h]
  next h =>
    rw [h]
    split <;> simp

/-- An interrupt is selected for S-mode as the S group offers it, where the M group offers none (R411, R412). -/
theorem selectInterrupt_supervisor (s : State) (i : Irq) :
    selectInterrupt s = some (.supervisor, i) ↔
      (mEnabled s = true → highestPriority (mPending s) = none) ∧
        sEnabled s = true ∧ highestPriority (sPending s) = some i := by
  have offered : (if sEnabled s then highestPriority (sPending s) else none) = some i ↔
      sEnabled s = true ∧ highestPriority (sPending s) = some i := Option.ite_none_right_eq_some
  rw [← offered, ← ite_eq_right_iff]
  unfold selectInterrupt
  split
  next h => simp [h]
  next h =>
    rw [h]
    split
    next hs => simp [hs]
    next hs => simp [hs]

/-- No interrupt is selected for U-mode (R411). -/
theorem selectInterrupt_user (s : State) (i : Irq) : selectInterrupt s ≠ some (.user, i) := by
  unfold selectInterrupt
  split
  · simp
  · split <;> simp

/-- The S group waits where M-mode interrupts are enabled and one is ready (R412). -/
theorem mGroup_none_iff (s : State) :
    (mEnabled s = true → highestPriority (mPending s) = none) ↔
      ∀ j, ¬(EnabledFor .machine s ∧ ReadyFor .machine j s) := by
  rw [highestPriority_mPending_none, mEnabled_iff]
  exact ⟨fun h j ⟨enabled, ready⟩ => h enabled j ready, fun h enabled j ready => h j ⟨enabled, ready⟩⟩

/-- `mip` never shows LCOFI, bit 13 (R231, R401). -/
theorem mip_lcofi (s : State) : (csrRead .mip s).getLsbD 13 = false := by
  have h : mipView s &&& 0xAAA = mipView s := irqWord_mipWith _ s
  change (mipView s).getLsbD 13 = false
  rw [← h]
  simp

/-- Settles O43, group by group: the M group comes first, and each group offers its interrupt of the highest rank. -/
theorem interruptSelection : Obligations.InterruptSelection := by
  refine fun s p i => ⟨?_, mip_lcofi s, rfl⟩
  cases p with
  | machine =>
    rw [selectInterrupt_machine, mEnabled_iff, highestPriority_mPending]
    simp
  | supervisor =>
    rw [selectInterrupt_supervisor, mGroup_none_iff, sEnabled_iff, highestPriority_sPending]
    tauto
  | user =>
    refine iff_of_false (selectInterrupt_user s i) ?_
    rintro ⟨he, -⟩
    simp [EnabledFor] at he

/-! ### The interrupt at the boundary -/

/-- A trap ends a wait, so it does not matter whether the wait has been ended before (R355, R430). -/
theorem takeTrap_wait_ended (c : Cause) (tval : Word) (s : State) :
    takeTrap c tval { s with wfiWaiting := false } = takeTrap c tval s := by
  rcases takeTrap_cases c tval s with ⟨h, e⟩ | ⟨h, e⟩
  · exact (takeTrap_toS c tval { s with wfiWaiting := false } h).trans e.symm
  · exact (takeTrap_toM c tval { s with wfiWaiting := false } h).trans e.symm

/-- A selected interrupt ends the boundary of a running hart by its trap, with trap value 0 (R404, R413). -/
theorem hartBoundary_interrupt (inp : Input) (s : State) (p : Priv) (i : Irq) (hr : inp.reset = none)
    (hh : s.held = false) (hw : staysWaiting inp s = false) (hi : selectInterrupt s = some (p, i)) :
    hartBoundary inp s = .ended (takeTrap (.irq i) 0 s) := by
  have running : (s.held || staysWaiting inp s) = false := by rw [hh, hw]; rfl
  unfold hartBoundary
  rw [hr, running, hi, ← takeTrap_wait_ended]
  rfl

/-- With no interrupt selected a running hart goes on to fetch (R413, R414). -/
theorem hartBoundary_ready (inp : Input) (s : State) (hr : inp.reset = none) (hh : s.held = false)
    (hw : staysWaiting inp s = false) (hi : selectInterrupt s = none) :
    hartBoundary inp s = .ready { s with wfiWaiting := false } := by
  have running : (s.held || staysWaiting inp s) = false := by rw [hh, hw]; rfl
  unfold hartBoundary
  rw [hr, running, hi]
  rfl

/-- A step whose boundary ends it (R414). -/
theorem step_of_ended (s u : State) (h : boundary s = .ended u) : step s = .next u := by
  simp only [step, h]

/-- A step whose boundary leaves an instruction to fetch (R414). -/
theorem step_of_ready (s u : State) (h : boundary s = .ready u) : step s = fetchExecute (nextInput s) u := by
  simp only [step, h]

/-- A selected interrupt traps to the mode it was selected for (R411, R430). -/
theorem takeTrap_selected (s : State) (p : Priv) (i : Irq) (tval : Word) (h : selectInterrupt s = some (p, i)) :
    (takeTrap (.irq i) tval s).priv = p := by
  obtain ⟨enabled, ⟨-, target⟩, -⟩ := (interruptSelection s p i).1.mp h
  rcases target with ⟨rfl, hd⟩ | ⟨rfl, hd⟩
  · rw [takeTrap_toM _ _ _ (trapsToS_eq_false (.irq i) s (.inr hd)), enterM_priv]
  · have below : s.priv ≠ .machine := by
      intro hm
      simp [EnabledFor, hm] at enabled
    exact (takeTrap_priv_eq_supervisor _ _ _).mpr ((trapsToS_iff (.irq i) s).mpr ⟨below, hd⟩)

/-- Settles O44: the boundary takes the selected interrupt, or leaves the step to fetch and execute. -/
theorem interruptTaken : Obligations.InterruptTaken := by
  rintro s u rfl hr hh hw
  refine ⟨fun p i hi => ⟨?_, takeTrap_selected _ p i 0 hi⟩, fun hi => ?_⟩
  · exact step_of_ended s _ (hartBoundary_interrupt _ _ p i hr hh hw hi)
  · exact step_of_ready s _ (hartBoundary_ready _ _ hr hh hw hi)

end Sys2Proof.Machine
end

section
/-! PROOF. The counters (O47) and the machine timer interrupt (O48). -/

namespace Sys2Proof.Machine

/-! ### Counters -/

/-- `mcycle` advances where it counts (R440). -/
theorem advanceCounters_mcycle (inp : Input) (s : State) : (advanceCounters inp s).mcycle =
    if countingEnabled 0 s then s.mcycle + BitVec.ofNat 64 inp.cycles else s.mcycle := rfl

/-- Each event counter advances where it counts (R442). -/
theorem advanceCounters_mhpmcounter (inp : Input) (s : State) (i : Fin 29) : (advanceCounters inp s).mhpmcounter[i] =
    if countingEnabled (i.val + 3) s then s.mhpmcounter[i] + BitVec.ofNat 64 inp.events[i] else s.mhpmcounter[i] :=
  Vector.getElem_ofFn ..

/-- Whether a counter counts is not up to the agents (R443). -/
theorem countingEnabled_applyAgents (b : Nat) (as : List AgentAction) (s : State) :
    countingEnabled b (applyAgents as s) = countingEnabled b s :=
  have k := applyAgents_keeps as s
  countingEnabled_congr b s _ k.cfg k.mcountinhibit

/-- Settles O47: the agents leave the counters, which then advance where they count. -/
theorem countersAdvance : Obligations.CountersAdvance := by
  rintro inp s t rfl
  obtain ⟨-, -, -, -, cycle, instret, hpm, -⟩ := applyAgents_registers inp.actions s
  refine ⟨?_, fun i => ?_, instret, fun h => ?_, fun b => ⟨fun h => ?_, fun h => ?_⟩⟩
  · rw [platformStep, updateMtip_mcycle, advanceCounters_mcycle, countingEnabled_applyAgents, cycle]
  · rw [platformStep, updateMtip_mhpmcounter, advanceCounters_mhpmcounter, countingEnabled_applyAgents, hpm]
  · rw [platformStep, updateMtip_mtime, advanceCounters_mtime, applyAgents_mtime inp.actions s h]
  · simp only [countingEnabled, h]
  · simp only [countingEnabled, h]

/-! ### The timer -/

/-- Above `mtimecmp` the timer interrupt is pending (R445). -/
theorem updateMtip_above (s : State) (h : ownCmp s < s.mtime) : (updateMtip s).pend.mtip = true :=
  if_pos h

/-- Below `mtimecmp` it is not (R445). -/
theorem updateMtip_below (s : State) (h : s.mtime < ownCmp s) : (updateMtip s).pend.mtip = false :=
  (if_neg (BitVec.lt_asymm h)).trans (if_pos h)

/-- At equality the parameter decides (R445, D6). -/
theorem updateMtip_equal (s : State) (h : s.mtime = ownCmp s) : (updateMtip s).pend.mtip =
    match s.cfg.mtipAtEqual with
    | .hold => s.pend.mtip
    | .clear => false
    | .set => true := by
  have above : ¬ownCmp s < s.mtime := by rw [h]; exact BitVec.lt_irrefl _
  have below : ¬s.mtime < ownCmp s := by rw [h]; exact BitVec.lt_irrefl _
  exact (if_neg above).trans (if_neg below)

/-- Where the timer rule is evaluated: after the platform's part of a step and after a write of `mtime` or `mtimecmp`,
on the pending bit from before (R445). -/
theorem timer_evaluated (s t : State)
    (h : (∃ inp u, t = platformStep inp u ∧ s = advanceCounters inp (applyAgents inp.actions u)) ∨
      (∃ v, t = mmWrite .mtime v s) ∨ (∃ h v, t = mmWrite (.mtimecmp h) v s)) :
    ∃ u, t = updateMtip u ∧ u.pend = s.pend := by
  rcases h with ⟨inp, u, rfl, rfl⟩ | ⟨v, rfl⟩ | ⟨hart, v, rfl⟩
  · exact ⟨_, rfl, rfl⟩
  · exact ⟨_, rfl, rfl⟩
  · exact ⟨_, rfl, rfl⟩

/-! ### Stores to half a register -/

/-- The mask of the low half of a word. -/
theorem getLsbD_lowHalf (j : Nat) : (0xFFFFFFFF : Word).getLsbD j = decide (j < 32) := by
  change ((BitVec.allOnes 32).setWidth 64).getLsbD j = _
  rw [BitVec.getLsbD_setWidth, BitVec.getLsbD_allOnes]
  exact Bool.and_eq_right_iff_imp.mpr fun h => decide_eq_true (by simp only [decide_eq_true_eq] at h; omega)

/-- The mask of the high half of a word. -/
theorem getLsbD_highHalf (j : Nat) (hj : j < 64) : (0xFFFFFFFF00000000 : Word).getLsbD j = !decide (j < 32) := by
  change (~~~(0xFFFFFFFF : Word)).getLsbD j = _
  rw [BitVec.getLsbD_not, getLsbD_lowHalf]
  simp [hj]

/-- A 4-byte store at offset 0 replaces the low half (R85). -/
theorem mmMerge_low (old v : Word) : mmMerge old v 4 0 = (old &&& 0xFFFFFFFF00000000) ||| (v &&& 0xFFFFFFFF) := by
  have merged : mmMerge old v 4 0 = old.extractLsb' 32 32 ++ v.setWidth 32 := rfl
  apply BitVec.eq_of_getLsbD_eq
  intro j hj
  rw [merged, BitVec.getLsbD_append, BitVec.getLsbD_or, BitVec.getLsbD_and, BitVec.getLsbD_and, getLsbD_lowHalf,
    getLsbD_highHalf j hj]
  by_cases h : j < 32
  · simp [h]
  · simp [h, show j - 32 < 32 by omega, show 32 + (j - 32) = j by omega]

/-- A 4-byte store at offset 4 replaces the high half (R85). -/
theorem mmMerge_high (old v : Word) : mmMerge old v 4 4 = (old &&& (0xFFFFFFFF : Word)) ||| (v <<< 32) := by
  have merged : mmMerge old v 4 4 = v.setWidth 32 ++ old.setWidth 32 := rfl
  apply BitVec.eq_of_getLsbD_eq
  intro j hj
  rw [merged, BitVec.getLsbD_append, BitVec.getLsbD_or, BitVec.getLsbD_and, BitVec.getLsbD_shiftLeft, getLsbD_lowHalf]
  by_cases h : j < 32
  · simp [h]
  · simp [h, hj, show j - 32 < 32 by omega]

/-- Settles O48: every case evaluates the timer rule, which goes by the order of `mtime` and `mtimecmp`. -/
theorem timerRule : Obligations.TimerRule := by
  intro s t h
  obtain ⟨u, rfl, hu⟩ := timer_evaluated s t h
  refine ⟨updateMtip_above u, updateMtip_below u, fun he => ?_,
    fun old v => ⟨mmMerge_low old v, mmMerge_high old v, rfl⟩⟩
  rw [updateMtip_equal u he, hu]
  exact ⟨fun (hc : u.cfg.mtipAtEqual = .hold) => by rw [hc], fun (hc : u.cfg.mtipAtEqual = .clear) => by rw [hc],
    fun (hc : u.cfg.mtipAtEqual = .set) => by rw [hc]⟩

end Sys2Proof.Machine
end

section
/-! PROOF. A step runs what the bytes at the pc decode to (O54), and in M-mode these are the bytes of memory (O55). -/

namespace Sys2Proof.Machine

/-- Fetched bytes that decode to an instruction of the table run it (R414). -/
theorem fetchExecute_decoded (inp : Input) (s v : State) (bs rest : List Byte) (i : Instr)
    (hf : fetch inp s = .bytes bs v) (hd : decode bs = .ok (i, rest)) : fetchExecute inp s = exec i v := by
  simp only [fetchExecute, hf, executeBytes, hd]

/-- Settles O54: a ready boundary fetches and executes, and a fetch changes the cache of translations alone. -/
theorem stepRunsDecoded : Obligations.StepRunsDecoded := fun s u v bs rest i hb hf hd =>
  ⟨(step_of_ready s u hb).trans (fetchExecute_decoded _ u v bs rest i hf hd), fetch_bytes_eq _ u v bs hf⟩

/-- The first parcel of every encoding says its length (R122). -/
theorem parcelLength_encode (i : Instr) : Laws.ParcelLength.Statement i := by
  by_cases h : ilen i = 4
  · obtain ⟨h2, h3⟩ := lengthBits_of_opcode _ (encodeWord_opcode i h)
    exact Laws.ParcelLength.of_word i h h2 h3
  · rw [eq_cEbreak_of_ilen_ne_four i h]
    exact Laws.ParcelLength.cEbreak

/-- The two addresses of a parcel (R82). -/
theorem addrRange_two (a : Word) : addrRange a 2 = [a, a + 1] := by
  simp [addrRange, List.range_succ]

/-- The four addresses of a 32-bit instruction, parcel by parcel (R82). -/
theorem addrRange_four (a : Word) : addrRange a 4 = [a, a + 1, a + 2, a + 2 + 1] := by
  simp [addrRange, List.range_succ, BitVec.add_assoc]

/-- In M-mode a fetch with no error, no older byte and no memory-mapped CSR at the pc answers the encoding that memory
holds there (R82, R92, R122). -/
theorem fetch_machine_encoded (inp : Input) (s : State) (i : Instr) (hp : s.priv = .machine)
    (hh : inp.hardwareError = false) (hf : ∀ c ∈ inp.fetchChoices, c.fault = none) (hc : inp.codePick = [])
    (hm : ∀ n, n < 4 → mmAt s.cfg (s.pc + BitVec.ofNat 64 n) = none)
    (hr : memReadAll s.mem (addrRange s.pc (ilen i)) = some (encode i)) : fetch inp s = .bytes (encode i) s := by
  obtain ⟨hlen, b0, b1, rest, he, hl⟩ := parcelLength_encode i
  have free : ∀ a ∈ addrRange s.pc 4, mmAt s.cfg a = none := by
    simp only [addrRange, List.mem_map, List.mem_range]
    rintro a ⟨n, hn, rfl⟩
    exact hm n hn
  simp only [addrRange_four, List.mem_cons, List.not_mem_nil, or_false, forall_eq_or_imp, forall_eq] at free
  obtain ⟨free0, free1, free2, free3⟩ := free
  rw [memReadAll_eq_some] at hr
  rw [he] at hr hlen ⊢
  by_cases h : ilen i = 4
  · rw [h] at hlen hl hr
    obtain ⟨b2, b3, rfl⟩ := List.length_eq_two.mp (by simpa using hlen : rest.length = 2)
    simp only [addrRange_four, List.map_cons, List.cons.injEq] at hr
    obtain ⟨r0, r1, r2, r3, -⟩ := hr
    exact fetch_machine_four inp s b0 b1 b2 b3 hh (fetchParcel_machine inp s.pc 0 s b0 b1 hp hf hc free0 free1 r0 r1) hl
      (fetchParcel_machine inp (s.pc + 2) 2 s b2 b3 hp hf hc free2 free3 r2 r3)
  · have two : ilen i = 2 := by rw [eq_cEbreak_of_ilen_ne_four i h]; rfl
    rw [two] at hlen hl hr
    obtain rfl := List.length_eq_zero_iff.mp (by simpa using hlen : rest.length = 0)
    simp only [addrRange_two, List.map_cons, List.cons.injEq] at hr
    obtain ⟨r0, r1, -⟩ := hr
    exact fetch_machine_two inp s b0 b1 hh (fetchParcel_machine inp s.pc 0 s b0 b1 hp hf hc free0 free1 r0 r1) hl

/-- Settles O55: the fetch answers the encoding, which decodes to the instruction. -/
theorem stepRunsMemoryBytes : Obligations.StepRunsMemoryBytes := by
  intro s u i hb hp hh hf hc hm hr
  have fetched := fetch_machine_encoded (nextInput s) u i hp hh hf hc hm hr
  have decoded : decode (encode i) = .ok (i, []) := by simpa using decode_encode i []
  exact (stepRunsDecoded s u u (encode i) [] i hb fetched decoded).1

end Sys2Proof.Machine
end

section
/-! PROOF. Reset (O57): what it fixes, that the state it leaves is sound, and the step in which it comes. -/

namespace Sys2Proof.Machine

/-! ### The state that a reset leaves -/

/-- A hart with every element 0 is sound under any well-formed parameters and memory. -/
theorem Sound.zeroHart {s : State} (hc : s.cfg.wellFormed = true) (hm : s.mem.wf = true) :
    Sound { s with toHart := Hart.zero } where
  config := hc
  memory := hm
  pcEven := BitVec.getLsbD_zero
  mprvMachine h := absurd h Bool.false_ne_true
  vsZero _ := rfl
  medelegMasked := BitVec.zero_and
  medelegEcallM := BitVec.getLsbD_zero
  midelegMasked := BitVec.zero_and
  inhibitTime := BitVec.getLsbD_zero
  mtvecMasked := BitVec.zero_and
  stvecMasked := BitVec.zero_and
  satpMasked := BitVec.zero_and

/-- A reset fixes or masks all of the hart that soundness speaks of, so its result is sound whatever the hart was
before: a reset of the zero hart leaves the same state (R481). -/
theorem ResetState.sound {s : State} (h : ResetState s) (hc : s.cfg.wellFormed = true) (hm : s.mem.wf = true) :
    Sound s := by
  obtain ⟨draw, hd⟩ := h
  have same : resetHart draw { s with toHart := Hart.zero } = s := by
    change { s with toHart := Hart.afterReset s.cfg draw } = s
    rw [← hd]
  exact same ▸ (Sound.zeroHart hc hm).resetHart draw

/-- The drawn `scause` is the value of a cause that the hardware can give it (R65, R289). -/
theorem drawnScause_legal (enc : CauseEncoding) (v : Word) : ∃ k ∈ sCauses, drawnScause enc v = causeValue enc k := by
  unfold drawnScause
  split
  · next h =>
    obtain ⟨k, hk, hv⟩ := List.any_eq_true.mp h
    exact ⟨k, hk, (beq_iff_eq.mp hv).symm⟩
  · exact ⟨.exc .instrAccessFault, by decide, rfl⟩

/-- After a reset `scause` reads a cause that the hardware can give it (R65, R481). -/
theorem ResetState.scause_legal {s : State} (h : ResetState s) :
    ∃ k ∈ sCauses, csrRead .scause s = causeValue s.cfg.causeEncoding k := by
  obtain ⟨draw, hd⟩ := h
  have drawn : csrRead .scause s = drawnScause s.cfg.causeEncoding draw.sTrap.cause.value := by
    simp only [csrRead, hd]
    rfl
  rw [drawn]
  exact drawnScause_legal _ _

/-- What a reset fixes besides the mode and `MIE`: `MPRV`, `mcause`, the pc, no wait, no translation cached
(R481, R483). -/
theorem ResetState.fixed {s : State} (h : ResetState s) :
    s.status.mprv = false ∧ csrRead .mcause s = 0 ∧ s.pc = s.cfg.resetVector ∧ s.wfiWaiting = false ∧ s.tlb = [] := by
  obtain ⟨draw, hd⟩ := h
  simp only [csrRead, hd]
  exact ⟨rfl, rfl, rfl, rfl, rfl⟩

/-- The machine's first state is one that a reset leaves, with zeros drawn (R481, log 4). -/
theorem resetState_reset : ResetState State.reset := ⟨Hart.zero, rfl⟩

/-- The standard parameters are well-formed. -/
theorem wellFormed_standard : Config.standard.wellFormed = true := by decide

/-! ### The step in which a reset comes -/

/-- A reset ends the boundary, whatever else is pending (R414, R481). -/
theorem hartBoundary_reset (inp : Input) (s : State) (draw : Hart) (h : inp.reset = some draw) :
    hartBoundary inp s = .ended (resetHart draw s) := by
  unfold hartBoundary
  rw [h]

/-- A step with a reset resets the hart after the platform has acted (R414, R481). -/
theorem step_reset (s : State) (draw : Hart) (h : (nextInput s).reset = some draw) :
    step s = .next (resetHart draw (platformStep (nextInput s) (popInput s))) :=
  step_of_ended s _ (hartBoundary_reset _ _ draw h)

/-- Settles O57: a reset leaves a sound state with its fixed values, and a step with a reset leaves the state that
`resetHart` says, under the same parameters. -/
theorem resetIsSound : Obligations.ResetIsSound := by
  refine ⟨resetState_reset.sound wellFormed_standard wf_reset, resetState_reset, fun s hr hc hm => ?_, fun s draw h => ?_⟩
  · obtain ⟨hpriv, hmie⟩ := hr.mie_clear
    obtain ⟨hmprv, hmcause, hpc, hwait, htlb⟩ := hr.fixed
    exact ⟨hr.sound hc hm, hpriv, hmie, hmprv, hmcause, hr.scause_legal, hpc, hwait, htlb⟩
  · have hstep := step_reset s draw h
    have hcfg := step_cfg s _ hstep
    exact ⟨_, hstep, ⟨draw, rfl⟩, hcfg, congrArg (Hart.afterReset · draw) hcfg⟩

end Sys2Proof.Machine
end
